-- ==== Sys2Proof/Word.lean ====
section
/-! DEFINITION. The words KLZ78 is made of: bytes, Codes, command beats, byte sequences and bit sequences
(spec 00_scope.md section 6, 10_state.md R36). Every quantity is unsigned; lengths and counts are naturals. -/

namespace Sys2Proof

/-- A byte, `[0, 255]` (00_scope.md section 6); a literal is one byte (R62). -/
abbrev Byte := BitVec 8

/-- A Code, an unsigned 16-bit integer `[0, 65535]` (40_code.md R80). -/
abbrev Code := BitVec 16

/-- A command beat, 10 bits: `op = beat[9:8]`, `data = beat[7:0]` (30_encoding.md R68). -/
abbrev Beat := BitVec 10

/-- A byte sequence, first byte first (00_scope.md section 6). -/
abbrev ByteSeq := List Byte

/-- A bit sequence, OLDEST bit first, which is also wire order (00_scope.md section 6). -/
abbrev Bits := List Bool

end Sys2Proof
end

