-- ==== Sys2Proof/Config.lean ====
section
/-! DEFINITION. What is fixed for the machine (00_scope.md R5, R6) and the free values the spec leaves open
(60_exceptions.md R179(e), 93_implementation_defined.md U5, U19). A free value has no body: no proof can learn it. -/

namespace Sys2Proof.Config

/-- `CODE_MAX` = 65535, the largest Code value (R5). -/
abbrev codeMax : Nat := 65535

/-- `LIT_W` = 8, the width of a literal field (R5). -/
abbrev litW : Nat := 8

/-- `FLUSH_BITS` = 64, the Bit Sink's threshold and flush size (R5). -/
abbrev flushBits : Nat := 64

/-- `SEED_CODE` = 0, the code of the empty sequence (R5). -/
abbrev seedCode : Code := 0

/-- The widest code field, `CODE_W` = 16 bits (R5, R61). -/
abbrev codeW : Nat := 16

/-- `DEC_SUBCHUNK_BYTES`, OPEN in the spec with default 1 (R6, D12): the beat interface drives after every byte.
DESIGN CHOICE, log 8: the default; R158 says that no response and no output byte depends on it. -/
abbrev decSubchunkBytes : Nat := 1

/-! The registers of an engine that a fault leaves unspecified (R179(e)), one free value each, applied to the
engine's own counter `freeIdx`. Log 6. -/

opaque freeCeMaxCode : Nat → Code
opaque freeCePending : Nat → ByteSeq
opaque freeCeEncDict : Nat → List (ByteSeq × Code)
opaque freeCeBitSink : Nat → Bits
opaque freeCeClosed : Nat → Bool
opaque freeCeCallCount : Nat → Nat
opaque freeDeMaxCode : Nat → Code
opaque freeDeLastCode : Nat → Code
/-- `true` stands for `ExpectingByte`, the encoding 1 of D7. -/
opaque freeDeDState : Nat → Bool
opaque freeDeDecDict : Nat → List (Code × ByteSeq)
opaque freeDeBitSource : Nat → Bits
opaque freeDeClosed : Nat → Bool
opaque freeDeCallCount : Nat → Nat

end Sys2Proof.Config
end

