-- ==== Sys2Proof/Machine/Bits.lean ====
section
/-! DEFINITION. Conversion between values and bit sequences, most significant bit first, the only order KLZ78 uses
(00_scope.md section 6, 20_memory.md R46). -/

namespace Sys2Proof

/-- `be_bits(v, w)`: the `w` low bits of `v`, element `i` being `v[w-1-i]`. -/
def beBits (v : Nat) : Nat → Bits
  | 0 => []
  | w + 1 => v.testBit w :: beBits v w

/-- `be_val(s)`: the integer a bit sequence spells, oldest bit heaviest. -/
def beVal (s : Bits) : Nat :=
  s.foldl (fun acc b => 2 * acc + b.toNat) 0

/-- `pack8(s)`: byte `k` is `be_val(s[8k .. 8k+7])`. Its uses have a multiple of 8 bits (R47, R92). -/
def pack8 : Bits → ByteSeq
  | b7 :: b6 :: b5 :: b4 :: b3 :: b2 :: b1 :: b0 :: rest =>
    BitVec.ofNat 8 (beVal [b7, b6, b5, b4, b3, b2, b1, b0]) :: pack8 rest
  | _ => []

/-- `unpack8(bs)`: eight bits a byte, most significant first, bytes in order. -/
def unpack8 : ByteSeq → Bits
  | [] => []
  | b :: bs => beBits b.toNat 8 ++ unpack8 bs

/-- `zeros(n)`: `n` zero bits. -/
def zeros (n : Nat) : Bits := List.replicate n false

end Sys2Proof
end

