-- ==== Sys2Proof/Syntax.lean ====
section
/-! DEFINITION. The instructions of KLZ78: one constructor per row of spec/opcode_table.json. The command beats of the
two engines (30_encoding.md R68), the reserved beats (R69) and the fields of the compressed stream (R61 to R64, R75).
A CODE or TAIL row of width n carries its value as n bits; a PAD row's bits are all zero and carry nothing. -/

namespace Sys2Proof

/-- The engine whose command port a beat arrives on (30_encoding.md R67). -/
inductive Port where
  | ce
  | de
  deriving DecidableEq, Repr

/-- One constructor per row of the opcode table, in the table's order. -/
inductive Instr where
  /-- C.DATA, R132. -/
  | cData (b : Byte)
  /-- C.ENDCALL, R133. -/
  | cEndcall
  /-- C.FINALIZE, R134. -/
  | cFinalize
  /-- D.DATA, R154. -/
  | dData (b : Byte)
  /-- D.ENDCALL, R155. -/
  | dEndcall
  /-- D.FINALIZE, R156. -/
  | dFinalize
  /-- C.RSVD.ENDCALL_NZ, R69, R176; `d` is not 0. -/
  | cRsvdEndcallNz (d : Byte)
  /-- C.RSVD.FINALIZE_NZ, R69, R176; `d` is not 0. -/
  | cRsvdFinalizeNz (d : Byte)
  /-- C.RSVD.OP3, R69, R176. -/
  | cRsvdOp3 (d : Byte)
  /-- D.RSVD.ENDCALL_NZ, R69, R176; `d` is not 0. -/
  | dRsvdEndcallNz (d : Byte)
  /-- D.RSVD.FINALIZE_NZ, R69, R176; `d` is not 0. -/
  | dRsvdFinalizeNz (d : Byte)
  /-- D.RSVD.OP3, R69, R176. -/
  | dRsvdOp3 (d : Byte)
  /-- CODE.W0, R61, R151: a code field of no bits, value 0. -/
  | codeW0
  /-- CODE.W1, R61, R151. -/
  | codeW1 (c : BitVec 1)
  /-- CODE.W2, R61, R151. -/
  | codeW2 (c : BitVec 2)
  /-- CODE.W3, R61, R151. -/
  | codeW3 (c : BitVec 3)
  /-- CODE.W4, R61, R151. -/
  | codeW4 (c : BitVec 4)
  /-- CODE.W5, R61, R151. -/
  | codeW5 (c : BitVec 5)
  /-- CODE.W6, R61, R151. -/
  | codeW6 (c : BitVec 6)
  /-- CODE.W7, R61, R151. -/
  | codeW7 (c : BitVec 7)
  /-- CODE.W8, R61, R151. -/
  | codeW8 (c : BitVec 8)
  /-- CODE.W9, R61, R151. -/
  | codeW9 (c : BitVec 9)
  /-- CODE.W10, R61, R151. -/
  | codeW10 (c : BitVec 10)
  /-- CODE.W11, R61, R151. -/
  | codeW11 (c : BitVec 11)
  /-- CODE.W12, R61, R151. -/
  | codeW12 (c : BitVec 12)
  /-- CODE.W13, R61, R151. -/
  | codeW13 (c : BitVec 13)
  /-- CODE.W14, R61, R151. -/
  | codeW14 (c : BitVec 14)
  /-- CODE.W15, R61, R151. -/
  | codeW15 (c : BitVec 15)
  /-- CODE.W16, R61, R151. -/
  | codeW16 (c : BitVec 16)
  /-- LITERAL, R62, R152. -/
  | literal (b : Byte)
  /-- TAIL.W1, R63, R134; `c` is not 0. -/
  | tailW1 (c : BitVec 1)
  /-- TAIL.W2, R63, R134; `c` is not 0. -/
  | tailW2 (c : BitVec 2)
  /-- TAIL.W3, R63, R134; `c` is not 0. -/
  | tailW3 (c : BitVec 3)
  /-- TAIL.W4, R63, R134; `c` is not 0. -/
  | tailW4 (c : BitVec 4)
  /-- TAIL.W5, R63, R134; `c` is not 0. -/
  | tailW5 (c : BitVec 5)
  /-- TAIL.W6, R63, R134; `c` is not 0. -/
  | tailW6 (c : BitVec 6)
  /-- TAIL.W7, R63, R134; `c` is not 0. -/
  | tailW7 (c : BitVec 7)
  /-- TAIL.W8, R63, R134; `c` is not 0. -/
  | tailW8 (c : BitVec 8)
  /-- TAIL.W9, R63, R134; `c` is not 0. -/
  | tailW9 (c : BitVec 9)
  /-- TAIL.W10, R63, R134; `c` is not 0. -/
  | tailW10 (c : BitVec 10)
  /-- TAIL.W11, R63, R134; `c` is not 0. -/
  | tailW11 (c : BitVec 11)
  /-- TAIL.W12, R63, R134; `c` is not 0. -/
  | tailW12 (c : BitVec 12)
  /-- TAIL.W13, R63, R134; `c` is not 0. -/
  | tailW13 (c : BitVec 13)
  /-- TAIL.W14, R63, R134; `c` is not 0. -/
  | tailW14 (c : BitVec 14)
  /-- TAIL.W15, R63, R134; `c` is not 0. -/
  | tailW15 (c : BitVec 15)
  /-- TAIL.W16, R63, R134; `c` is not 0. -/
  | tailW16 (c : BitVec 16)
  /-- PAD.W1, R64, R92: 1 zero bit. -/
  | padW1
  /-- PAD.W2, R64, R92: 2 zero bits. -/
  | padW2
  /-- PAD.W3, R64, R92: 3 zero bits. -/
  | padW3
  /-- PAD.W4, R64, R92: 4 zero bits. -/
  | padW4
  /-- PAD.W5, R64, R92: 5 zero bits. -/
  | padW5
  /-- PAD.W6, R64, R92: 6 zero bits. -/
  | padW6
  /-- PAD.W7, R64, R92: 7 zero bits. -/
  | padW7
  deriving DecidableEq, Repr

end Sys2Proof
end

