-- ==== Sys2Proof/WellFormed.lean ====
section
/-! DEFINITION. Which instructions are well formed: what the encodings of 30_encoding.md ask of an operand beyond its
width. The two NZ rows need a non-zero data byte (R69, R75), and a tail code is never 0 (R63). -/

namespace Sys2Proof

/-- The operand check of each row. -/
def Instr.wellFormed : Instr → Bool
  | .cRsvdEndcallNz d | .cRsvdFinalizeNz d | .dRsvdEndcallNz d | .dRsvdFinalizeNz d => d != 0
  | .tailW1 c => c != 0
  | .tailW2 c => c != 0
  | .tailW3 c => c != 0
  | .tailW4 c => c != 0
  | .tailW5 c => c != 0
  | .tailW6 c => c != 0
  | .tailW7 c => c != 0
  | .tailW8 c => c != 0
  | .tailW9 c => c != 0
  | .tailW10 c => c != 0
  | .tailW11 c => c != 0
  | .tailW12 c => c != 0
  | .tailW13 c => c != 0
  | .tailW14 c => c != 0
  | .tailW15 c => c != 0
  | .tailW16 c => c != 0
  | .cData _ | .cEndcall | .cFinalize | .dData _ | .dEndcall | .dFinalize | .cRsvdOp3 _ | .dRsvdOp3 _ => true
  | .codeW0 | .codeW1 _ | .codeW2 _ | .codeW3 _ | .codeW4 _ | .codeW5 _ | .codeW6 _ | .codeW7 _ | .codeW8 _ => true
  | .codeW9 _ | .codeW10 _ | .codeW11 _ | .codeW12 _ | .codeW13 _ | .codeW14 _ | .codeW15 _ | .codeW16 _ => true
  | .literal _ | .padW1 | .padW2 | .padW3 | .padW4 | .padW5 | .padW6 | .padW7 => true

end Sys2Proof
end

