-- ==== Sys2Proof/Decode.lean ====
section
/-! DEFINITION. Encoded words, the decoder and, after it, the encoder (30_encoding.md R61 to R64, R68, R69, R75).
A beat is a 10-bit word on the command port of one engine. A field of the compressed stream is a run of bits whose
kind and width come from its POSITION in the stream, not from the bits (R65, R75): an encoded field therefore names
its kind, and its length is its width. -/

namespace Sys2Proof

/-- The four kinds of wire field (30_encoding.md R60). -/
inductive FieldKind where
  | code
  | literal
  | tail
  | pad
  deriving DecidableEq, Repr

/-- What stands on a port: a beat on an engine's command port, or a field of the compressed stream. -/
inductive Encoded where
  | beat (p : Port) (w : Beat)
  | field (k : FieldKind) (bits : Bits)
  deriving DecidableEq, Repr

/-- Why a run of bits is no field of the kind it stands for. -/
inductive DecodeError where
  /-- A code or tail field wider than 16 bits (R61). -/
  | codeWidth (w : Nat)
  /-- A literal field that is not 8 bits (R62). -/
  | literalWidth (w : Nat)
  /-- A tail field whose value is 0, one of width 0 among them (R63). -/
  | tailZero
  /-- A pad of no bit or of more than 7 (R64). -/
  | padWidth (w : Nat)
  /-- A pad with a bit that is not 0 (R64). -/
  | padNotZero
  deriving DecidableEq, Repr

/-- The engine a beat on a port addresses; the compressed stream is DE's input. -/
def Encoded.port : Encoded → Port
  | .beat p _ => p
  | .field _ _ => .de

/-- `beat[9:8]` (R68). -/
def beatOp (w : Beat) : BitVec 2 := w.extractLsb' 8 2

/-- `beat[7:0]` (R68). -/
def beatData (w : Beat) : Byte := w.extractLsb' 0 8

/-- The beat `op data` (R68). -/
def mkBeat (op : BitVec 2) (data : Byte) : Beat := op ++ data

/-- Every 10-bit beat is an instruction: the exact rows are tried before the reserved ones (R68, R69, R75). -/
def decodeBeat (p : Port) (w : Beat) : Instr :=
  match p with
  | .ce =>
    if beatOp w = 0 then .cData (beatData w)
    else if w = 0x100 then .cEndcall
    else if w = 0x200 then .cFinalize
    else if beatOp w = 1 then .cRsvdEndcallNz (beatData w)
    else if beatOp w = 2 then .cRsvdFinalizeNz (beatData w)
    else .cRsvdOp3 (beatData w)
  | .de =>
    if beatOp w = 0 then .dData (beatData w)
    else if w = 0x100 then .dEndcall
    else if w = 0x200 then .dFinalize
    else if beatOp w = 1 then .dRsvdEndcallNz (beatData w)
    else if beatOp w = 2 then .dRsvdFinalizeNz (beatData w)
    else .dRsvdOp3 (beatData w)

/-- The code field of width `w` and value `v` (R61, rows CODE.W0 to CODE.W16). -/
def codeOfWidth (w v : Nat) : Except DecodeError Instr :=
  match w with
  | 0 => .ok .codeW0
  | 1 => .ok (.codeW1 (BitVec.ofNat 1 v))
  | 2 => .ok (.codeW2 (BitVec.ofNat 2 v))
  | 3 => .ok (.codeW3 (BitVec.ofNat 3 v))
  | 4 => .ok (.codeW4 (BitVec.ofNat 4 v))
  | 5 => .ok (.codeW5 (BitVec.ofNat 5 v))
  | 6 => .ok (.codeW6 (BitVec.ofNat 6 v))
  | 7 => .ok (.codeW7 (BitVec.ofNat 7 v))
  | 8 => .ok (.codeW8 (BitVec.ofNat 8 v))
  | 9 => .ok (.codeW9 (BitVec.ofNat 9 v))
  | 10 => .ok (.codeW10 (BitVec.ofNat 10 v))
  | 11 => .ok (.codeW11 (BitVec.ofNat 11 v))
  | 12 => .ok (.codeW12 (BitVec.ofNat 12 v))
  | 13 => .ok (.codeW13 (BitVec.ofNat 13 v))
  | 14 => .ok (.codeW14 (BitVec.ofNat 14 v))
  | 15 => .ok (.codeW15 (BitVec.ofNat 15 v))
  | 16 => .ok (.codeW16 (BitVec.ofNat 16 v))
  | _ => .error (.codeWidth w)

/-- The tail code of width `w` and value `v`, which is never 0 (R63, rows TAIL.W1 to TAIL.W16). -/
def tailOfWidth (w v : Nat) : Except DecodeError Instr :=
  if v = 0 then .error .tailZero
  else
    match w with
    | 1 => .ok (.tailW1 (BitVec.ofNat 1 v))
    | 2 => .ok (.tailW2 (BitVec.ofNat 2 v))
    | 3 => .ok (.tailW3 (BitVec.ofNat 3 v))
    | 4 => .ok (.tailW4 (BitVec.ofNat 4 v))
    | 5 => .ok (.tailW5 (BitVec.ofNat 5 v))
    | 6 => .ok (.tailW6 (BitVec.ofNat 6 v))
    | 7 => .ok (.tailW7 (BitVec.ofNat 7 v))
    | 8 => .ok (.tailW8 (BitVec.ofNat 8 v))
    | 9 => .ok (.tailW9 (BitVec.ofNat 9 v))
    | 10 => .ok (.tailW10 (BitVec.ofNat 10 v))
    | 11 => .ok (.tailW11 (BitVec.ofNat 11 v))
    | 12 => .ok (.tailW12 (BitVec.ofNat 12 v))
    | 13 => .ok (.tailW13 (BitVec.ofNat 13 v))
    | 14 => .ok (.tailW14 (BitVec.ofNat 14 v))
    | 15 => .ok (.tailW15 (BitVec.ofNat 15 v))
    | 16 => .ok (.tailW16 (BitVec.ofNat 16 v))
    | _ => .error (.codeWidth w)

/-- The pad of `n` zero bits (R64, rows PAD.W1 to PAD.W7). -/
def padOfWidth (n : Nat) : Except DecodeError Instr :=
  match n with
  | 1 => .ok .padW1
  | 2 => .ok .padW2
  | 3 => .ok .padW3
  | 4 => .ok .padW4
  | 5 => .ok .padW5
  | 6 => .ok .padW6
  | 7 => .ok .padW7
  | _ => .error (.padWidth n)

/-- A run of bits read as a field of one kind (R61 to R64). -/
def decodeField (k : FieldKind) (bits : Bits) : Except DecodeError Instr :=
  match k with
  | .code => codeOfWidth bits.length (beVal bits)
  | .literal => if bits.length = Config.litW then .ok (.literal (BitVec.ofNat 8 (beVal bits))) else .error (.literalWidth bits.length)
  | .tail => tailOfWidth bits.length (beVal bits)
  | .pad => if beVal bits = 0 then padOfWidth bits.length else .error .padNotZero

/-- The decoder: total, rejecting by name. -/
def decode (e : Encoded) : Except DecodeError Instr :=
  match e with
  | .beat p w => .ok (decodeBeat p w)
  | .field k bits => decodeField k bits

/-- The encoder, from the same tables (R61 to R64, R68, R69). -/
def encode : Instr → Encoded
  | .cData b => .beat .ce (mkBeat 0 b)
  | .cEndcall => .beat .ce (mkBeat 1 0)
  | .cFinalize => .beat .ce (mkBeat 2 0)
  | .dData b => .beat .de (mkBeat 0 b)
  | .dEndcall => .beat .de (mkBeat 1 0)
  | .dFinalize => .beat .de (mkBeat 2 0)
  | .cRsvdEndcallNz d => .beat .ce (mkBeat 1 d)
  | .cRsvdFinalizeNz d => .beat .ce (mkBeat 2 d)
  | .cRsvdOp3 d => .beat .ce (mkBeat 3 d)
  | .dRsvdEndcallNz d => .beat .de (mkBeat 1 d)
  | .dRsvdFinalizeNz d => .beat .de (mkBeat 2 d)
  | .dRsvdOp3 d => .beat .de (mkBeat 3 d)
  | .codeW0 => .field .code []
  | .codeW1 c => .field .code (beBits c.toNat 1)
  | .codeW2 c => .field .code (beBits c.toNat 2)
  | .codeW3 c => .field .code (beBits c.toNat 3)
  | .codeW4 c => .field .code (beBits c.toNat 4)
  | .codeW5 c => .field .code (beBits c.toNat 5)
  | .codeW6 c => .field .code (beBits c.toNat 6)
  | .codeW7 c => .field .code (beBits c.toNat 7)
  | .codeW8 c => .field .code (beBits c.toNat 8)
  | .codeW9 c => .field .code (beBits c.toNat 9)
  | .codeW10 c => .field .code (beBits c.toNat 10)
  | .codeW11 c => .field .code (beBits c.toNat 11)
  | .codeW12 c => .field .code (beBits c.toNat 12)
  | .codeW13 c => .field .code (beBits c.toNat 13)
  | .codeW14 c => .field .code (beBits c.toNat 14)
  | .codeW15 c => .field .code (beBits c.toNat 15)
  | .codeW16 c => .field .code (beBits c.toNat 16)
  | .literal b => .field .literal (beBits b.toNat 8)
  | .tailW1 c => .field .tail (beBits c.toNat 1)
  | .tailW2 c => .field .tail (beBits c.toNat 2)
  | .tailW3 c => .field .tail (beBits c.toNat 3)
  | .tailW4 c => .field .tail (beBits c.toNat 4)
  | .tailW5 c => .field .tail (beBits c.toNat 5)
  | .tailW6 c => .field .tail (beBits c.toNat 6)
  | .tailW7 c => .field .tail (beBits c.toNat 7)
  | .tailW8 c => .field .tail (beBits c.toNat 8)
  | .tailW9 c => .field .tail (beBits c.toNat 9)
  | .tailW10 c => .field .tail (beBits c.toNat 10)
  | .tailW11 c => .field .tail (beBits c.toNat 11)
  | .tailW12 c => .field .tail (beBits c.toNat 12)
  | .tailW13 c => .field .tail (beBits c.toNat 13)
  | .tailW14 c => .field .tail (beBits c.toNat 14)
  | .tailW15 c => .field .tail (beBits c.toNat 15)
  | .tailW16 c => .field .tail (beBits c.toNat 16)
  | .padW1 => .field .pad (zeros 1)
  | .padW2 => .field .pad (zeros 2)
  | .padW3 => .field .pad (zeros 3)
  | .padW4 => .field .pad (zeros 4)
  | .padW5 => .field .pad (zeros 5)
  | .padW6 => .field .pad (zeros 6)
  | .padW7 => .field .pad (zeros 7)

/-- The engine an instruction addresses. -/
def Instr.port (i : Instr) : Port := (encode i).port

/-- The instruction is a beat that gets a response: every beat but DATA (R70). -/
def Instr.answered (i : Instr) : Bool :=
  match encode i with
  | .beat _ w => decide (beatOp w ≠ 0)
  | .field _ _ => false

/-- The instruction is the FINALIZE beat of either engine (R68). -/
def Instr.finalizes (i : Instr) : Bool :=
  match encode i with
  | .beat _ w => decide (w = 0x200)
  | .field _ _ => false

/-- Width and value of a field that DE parses as a code: the CODE rows, and the TAIL rows, which have the same bits and
are parsed with the same rule (R75). -/
def Instr.codeField (i : Instr) : Option (Nat × Nat) :=
  match encode i with
  | .field .code bits => some (bits.length, beVal bits)
  | .field .tail bits => some (bits.length, beVal bits)
  | _ => none

/-- Where the bits of an opcode-table row stand, when all that is known of the row is how many bits it has and what
they are. DESIGN CHOICE, log 2: the table gives the C and the D beats the same words and gives CODE, TAIL, LITERAL and
PAD rows of one width the same bits, so one reading is fixed here. -/
def tableWord (nbits w : Nat) : Option Encoded :=
  if 2 ^ nbits ≤ w then none
  else if (nbits = 10 ∨ nbits = 16) ∧ w < 1024 then some (.beat .ce (BitVec.ofNat 10 w))
  else if nbits = 8 then some (.field .literal (beBits w 8))
  else if 1 ≤ nbits ∧ nbits ≤ 7 ∧ w = 0 then some (.field .pad (zeros nbits))
  else if nbits ≤ 16 then some (.field .code (beBits w nbits))
  else none

/-- The instruction the decoder reads from the bits `w` of a table row of `nbits` bits (see `tableWord`). -/
def decodeTableWord (nbits w : Nat) : Option Instr :=
  match tableWord nbits w with
  | none => none
  | some e =>
    match decode e with
    | .ok i => some i
    | .error _ => none

end Sys2Proof
end

