-- ==== Sys2Proof/Machine/Memory.lean ====
section
/-! DEFINITION. The two keyed storage spaces of KLZ78, the Encode Dictionary ED and the Decode Dictionary DD
(20_memory.md R40 to R42; 43_encode_dictionary.md R110 to R112; 44_decode_dictionary.md R120 to R122), as association
lists in ONE canonical form: keys strictly rising, an unlisted key reading `absent` (`none`). DESIGN CHOICE, log 10: how a
dictionary is stored cannot be observed (D24). -/

namespace Sys2Proof

/-- A finite partial map as plain data; canonical when its keys strictly rise. -/
abbrev FMap (κ α : Type) := List (κ × α)

/-- The value stored under a key, or `none` for `absent`. -/
def FMap.find {κ α : Type} [DecidableEq κ] (m : FMap κ α) (k : κ) : Option α :=
  match m with
  | [] => none
  | (k', a) :: rest => if k' = k then some a else FMap.find rest k

/-- Store `a` under `k`, keeping the keys in rising order of `lt`. -/
def FMap.store {κ α : Type} [DecidableEq κ] (lt : κ → κ → Bool) (m : FMap κ α) (k : κ) (a : α) : FMap κ α :=
  match m with
  | [] => [(k, a)]
  | (k', a') :: rest =>
    if k = k' then (k, a) :: rest
    else if lt k k' then (k, a) :: (k', a') :: rest
    else (k', a') :: FMap.store lt rest k a

/-- The canonical form: keys strictly rising. -/
def FMap.rising {κ α : Type} (lt : κ → κ → Bool) : FMap κ α → Bool
  | [] => true
  | [_] => true
  | p :: q :: rest => lt p.1 q.1 && FMap.rising lt (q :: rest)

/-- Any list of entries brought into canonical form; of two entries under one key the earlier stands. -/
def FMap.ofEntries {κ α : Type} [DecidableEq κ] (lt : κ → κ → Bool) : List (κ × α) → FMap κ α
  | [] => []
  | (k, a) :: rest => FMap.store lt (FMap.ofEntries lt rest) k a

/-- The order of ED's keys: byte by byte, a proper prefix first. -/
def seqLt : ByteSeq → ByteSeq → Bool
  | [], [] => false
  | [], _ :: _ => true
  | _ :: _, [] => false
  | a :: as, b :: bs => decide (a.toNat < b.toNat) || (decide (a = b) && seqLt as bs)

/-- The order of DD's keys: the order of the integers (R80). -/
def codeLt (c d : Code) : Bool := decide (c.toNat < d.toNat)

/-- ED: byte sequence to Code (R110). -/
abbrev EncDict := FMap ByteSeq Code

/-- DD: Code to byte sequence (R120). -/
abbrev DecDict := FMap Code ByteSeq

/-- `ED.LOOKUP(s)`: exact-sequence lookup; no state changes (R111). -/
def edLookup (d : EncDict) (s : ByteSeq) : Option Code := FMap.find d s

/-- `ED.INSERT(s, c)` (R112). -/
def edInsert (d : EncDict) (s : ByteSeq) (c : Code) : EncDict := FMap.store seqLt d s c

/-- `DD.LOOKUP(c)` (R121). -/
def ddLookup (d : DecDict) (c : Code) : Option ByteSeq := FMap.find d c

/-- `DD.INSERT(c, s)` (R122). -/
def ddInsert (d : DecDict) (c : Code) (s : ByteSeq) : DecDict := FMap.store codeLt d c s

/-- ED is in canonical form. -/
def edWf (d : EncDict) : Bool := FMap.rising seqLt d

/-- DD is in canonical form. -/
def ddWf (d : DecDict) : Bool := FMap.rising codeLt d

end Sys2Proof
end

