-- ==== Sys2Proof/Machine/State.lean ====
section
/-! DEFINITION. The state of KLZ78 (10_state.md), the outcomes a step can have besides a next state, and reset
(70_reset_and_hazards.md R201). All plain data. -/

namespace Sys2Proof.Machine

/-- The fault causes an engine can latch (60_exceptions.md R170). `Incomplete` (6) and the reserved cause 7 are no
constructors: the first is a return value with a type of its own (R172), the second is never produced (U9). -/
inductive Cause where
  /-- 0 `None`: the reset value. -/
  | noFault
  /-- 1: the byte sink failed a byte (R171). -/
  | ioFailure
  /-- 2: a code field named no dictionary entry (R173). -/
  | badCode
  /-- 3: a mint beyond 65535 (R174). -/
  | codeSpaceExhausted
  /-- 4: a beat after FINALIZE (R175). -/
  | sessionClosed
  /-- 5: a reserved beat (R176). -/
  | reservedCommand
  deriving DecidableEq, Repr

/-- `DE.dstate`, the decoder's sequencing state (R23). -/
inductive DState where
  | expectingCode
  | expectingByte
  deriving DecidableEq, Repr

/-- A response word (30_encoding.md R70). -/
inductive Response where
  | ok (count : Nat)
  | err (cause : Cause) (value : BitVec 16)
  deriving DecidableEq, Repr

/-- A byte sink's answer to one offered byte (20_memory.md R44); `silent` is a sink that never answers (R208, D28). -/
inductive SinkAnswer where
  | accept
  | fail
  | silent
  deriving DecidableEq, Repr

/-- What an engine's byte sink is going to answer: an external input of the run (R32). DESIGN CHOICE, log 4: held as
the answers to the next offered bytes and the answer to every later one. -/
structure Sink where
  answers : List SinkAnswer
  thereafter : SinkAnswer
  deriving DecidableEq, Repr

/-- The session bookkeeping that CE and DE each have of their own (R10, R20, R31): the sticky flags, the count, the
byte sink's accepted stream, the responses given. The last three fields are the model's. -/
structure Session where
  /-- `closed` (R15, R26). -/
  closed : Bool
  /-- `fault` (R16, R27). -/
  fault : Cause
  /-- `fault_value` (R16, R27). -/
  faultValue : BitVec 16
  /-- `call_count`, a natural number (R17, R28, D23). -/
  callCount : Nat
  /-- `OUT`: the bytes the byte sink has accepted, in order (R44). -/
  out : ByteSeq
  /-- The responses given to the host since reset, in order (R9(b), R70). -/
  responses : List Response
  /-- The byte sink attached to the engine (R202); log 4. -/
  sink : Sink
  /-- The engine is held in a SinkWrite whose byte is never answered (R208, D28); log 5. -/
  hung : Bool
  /-- Counts the free values taken (R179(e)); log 6 and log 18. -/
  freeIdx : Nat
  deriving DecidableEq, Repr

/-- The Compressor engine (R10). -/
structure CE where
  /-- `CE.enc_dict` (R13). -/
  encDict : EncDict
  /-- `CE.max_code` (R11). -/
  maxCode : Code
  /-- `CE.pending` (R12). -/
  pending : ByteSeq
  /-- `CE.bit_sink` (R14). -/
  bitSink : Bits
  session : Session
  deriving DecidableEq, Repr

/-- The Decompressor engine (R20). -/
structure DE where
  /-- `DE.dec_dict` (R24). -/
  decDict : DecDict
  /-- `DE.max_code` (R21). -/
  maxCode : Code
  /-- `DE.last_code` (R22). -/
  lastCode : Code
  /-- `DE.bit_source` (R25). -/
  bitSource : Bits
  /-- `DE.dstate` (R23). -/
  dstate : DState
  session : Session
  deriving DecidableEq, Repr

/-- What the host (or the platform) does to the block next (70_reset_and_hazards.md R207). -/
inductive HostEvent where
  /-- Present a beat on a command port, or a field of the compressed stream to DE. -/
  | present (w : Encoded)
  /-- Assert an engine's reset (R200). -/
  | reset (p : Port)
  /-- Attach a byte sink to an engine (R202). -/
  | attach (p : Port) (k : Sink)
  deriving DecidableEq, Repr

/-- One CE, one DE, and what the host is still going to do, first first. -/
structure State where
  ce : CE
  de : DE
  host : List HostEvent
  deriving DecidableEq, Repr

/-- Why the machine stops with a fault of the MODEL. A KLZ78 fault (R170) is none of these: it is latched in a
register, and the machine goes on. -/
inductive Fault where
  /-- The bound on D.DRIVE's loop was reached before a stall. Raised by `drive` alone, and never: the bound suffices for
  every state (Laws/Drive.lean, `drive_ne_fault`). Safe. Log 13. -/
  | driveUnfinished
  deriving DecidableEq, Repr

/-- Why an instruction gets no effect. -/
inductive Refusal where
  /-- Raised by a stub arm of `exec`; there is none left. Safe. -/
  | notModelled (mnemonic : String)
  /-- Raised by the fetch: a run of bits presented as a field is no field of that kind (R61 to R64). Safe. -/
  | undecodable (e : DecodeError)
  /-- Raised by the gate: the host has no move on an engine that is inside a beat (R207, U6). Safe. Log 5. -/
  | engineBusy (p : Port)
  /-- Raised by BSK.APPEND: a value wider than its field, which R90 asks a model to refuse; unreachable by R139. Safe.
  Log 12. -/
  | fieldTooWide (v w : Nat)
  /-- Raised by code_prev: the operand 0, which R83 asks a model to refuse; unreachable. Safe. Log 12. -/
  | codePrevOfZero
  deriving DecidableEq, Repr

/-- A sink that accepts every byte. -/
def Sink.accepting : Sink := { answers := [], thereafter := .accept }

/-- The session registers after reset (R201), with a given sink and free-value counter, which reset does not touch. -/
def Session.fresh (k : Sink) (n : Nat) : Session :=
  { closed := false, fault := .noFault, faultValue := 0, callCount := 0, out := [], responses := [],
    sink := k, hung := false, freeIdx := n }

/-- CE after reset (R201). -/
def CE.fresh (k : Sink) (n : Nat) : CE :=
  { encDict := [], maxCode := 0, pending := [], bitSink := [], session := Session.fresh k n }

/-- DE after reset: the dictionary holds the seed entry `0 -> ε` (R24, R201, C1). -/
def DE.fresh (k : Sink) (n : Nat) : DE :=
  { decDict := [(Config.seedCode, [])], maxCode := 0, lastCode := 0, bitSource := [], dstate := .expectingCode,
    session := Session.fresh k n }

/-- The machine right after reset: both engines as R201 says, nothing pending from the host (log 1), sinks that accept
(log 4). -/
def State.reset : State :=
  { ce := CE.fresh Sink.accepting 0, de := DE.fresh Sink.accepting 0, host := [] }

end Sys2Proof.Machine
end

