-- ==== Sys2Proof/Machine/Operands.lean ====
section
/-! DEFINITION. The arithmetic of Codes, all the integer arithmetic KLZ78 has (40_code.md R80 to R85), and the widths
of code fields it decides (R65, R131, R150). KLZ78 has no other operand forms: a beat carries one byte (R68), a field
its own bits (R61, R62). -/

namespace Sys2Proof.Machine

/-- `min_bits(v)`: 0 for 0, otherwise one more than the index of the highest set bit (R81). -/
def minBits (v : Code) : Nat :=
  if v.toNat = 0 then 0 else Nat.log2 v.toNat + 1

/-- `code_inc(c)`: the next code, or `none` where it raises CodeSpaceExhausted; it never wraps (R82). -/
def codeInc (c : Code) : Option Code :=
  if c.toNat = Config.codeMax then none else some (c + 1)

/-- `code_prev(c)`: the code before, or `none` for the operand 0, which R83 leaves to the model. -/
def codePrev (c : Code) : Option Code :=
  if c.toNat = 0 then none else some (c - 1)

/-- The width of the code field DE reads next: `min_bits(DE.max_code)` (R150). -/
def DE.codeWidth (e : DE) : Nat := minBits e.maxCode

/-- The width of the tail code: `min_bits(CE.max_code)`, with no mint (R131, R134). -/
def CE.tailWidth (e : CE) : Nat := minBits e.maxCode

/-- The width of the field DE awaits: a code field or a literal (R150, R151, R152). -/
def DE.awaitedWidth (e : DE) : Nat :=
  match e.dstate with
  | .expectingCode => e.codeWidth
  | .expectingByte => Config.litW

end Sys2Proof.Machine
end

