-- ==== Sys2Proof/Machine/Flags.lean ====
section
/-! DEFINITION. The flag-like state of an engine, `closed` and `fault`, both sticky (10_state.md R34), the gate every beat
passes (60_exceptions.md R178, R180), the numbers of the causes (R170) and the read-only status view (R30). KLZ78 has no
arithmetic flags and no condition codes (R34). -/

namespace Sys2Proof.Machine

/-- The 3-bit number of a cause (R170, D8). -/
def Cause.number : Cause → BitVec 3
  | .noFault => 0
  | .ioFailure => 1
  | .badCode => 2
  | .codeSpaceExhausted => 3
  | .sessionClosed => 4
  | .reservedCommand => 5

/-- `ExpectingCode` = 0, `ExpectingByte` = 1 (R23, D7). -/
def DState.number : DState → BitVec 1
  | .expectingCode => 0
  | .expectingByte => 1

/-- The fields of a response word: `err`, and the count or the cause and value (R70). -/
structure ResponseWord where
  err : BitVec 1
  count : Nat
  cause : BitVec 3
  value : BitVec 16
  deriving DecidableEq, Repr

/-- A response as the fields of its word; the payload that the `err` flag does not select is 0 (R70). -/
def Response.word : Response → ResponseWord
  | .ok n => { err := 0, count := n, cause := 0, value := 0 }
  | .err c v => { err := 1, count := 0, cause := c.number, value := v }

/-- The status view of an engine (R30). -/
structure StatusView where
  closed : BitVec 1
  fault : BitVec 3
  faultValue : BitVec 16
  callCount : Nat
  /-- DE only; 0 bits of meaning for CE, which has no sequencing state (R23). -/
  dstate : Option (BitVec 1)
  deriving DecidableEq, Repr

/-- CE's status view (R30). -/
def CE.status (e : CE) : StatusView :=
  { closed := BitVec.ofBool e.session.closed, fault := e.session.fault.number, faultValue := e.session.faultValue,
    callCount := e.session.callCount, dstate := none }

/-- DE's status view (R30). -/
def DE.status (e : DE) : StatusView :=
  { closed := BitVec.ofBool e.session.closed, fault := e.session.fault.number, faultValue := e.session.faultValue,
    callCount := e.session.callCount, dstate := some e.dstate.number }

/-- What the gate says of a beat, in the order of R178: an engine still inside a beat has no move for the host
(R207, U6), then a latched fault, then `closed`, then the beat is let through. -/
inductive Admission where
  | busy
  | faulted
  | closed
  | admitted
  deriving DecidableEq, Repr

/-- The gate (R178, R180). -/
def Session.gate (t : Session) : Admission :=
  if t.hung then .busy
  else if t.fault ≠ .noFault then .faulted
  else if t.closed then .closed
  else .admitted

end Sys2Proof.Machine
end

