-- ==== Sys2Proof/Machine/Ops.lean ====
section
/-! DEFINITION. The shared operations of the two engines: the result of an engine rule, SinkWrite (20_memory.md R44),
responses (30_encoding.md R70), TAKING A FAULT as one operation (60_exceptions.md R179), reset as the only way back
(R181, 70_reset_and_hazards.md R200), and the frame of a beat (gate, body, response). -/

namespace Sys2Proof.Machine

/-- How a rule of an engine with state `σ` ends: with a value; at a `raise` (R179(a)), `s` being the state at that
statement; inside a SinkWrite that is never answered (R208); refused; or at the bound of a loop. -/
inductive Res (σ α : Type) where
  | ok (a : α) (s : σ)
  | raise (c : Cause) (v : BitVec 16) (s : σ)
  | hang (s : σ)
  | refuse (r : Refusal)
  | fault (f : Fault)

/-- Sequencing: the statements after one that did not end with a value do not run (R179(a)). -/
def Res.andThen {σ α β : Type} (r : Res σ α) (f : α → σ → Res σ β) : Res σ β :=
  match r with
  | .ok a s => f a s
  | .raise c v s => .raise c v s
  | .hang s => .hang s
  | .refuse q => .refuse q
  | .fault q => .fault q

/-! ### The byte sink (R44) -/

/-- The sink's answer to the next offered byte. -/
def Sink.answer (k : Sink) : SinkAnswer :=
  match k.answers with
  | [] => k.thereafter
  | a :: _ => a

/-- The sink after it has answered. -/
def Sink.advance (k : Sink) : Sink := { k with answers := k.answers.tail }

/-- How a SinkWrite ends. -/
inductive SinkEnd where
  | done
  | failed
  | silent
  deriving DecidableEq, Repr

/-- An accepted byte: appended to OUT and counted (R44). -/
def Session.accept (t : Session) (b : Byte) : Session :=
  { t with out := t.out ++ [b], callCount := t.callCount + 1, sink := t.sink.advance }

/-- `SinkWrite`: the bytes are offered one at a time, in order; the first that is failed, or never answered, ends the
write with the earlier ones accepted (R44). -/
def Session.sinkWrite (bs : ByteSeq) (t : Session) : SinkEnd × Session :=
  match bs with
  | [] => (.done, t)
  | b :: rest =>
    match t.sink.answer with
    | .accept => Session.sinkWrite rest (t.accept b)
    | .fail => (.failed, { t with sink := t.sink.advance })
    | .silent => (.silent, t)

/-- `SinkWrite(CE, bs)`. -/
def CE.sinkWrite (bs : ByteSeq) (e : CE) : Res CE Unit :=
  match e.session.sinkWrite bs with
  | (.done, t) => .ok () { e with session := t }
  | (.failed, t) => .raise .ioFailure 0 { e with session := t }
  | (.silent, t) => .hang { e with session := t }

/-- `SinkWrite(DE, bs)`. -/
def DE.sinkWrite (bs : ByteSeq) (e : DE) : Res DE Unit :=
  match e.session.sinkWrite bs with
  | (.done, t) => .ok () { e with session := t }
  | (.failed, t) => .raise .ioFailure 0 { e with session := t }
  | (.silent, t) => .hang { e with session := t }

/-- The next `n` offered bytes are all accepted. -/
def Sink.acceptsNext : Nat → Sink → Bool
  | 0, _ => true
  | n + 1, k => decide (k.answer = .accept) && Sink.acceptsNext n k.advance

/-- The sink after `n` answers. -/
def Sink.after : Nat → Sink → Sink
  | 0, k => k
  | n + 1, k => Sink.after n k.advance

/-- The session after its sink has accepted all of `bs`. -/
def Session.acceptAll (t : Session) (bs : ByteSeq) : Session :=
  { t with out := t.out ++ bs, callCount := t.callCount + bs.length, sink := t.sink.after bs.length }

/-! ### Responses (R70) -/

/-- Put a response on the engine's response port. -/
def Session.respond (t : Session) (r : Response) : Session := { t with responses := t.responses ++ [r] }

/-- `n <- call_count; call_count <- 0; respond OK(n)` (R133, R134, R155, R156). -/
def Session.respondCount (t : Session) : Session :=
  { (t.respond (.ok t.callCount)) with callCount := 0 }

/-! ### Taking a fault (R179) -/

/-- R175 and R176 say of these two faults that they change nothing else; of the others R179(e) leaves every register but
`fault`, `fault_value` and OUT unspecified. DEDUCED, log 7. -/
def Cause.changesNothingElse : Cause → Bool
  | .sessionClosed | .reservedCommand => true
  | _ => false

/-- CE with every register R179(e) leaves unspecified at a free value. Log 6. -/
def CE.unspecified (e : CE) : CE :=
  let n := e.session.freeIdx
  { encDict := FMap.ofEntries seqLt (Config.freeCeEncDict n)
    maxCode := Config.freeCeMaxCode n
    pending := Config.freeCePending n
    bitSink := Config.freeCeBitSink n
    session := { e.session with closed := Config.freeCeClosed n, callCount := Config.freeCeCallCount n, freeIdx := n + 1 } }

/-- The decoder state a free bit stands for (D7). -/
def DState.ofBit (b : Bool) : DState := if b then .expectingByte else .expectingCode

/-- DE with every register R179(e) leaves unspecified at a free value. Log 6. -/
def DE.unspecified (e : DE) : DE :=
  let n := e.session.freeIdx
  { decDict := FMap.ofEntries codeLt (Config.freeDeDecDict n)
    maxCode := Config.freeDeMaxCode n
    lastCode := Config.freeDeLastCode n
    bitSource := Config.freeDeBitSource n
    dstate := DState.ofBit (Config.freeDeDState n)
    session := { e.session with closed := Config.freeDeClosed n, callCount := Config.freeDeCallCount n, freeIdx := n + 1 } }

/-- `fault <- c; fault_value <- v`, and the response `ERR(c, v)` when the beat is an answered one (R179(b), (c)). -/
def Session.latch (answered : Bool) (c : Cause) (v : BitVec 16) (t : Session) : Session :=
  let t' := { t with fault := c, faultValue := v }
  if answered then t'.respond (.err c v) else t'

/-- Taking a fault in CE: the whole of R179 (a fault has no handler, no vector and no mode change, R179(d)). -/
def CE.takeFault (answered : Bool) (c : Cause) (v : BitVec 16) (e : CE) : CE :=
  let e' := if c.changesNothingElse then e else e.unspecified
  { e' with session := e'.session.latch answered c v }

/-- Taking a fault in DE: the whole of R179. -/
def DE.takeFault (answered : Bool) (c : Cause) (v : BitVec 16) (e : DE) : DE :=
  let e' := if c.changesNothingElse then e else e.unspecified
  { e' with session := e'.session.latch answered c v }

/-- There is no return from a fault (R181): reset, the only way out, starts a new session with every register at its
reset value (R200, R201). The attached sink and the model's free-value counter are no registers and stay. -/
def CE.doReset (e : CE) : CE := CE.fresh e.session.sink e.session.freeIdx

/-- Reset of DE (R200, R201). -/
def DE.doReset (e : DE) : DE := DE.fresh e.session.sink e.session.freeIdx

/-! ### The frame of a beat -/

/-- While a fault is latched an answered beat repeats `ERR(fault, fault_value)` and any other is ignored; nothing else
changes (R180). -/
def Session.repeatFault (answered : Bool) (t : Session) : Session :=
  if answered then t.respond (.err t.fault t.faultValue) else t

/-- What the end of a beat's body makes of CE: its state; a fault taken (R179); or CE held in its SinkWrite (R208). -/
def CE.finish (answered : Bool) (r : Res CE Unit) : Host.Outcome CE Fault Refusal :=
  match r with
  | .ok _ e => .next e
  | .raise c v e => .next (e.takeFault answered c v)
  | .hang e => .next { e with session := { e.session with hung := true } }
  | .refuse q => .refused q
  | .fault f => .fault f

/-- A beat of CE: gate (R178, R180), then the body, then what its end asks for (R179). `answered` tells whether the beat
gets a response (R70): every beat but DATA. -/
def CE.beat (answered : Bool) (body : CE → Res CE Unit) (e : CE) : Host.Outcome CE Fault Refusal :=
  match e.session.gate with
  | .busy => .refused (.engineBusy .ce)
  | .faulted => .next { e with session := e.session.repeatFault answered }
  | .closed => .next (e.takeFault answered .sessionClosed 0)
  | .admitted => CE.finish answered (body e)

/-- What the end of a beat's body makes of DE: its state; a fault taken (R179); or DE held in its SinkWrite (R208). -/
def DE.finish (answered : Bool) (r : Res DE Unit) : Host.Outcome DE Fault Refusal :=
  match r with
  | .ok _ e => .next e
  | .raise c v e => .next (e.takeFault answered c v)
  | .hang e => .next { e with session := { e.session with hung := true } }
  | .refuse q => .refused q
  | .fault f => .fault f

/-- A beat of DE, or bits of the compressed stream arriving at it: as `CE.beat`. -/
def DE.beat (answered : Bool) (body : DE → Res DE Unit) (e : DE) : Host.Outcome DE Fault Refusal :=
  match e.session.gate with
  | .busy => .refused (.engineBusy .de)
  | .faulted => .next { e with session := e.session.repeatFault answered }
  | .closed => .next (e.takeFault answered .sessionClosed 0)
  | .admitted => DE.finish answered (body e)

/-- A step of CE as a step of the machine: DE and the host's pending events are untouched (R31). -/
def onCE (f : CE → Host.Outcome CE Fault Refusal) (s : State) : Host.Outcome State Fault Refusal :=
  match f s.ce with
  | .next e => .next { s with ce := e }
  | .fault r => .fault r
  | .refused r => .refused r

/-- A step of DE as a step of the machine: CE and the host's pending events are untouched (R31). -/
def onDE (f : DE → Host.Outcome DE Fault Refusal) (s : State) : Host.Outcome State Fault Refusal :=
  match f s.de with
  | .next e => .next { s with de := e }
  | .fault r => .fault r
  | .refused r => .refused r

/-- Both keyed spaces are in canonical form. -/
def Memory.wf (s : State) : Bool := edWf s.ce.encDict && ddWf s.de.decDict

end Sys2Proof.Machine
end

