-- ==== Sys2Proof/Machine/BitSink.lean ====
section
/-! DEFINITION. The Bit Sink: append a field, flush 64 bits, drain (41_bit_sink.md R90 to R92). -/

namespace Sys2Proof.Machine

/-- `BSK.FLUSH64`: the 64 oldest bits leave as 8 bytes, oldest bits in the first byte (R91, R47). -/
def bskFlush64 (e : CE) : Res CE Unit :=
  CE.sinkWrite (pack8 (e.bitSink.take Config.flushBits)) { e with bitSink := e.bitSink.drop Config.flushBits }

/-- `BSK.APPEND(v, w)`: the field's bits join the queue, most significant first; a queue of MORE than 64 bits is then
flushed (R90, D13). A value wider than its field is refused, not truncated (R90). -/
def bskAppend (v w : Nat) (e : CE) : Res CE Unit :=
  if 2 ^ w ≤ v then .refuse (.fieldTooWide v w)
  else
    let q := e.bitSink ++ beBits v w
    if Config.flushBits < q.length then bskFlush64 { e with bitSink := q } else .ok () { e with bitSink := q }

/-- The number of zero bits that fill the last byte: `(8 - n mod 8) mod 8` (R64). -/
def padLength (n : Nat) : Nat := (8 - n % 8) % 8

/-- `BSK.DRAIN`: the remaining bits leave as whole bytes, the last padded with zeros (R92). -/
def bskDrain (e : CE) : Res CE Unit :=
  CE.sinkWrite (pack8 (e.bitSink ++ zeros (padLength e.bitSink.length))) { e with bitSink := [] }

end Sys2Proof.Machine
end

