-- ==== Sys2Proof/Machine/Compressor.lean ====
section
/-! DEFINITION. The Compressor engine: the per-byte step and CE's three command beats (45_compressor.md R130 to R134). -/

namespace Sys2Proof.Machine

/-- `ED.LOOKUP` of a sequence that is present by construction (R113, R18(a)); the default Code 0 is unreachable, as R113
asks, and no run-time check stands here. DEDUCED, log 11. -/
def edCodeOf (d : EncDict) (s : ByteSeq) : Code := (edLookup d s).getD Config.seedCode

/-- The code emitted for a prefix: 0 for the empty one, else its dictionary code (R130). -/
def prefixCode (d : EncDict) (p : ByteSeq) : Code := if p = [] then Config.seedCode else edCodeOf d p

/-- `CE.pending <- CE.pending ++ [b]`. -/
def CE.extend (b : Byte) (e : CE) : CE := { e with pending := e.pending ++ [b] }

/-- CE with the new code `m` minted for the pending sequence: `CE.max_code <- m`, `ED.INSERT(CE.pending, m)` (R130). -/
def CE.mint (m : Code) (e : CE) : CE := { e with maxCode := m, encDict := edInsert e.encDict e.pending m }

/-- The emission of a transaction: the code of the pending sequence's all-but-last-byte prefix at width `w`, the literal,
and the pending buffer cleared (R130, R131). -/
def cEmit (w : Nat) (b : Byte) (e : CE) : Res CE Unit :=
  (bskAppend (prefixCode e.encDict e.pending.dropLast).toNat w e).andThen fun _ e1 =>
    (bskAppend b.toNat Config.litW e1).andThen fun _ e2 =>
      .ok () { e2 with pending := [] }

/-- The miss part of `C.STEP(b)`: mint, insert, emit (R130); the width is that of the max-code before the mint (R131). -/
def cMiss (b : Byte) (e : CE) : Res CE Unit :=
  match codeInc e.maxCode with
  | none => .raise .codeSpaceExhausted 0 e
  | some m =>
    match codePrev m with
    | none => .refuse .codePrevOfZero
    | some p => cEmit (minBits p) b (e.mint m)

/-- `C.STEP(b)` (R130), statement by statement. -/
def cStep (b : Byte) (e : CE) : Res CE Unit :=
  match edLookup e.encDict (e.extend b).pending with
  | some _ => .ok () (e.extend b)
  | none => cMiss b (e.extend b)

/-- The tail code of `C.FINALIZE`: emitted when a match is pending, at the width of the current max-code (R134). -/
def cTail (e : CE) : Res CE Unit :=
  if e.pending = [] then .ok () e
  else bskAppend (edCodeOf e.encDict e.pending).toNat e.tailWidth e

/-- `C.ENDCALL`'s body (R133). -/
def cEndcallBody (e : CE) : Res CE Unit := .ok () { e with session := e.session.respondCount }

/-- `C.FINALIZE`'s body: tail code, drain, close, answer (R134). `CE.pending` is left as it is. -/
def cFinalizeBody (e : CE) : Res CE Unit :=
  (cTail e).andThen fun _ e1 =>
    (bskDrain e1).andThen fun _ e2 =>
      .ok () { e2 with session := { e2.session with closed := true }.respondCount }

/-- C.DATA b (R132). -/
def execCData (b : Byte) (s : State) : Host.Outcome State Fault Refusal :=
  onCE (CE.beat false (cStep b)) s

/-- C.ENDCALL (R133). -/
def execCEndcall (s : State) : Host.Outcome State Fault Refusal :=
  onCE (CE.beat true cEndcallBody) s

/-- C.FINALIZE (R134). -/
def execCFinalize (s : State) : Host.Outcome State Fault Refusal :=
  onCE (CE.beat true cFinalizeBody) s

end Sys2Proof.Machine
end

