-- ==== Sys2Proof/Machine/Reserved.lean ====
section
/-! DEFINITION. The reserved beats (30_encoding.md R69, 60_exceptions.md R176): each raises ReservedCommand, changes
nothing else and is answered at once. The data byte is not looked at. -/

namespace Sys2Proof.Machine

/-- The body of a reserved beat of CE (R176). -/
def ceReserved (e : CE) : Res CE Unit := .raise .reservedCommand 0 e

/-- The body of a reserved beat of DE (R176). -/
def deReserved (e : DE) : Res DE Unit := .raise .reservedCommand 0 e

/-- C.RSVD.ENDCALL_NZ, beats 0x101 to 0x1FF (R69, R176). -/
def execCRsvdEndcallNz (_d : Byte) (s : State) : Host.Outcome State Fault Refusal :=
  onCE (CE.beat true ceReserved) s

/-- C.RSVD.FINALIZE_NZ, beats 0x201 to 0x2FF (R69, R176). -/
def execCRsvdFinalizeNz (_d : Byte) (s : State) : Host.Outcome State Fault Refusal :=
  onCE (CE.beat true ceReserved) s

/-- C.RSVD.OP3, beats 0x300 to 0x3FF (R69, R176). -/
def execCRsvdOp3 (_d : Byte) (s : State) : Host.Outcome State Fault Refusal :=
  onCE (CE.beat true ceReserved) s

/-- D.RSVD.ENDCALL_NZ, beats 0x101 to 0x1FF (R69, R176). -/
def execDRsvdEndcallNz (_d : Byte) (s : State) : Host.Outcome State Fault Refusal :=
  onDE (DE.beat true deReserved) s

/-- D.RSVD.FINALIZE_NZ, beats 0x201 to 0x2FF (R69, R176). -/
def execDRsvdFinalizeNz (_d : Byte) (s : State) : Host.Outcome State Fault Refusal :=
  onDE (DE.beat true deReserved) s

/-- D.RSVD.OP3, beats 0x300 to 0x3FF (R69, R176). -/
def execDRsvdOp3 (_d : Byte) (s : State) : Host.Outcome State Fault Refusal :=
  onDE (DE.beat true deReserved) s

end Sys2Proof.Machine
end

