-- ==== Sys2Proof/Machine/BitSource.lean ====
section
/-! DEFINITION. The Bit Source: push received bits, take a field (42_bit_source.md R100 to R102). -/

namespace Sys2Proof.Machine

/-- What `BSR.TAKE` returns. `Incomplete(n)` is a value of this type and of no other: it cannot be latched or answered
(R102, R172, U7). -/
inductive Taken where
  | value (v : Nat)
  | incomplete (n : Nat)
  deriving DecidableEq, Repr

/-- Bits received join the queue behind those already there (R100). -/
def bsrPushBits (bits : Bits) (e : DE) : DE := { e with bitSource := e.bitSource ++ bits }

/-- `BSR.PUSH(bs)` (R100). -/
def bsrPush (bs : ByteSeq) (e : DE) : DE := bsrPushBits (unpack8 bs) e

/-- `BSR.TAKE(w)`: a whole field, or `Incomplete(w)` with nothing consumed (R101). -/
def bsrTake (w : Nat) (e : DE) : Taken × DE :=
  if e.bitSource.length < w then (.incomplete w, e)
  else (.value (beVal (e.bitSource.take w)), { e with bitSource := e.bitSource.drop w })

end Sys2Proof.Machine
end

