-- ==== Sys2Proof/Machine/Decompressor.lean ====
section
/-! DEFINITION. The Decompressor engine: the two steps of the state machine, the drive loop and DE's three command beats
(46_decompressor.md R150 to R156). -/

namespace Sys2Proof.Machine

/-- What one step of the state machine returns (R151, R152). -/
inductive Progress where
  | progress
  | stall
  deriving DecidableEq, Repr

/-- What `D.CODE` does with a code value once its bits are consumed (R151): look it up, write the expansion, record it. -/
def dCodeValue (v : Nat) (e : DE) : Res DE Progress :=
  match ddLookup e.decDict (BitVec.ofNat 16 v) with
  | none => .raise .badCode (BitVec.ofNat 16 v) e
  | some seq =>
    (DE.sinkWrite seq e).andThen fun _ e1 =>
      .ok .progress { e1 with lastCode := BitVec.ofNat 16 v, dstate := .expectingByte }

/-- `D.CODE` (R151). -/
def dCode (e : DE) : Res DE Progress :=
  match bsrTake e.codeWidth e with
  | (.incomplete _, _) => .ok .stall e
  | (.value v, e1) => dCodeValue v e1

/-- The expansion of the last-decoded code, present by R29(c); the default ε is unreachable. DEDUCED, log 11. -/
def ddExpansion (d : DecDict) (c : Code) : ByteSeq := (ddLookup d c).getD []

/-- DE with the new code `m` minted for the last-decoded sequence with the literal `b` behind it (R152). -/
def DE.mint (m : Code) (b : Byte) (e : DE) : DE :=
  { e with maxCode := m, decDict := ddInsert e.decDict m (ddExpansion e.decDict e.lastCode ++ [b]) }

/-- What `D.BYTE` does with a literal once its bits are consumed (R152), in the order of D30. -/
def dByteValue (b : Byte) (e : DE) : Res DE Progress :=
  match codeInc e.maxCode with
  | none => .raise .codeSpaceExhausted 0 e
  | some m =>
    (DE.sinkWrite [b] (e.mint m b)).andThen fun _ e1 =>
      .ok .progress { e1 with dstate := .expectingCode }

/-- `D.BYTE` (R152). -/
def dByte (e : DE) : Res DE Progress :=
  match bsrTake Config.litW e with
  | (.incomplete _, _) => .ok .stall e
  | (.value v, e1) => dByteValue (BitVec.ofNat 8 v) e1

/-- One step of the state machine, the one its state asks for (R153). -/
def dStep (e : DE) : Res DE Progress :=
  match e.dstate with
  | .expectingCode => dCode e
  | .expectingByte => dByte e

/-- `D.DRIVE`'s loop with a bound on its turns; the bound is a device of the model (log 13). -/
def drive : Nat → DE → Res DE Unit
  | 0, _ => .fault .driveUnfinished
  | n + 1, e =>
    match dStep e with
    | .ok .stall e1 => .ok () e1
    | .ok .progress e1 => drive n e1
    | .raise c v e1 => .raise c v e1
    | .hang e1 => .hang e1
    | .refuse r => .refuse r
    | .fault f => .fault f

/-- Enough turns for any queue: two turns consume at least 8 bits (R153). -/
def driveBound (e : DE) : Nat := e.bitSource.length + 2

/-- `D.DRIVE`: run the state machine until it stalls (R153). -/
def dDrive (e : DE) : Res DE Unit := drive (driveBound e) e

/-- Bits of the compressed stream arrive and DE is driven; with eight bits this is `D.DATA`'s body (R154). -/
def dReceive (bits : Bits) (e : DE) : Res DE Unit := dDrive (bsrPushBits bits e)

/-- `D.ENDCALL`'s body; it does not drive (R155, D20). -/
def dEndcallBody (e : DE) : Res DE Unit := .ok () { e with session := e.session.respondCount }

/-- `D.FINALIZE`'s body: it parses nothing and writes nothing (R156, D22, D27). -/
def dFinalizeBody (e : DE) : Res DE Unit :=
  .ok () { e with session := { e.session with closed := true }.respondCount }

/-- D.DATA b: `BSR.PUSH([b])`, then `D.DRIVE` (R154). -/
def execDData (b : Byte) (s : State) : Host.Outcome State Fault Refusal :=
  onDE (DE.beat false fun e => dDrive (bsrPush [b] e)) s

/-- D.ENDCALL (R155). -/
def execDEndcall (s : State) : Host.Outcome State Fault Refusal :=
  onDE (DE.beat true dEndcallBody) s

/-- D.FINALIZE (R156). -/
def execDFinalize (s : State) : Host.Outcome State Fault Refusal :=
  onDE (DE.beat true dFinalizeBody) s

end Sys2Proof.Machine
end

