-- ==== Sys2Proof/Machine/Wire.lean ====
section
/-! DEFINITION. The fields of the compressed stream as instructions (30_encoding.md R61 to R64, R75). The stream reaches
DE and plays the part of its instruction stream (20_memory.md R40). A field's bits arrive at DE as bits of a `read` call
do: they pass the gate of a DATA beat, join the Bit Source behind what is there, and DE is driven to a stall. Which field
the decoder then parses is decided by its state, not by the bits (R65, R75): where it awaits exactly the field that
arrives, this is one step D.CODE (R151) or D.BYTE (R152). A TAIL field is parsed by that same R151 (R75); PAD bits are
parsed like any other bits (R163). Log 3. -/

namespace Sys2Proof.Machine

/-- The bits of one field of the stream arrive at DE. -/
def fieldArrives (bits : Bits) (s : State) : Host.Outcome State Fault Refusal :=
  onDE (DE.beat false (dReceive bits)) s

/-- CODE.W0: no bits, value 0; only the first field of a stream (R61, R151). -/
def execCodeW0 (s : State) : Host.Outcome State Fault Refusal := fieldArrives [] s

/-- CODE.W1 (R61, R151). -/
def execCodeW1 (c : BitVec 1) (s : State) : Host.Outcome State Fault Refusal := fieldArrives (beBits c.toNat 1) s

/-- CODE.W2 (R61, R151). -/
def execCodeW2 (c : BitVec 2) (s : State) : Host.Outcome State Fault Refusal := fieldArrives (beBits c.toNat 2) s

/-- CODE.W3 (R61, R151). -/
def execCodeW3 (c : BitVec 3) (s : State) : Host.Outcome State Fault Refusal := fieldArrives (beBits c.toNat 3) s

/-- CODE.W4 (R61, R151). -/
def execCodeW4 (c : BitVec 4) (s : State) : Host.Outcome State Fault Refusal := fieldArrives (beBits c.toNat 4) s

/-- CODE.W5 (R61, R151). -/
def execCodeW5 (c : BitVec 5) (s : State) : Host.Outcome State Fault Refusal := fieldArrives (beBits c.toNat 5) s

/-- CODE.W6 (R61, R151). -/
def execCodeW6 (c : BitVec 6) (s : State) : Host.Outcome State Fault Refusal := fieldArrives (beBits c.toNat 6) s

/-- CODE.W7 (R61, R151). -/
def execCodeW7 (c : BitVec 7) (s : State) : Host.Outcome State Fault Refusal := fieldArrives (beBits c.toNat 7) s

/-- CODE.W8 (R61, R151). -/
def execCodeW8 (c : BitVec 8) (s : State) : Host.Outcome State Fault Refusal := fieldArrives (beBits c.toNat 8) s

/-- CODE.W9 (R61, R151). -/
def execCodeW9 (c : BitVec 9) (s : State) : Host.Outcome State Fault Refusal := fieldArrives (beBits c.toNat 9) s

/-- CODE.W10 (R61, R151). -/
def execCodeW10 (c : BitVec 10) (s : State) : Host.Outcome State Fault Refusal := fieldArrives (beBits c.toNat 10) s

/-- CODE.W11 (R61, R151). -/
def execCodeW11 (c : BitVec 11) (s : State) : Host.Outcome State Fault Refusal := fieldArrives (beBits c.toNat 11) s

/-- CODE.W12 (R61, R151). -/
def execCodeW12 (c : BitVec 12) (s : State) : Host.Outcome State Fault Refusal := fieldArrives (beBits c.toNat 12) s

/-- CODE.W13 (R61, R151). -/
def execCodeW13 (c : BitVec 13) (s : State) : Host.Outcome State Fault Refusal := fieldArrives (beBits c.toNat 13) s

/-- CODE.W14 (R61, R151). -/
def execCodeW14 (c : BitVec 14) (s : State) : Host.Outcome State Fault Refusal := fieldArrives (beBits c.toNat 14) s

/-- CODE.W15 (R61, R151). -/
def execCodeW15 (c : BitVec 15) (s : State) : Host.Outcome State Fault Refusal := fieldArrives (beBits c.toNat 15) s

/-- CODE.W16 (R61, R151). -/
def execCodeW16 (c : BitVec 16) (s : State) : Host.Outcome State Fault Refusal := fieldArrives (beBits c.toNat 16) s

/-- LITERAL (R62, R152). -/
def execLiteral (b : Byte) (s : State) : Host.Outcome State Fault Refusal := fieldArrives (beBits b.toNat Config.litW) s

/-- TAIL.W1: parsed with R151 (R63, R75). -/
def execTailW1 (c : BitVec 1) (s : State) : Host.Outcome State Fault Refusal := fieldArrives (beBits c.toNat 1) s

/-- TAIL.W2: parsed with R151 (R63, R75). -/
def execTailW2 (c : BitVec 2) (s : State) : Host.Outcome State Fault Refusal := fieldArrives (beBits c.toNat 2) s

/-- TAIL.W3: parsed with R151 (R63, R75). -/
def execTailW3 (c : BitVec 3) (s : State) : Host.Outcome State Fault Refusal := fieldArrives (beBits c.toNat 3) s

/-- TAIL.W4: parsed with R151 (R63, R75). -/
def execTailW4 (c : BitVec 4) (s : State) : Host.Outcome State Fault Refusal := fieldArrives (beBits c.toNat 4) s

/-- TAIL.W5: parsed with R151 (R63, R75). -/
def execTailW5 (c : BitVec 5) (s : State) : Host.Outcome State Fault Refusal := fieldArrives (beBits c.toNat 5) s

/-- TAIL.W6: parsed with R151 (R63, R75). -/
def execTailW6 (c : BitVec 6) (s : State) : Host.Outcome State Fault Refusal := fieldArrives (beBits c.toNat 6) s

/-- TAIL.W7: parsed with R151 (R63, R75). -/
def execTailW7 (c : BitVec 7) (s : State) : Host.Outcome State Fault Refusal := fieldArrives (beBits c.toNat 7) s

/-- TAIL.W8: parsed with R151 (R63, R75). -/
def execTailW8 (c : BitVec 8) (s : State) : Host.Outcome State Fault Refusal := fieldArrives (beBits c.toNat 8) s

/-- TAIL.W9: parsed with R151 (R63, R75). -/
def execTailW9 (c : BitVec 9) (s : State) : Host.Outcome State Fault Refusal := fieldArrives (beBits c.toNat 9) s

/-- TAIL.W10: parsed with R151 (R63, R75). -/
def execTailW10 (c : BitVec 10) (s : State) : Host.Outcome State Fault Refusal := fieldArrives (beBits c.toNat 10) s

/-- TAIL.W11: parsed with R151 (R63, R75). -/
def execTailW11 (c : BitVec 11) (s : State) : Host.Outcome State Fault Refusal := fieldArrives (beBits c.toNat 11) s

/-- TAIL.W12: parsed with R151 (R63, R75). -/
def execTailW12 (c : BitVec 12) (s : State) : Host.Outcome State Fault Refusal := fieldArrives (beBits c.toNat 12) s

/-- TAIL.W13: parsed with R151 (R63, R75). -/
def execTailW13 (c : BitVec 13) (s : State) : Host.Outcome State Fault Refusal := fieldArrives (beBits c.toNat 13) s

/-- TAIL.W14: parsed with R151 (R63, R75). -/
def execTailW14 (c : BitVec 14) (s : State) : Host.Outcome State Fault Refusal := fieldArrives (beBits c.toNat 14) s

/-- TAIL.W15: parsed with R151 (R63, R75). -/
def execTailW15 (c : BitVec 15) (s : State) : Host.Outcome State Fault Refusal := fieldArrives (beBits c.toNat 15) s

/-- TAIL.W16: parsed with R151 (R63, R75). -/
def execTailW16 (c : BitVec 16) (s : State) : Host.Outcome State Fault Refusal := fieldArrives (beBits c.toNat 16) s

/-- PAD.W1 (R64, R163). -/
def execPadW1 (s : State) : Host.Outcome State Fault Refusal := fieldArrives (zeros 1) s

/-- PAD.W2 (R64, R163). -/
def execPadW2 (s : State) : Host.Outcome State Fault Refusal := fieldArrives (zeros 2) s

/-- PAD.W3 (R64, R163). -/
def execPadW3 (s : State) : Host.Outcome State Fault Refusal := fieldArrives (zeros 3) s

/-- PAD.W4 (R64, R163). -/
def execPadW4 (s : State) : Host.Outcome State Fault Refusal := fieldArrives (zeros 4) s

/-- PAD.W5 (R64, R163). -/
def execPadW5 (s : State) : Host.Outcome State Fault Refusal := fieldArrives (zeros 5) s

/-- PAD.W6 (R64, R163). -/
def execPadW6 (s : State) : Host.Outcome State Fault Refusal := fieldArrives (zeros 6) s

/-- PAD.W7 (R64, R163). -/
def execPadW7 (s : State) : Host.Outcome State Fault Refusal := fieldArrives (zeros 7) s

end Sys2Proof.Machine
end

