-- ==== Sys2Proof/Machine/Dispatch.lean ====
section
/-! DEFINITION. One arm per instruction, each one direct call of its meaning. -/

namespace Sys2Proof.Machine

open Sys2Proof

def exec (i : Instr) (s : State) : Host.Outcome State Fault Refusal :=
  match i with
  | .cData b => Sys2Proof.Machine.execCData b s
  | .cEndcall => Sys2Proof.Machine.execCEndcall s
  | .cFinalize => Sys2Proof.Machine.execCFinalize s
  | .dData b => Sys2Proof.Machine.execDData b s
  | .dEndcall => Sys2Proof.Machine.execDEndcall s
  | .dFinalize => Sys2Proof.Machine.execDFinalize s
  | .cRsvdEndcallNz d => Sys2Proof.Machine.execCRsvdEndcallNz d s
  | .cRsvdFinalizeNz d => Sys2Proof.Machine.execCRsvdFinalizeNz d s
  | .cRsvdOp3 d => Sys2Proof.Machine.execCRsvdOp3 d s
  | .dRsvdEndcallNz d => Sys2Proof.Machine.execDRsvdEndcallNz d s
  | .dRsvdFinalizeNz d => Sys2Proof.Machine.execDRsvdFinalizeNz d s
  | .dRsvdOp3 d => Sys2Proof.Machine.execDRsvdOp3 d s
  | .codeW0 => Sys2Proof.Machine.execCodeW0 s
  | .codeW1 c => Sys2Proof.Machine.execCodeW1 c s
  | .codeW2 c => Sys2Proof.Machine.execCodeW2 c s
  | .codeW3 c => Sys2Proof.Machine.execCodeW3 c s
  | .codeW4 c => Sys2Proof.Machine.execCodeW4 c s
  | .codeW5 c => Sys2Proof.Machine.execCodeW5 c s
  | .codeW6 c => Sys2Proof.Machine.execCodeW6 c s
  | .codeW7 c => Sys2Proof.Machine.execCodeW7 c s
  | .codeW8 c => Sys2Proof.Machine.execCodeW8 c s
  | .codeW9 c => Sys2Proof.Machine.execCodeW9 c s
  | .codeW10 c => Sys2Proof.Machine.execCodeW10 c s
  | .codeW11 c => Sys2Proof.Machine.execCodeW11 c s
  | .codeW12 c => Sys2Proof.Machine.execCodeW12 c s
  | .codeW13 c => Sys2Proof.Machine.execCodeW13 c s
  | .codeW14 c => Sys2Proof.Machine.execCodeW14 c s
  | .codeW15 c => Sys2Proof.Machine.execCodeW15 c s
  | .codeW16 c => Sys2Proof.Machine.execCodeW16 c s
  | .literal b => Sys2Proof.Machine.execLiteral b s
  | .tailW1 c => Sys2Proof.Machine.execTailW1 c s
  | .tailW2 c => Sys2Proof.Machine.execTailW2 c s
  | .tailW3 c => Sys2Proof.Machine.execTailW3 c s
  | .tailW4 c => Sys2Proof.Machine.execTailW4 c s
  | .tailW5 c => Sys2Proof.Machine.execTailW5 c s
  | .tailW6 c => Sys2Proof.Machine.execTailW6 c s
  | .tailW7 c => Sys2Proof.Machine.execTailW7 c s
  | .tailW8 c => Sys2Proof.Machine.execTailW8 c s
  | .tailW9 c => Sys2Proof.Machine.execTailW9 c s
  | .tailW10 c => Sys2Proof.Machine.execTailW10 c s
  | .tailW11 c => Sys2Proof.Machine.execTailW11 c s
  | .tailW12 c => Sys2Proof.Machine.execTailW12 c s
  | .tailW13 c => Sys2Proof.Machine.execTailW13 c s
  | .tailW14 c => Sys2Proof.Machine.execTailW14 c s
  | .tailW15 c => Sys2Proof.Machine.execTailW15 c s
  | .tailW16 c => Sys2Proof.Machine.execTailW16 c s
  | .padW1 => Sys2Proof.Machine.execPadW1 s
  | .padW2 => Sys2Proof.Machine.execPadW2 s
  | .padW3 => Sys2Proof.Machine.execPadW3 s
  | .padW4 => Sys2Proof.Machine.execPadW4 s
  | .padW5 => Sys2Proof.Machine.execPadW5 s
  | .padW6 => Sys2Proof.Machine.execPadW6 s
  | .padW7 => Sys2Proof.Machine.execPadW7 s

end Sys2Proof.Machine
end

