-- ==== Sys2Proof/Machine/Fetch.lean ====
section
/-! DEFINITION. What the machine does next: the fetch of the host's next event. KLZ78 fetches no program (20_memory.md
R40); the host presents beats on two command ports, resets engines and attaches sinks (70_reset_and_hazards.md R207). The
host presents nothing to an engine that is still inside a beat (R67, R207): its events are held back while the other
engine's go on (R7, R31). Logs 1, 5, 17, 21. -/

namespace Sys2Proof.Machine

/-- The engine an event is for. -/
def HostEvent.port : HostEvent → Port
  | .present w => w.port
  | .reset p => p
  | .attach p _ => p

/-- The session of the engine on a port. -/
def State.sessionAt (s : State) : Port → Session
  | .ce => s.ce.session
  | .de => s.de.session

/-- The first event whose engine is not held inside a beat, and the events left. -/
def pickEvent (s : State) : List HostEvent → Option (HostEvent × List HostEvent)
  | [] => none
  | ev :: rest =>
    if (s.sessionAt ev.port).hung then
      match pickEvent s rest with
      | none => none
      | some (ev', rest') => some (ev', ev :: rest')
    else some (ev, rest)

/-- What the fetch finds. -/
inductive Fetched where
  /-- No event can be presented. -/
  | idle
  /-- An engine's reset is asserted. -/
  | reset (p : Port) (s : State)
  /-- A byte sink is attached. -/
  | attach (p : Port) (k : Sink) (s : State)
  /-- An instruction arrives. -/
  | instr (i : Instr) (s : State)
  /-- What is presented is no instruction. -/
  | undecodable (e : DecodeError)

/-- Fetch: take the next event off the list and, where it is a word, decode it. -/
def fetch (s : State) : Fetched :=
  match pickEvent s s.host with
  | none => .idle
  | some (ev, rest) =>
    let s' := { s with host := rest }
    match ev with
    | .reset p => .reset p s'
    | .attach p k => .attach p k s'
    | .present w =>
      match decode w with
      | .ok i => .instr i s'
      | .error e => .undecodable e

/-- Reset of one engine; the other is untouched (R200). `step` applies it between beats only (log 17); the folds of
Machine/Calls.lean to a held engine too (log 22). -/
def resetEngine (p : Port) (s : State) : State :=
  match p with
  | .ce => { s with ce := s.ce.doReset }
  | .de => { s with de := s.de.doReset }

/-- A byte sink is attached to an engine (R202). -/
def attachSink (p : Port) (k : Sink) (s : State) : State :=
  match p with
  | .ce => { s with ce := { s.ce with session := { s.ce.session with sink := k } } }
  | .de => { s with de := { s.de with session := { s.de.session with sink := k } } }

end Sys2Proof.Machine
end

