-- ==== Sys2Proof/Machine/Step.lean ====
section
/-! DEFINITION. One step: fetch the host's next event and do it. A machine to which nothing is presented does nothing and
keeps all its state (60_exceptions.md R188). -/

namespace Sys2Proof.Machine

open Sys2Proof

/-- One step of the machine. -/
def step (s : State) : Host.Outcome State Fault Refusal :=
  match fetch s with
  | .idle => .next s
  | .reset p s' => .next (resetEngine p s')
  | .attach p k s' => .next (attachSink p k s')
  | .instr i s' => exec i s'
  | .undecodable e => .refused (.undecodable e)

/-- `s` with the word `w` of a table row of `nbits` bits as the first thing the host presents: put at the head of the
pending events, and nothing else changed. Where the bits are no word (`tableWord`), nothing is put. -/
def State.withFetchWord (s : State) (nbits w : Nat) : State :=
  match tableWord nbits w with
  | none => s
  | some e => { s with host := .present e :: s.host }

end Sys2Proof.Machine
end

