-- ==== Sys2Proof/Machine/Calls.lean ====
section
/-! DEFINITION. The call level, the source's own interface, as folds of beats (00_scope.md R8): `write`, `read`, `finalize`
(45_compressor.md R135, R136; 46_decompressor.md R157, R159) and the pseudo-instructions `encode` and `decode`
(30_encoding.md R73). `readChunks` is `read` for any sub-chunk size (R157, R158). Then the session of an engine and the end
of its run (70_reset_and_hazards.md R203). -/

namespace Sys2Proof.Machine

open Sys2Proof

/-- Run instructions one after the other, stopping at the first that has no next state. -/
def execAll : List Instr → State → Host.Outcome State Fault Refusal
  | [], s => .next s
  | i :: rest, s =>
    match exec i s with
    | .next s' => execAll rest s'
    | .fault r => .fault r
    | .refused r => .refused r

/-- The beats of `write(bs)` (R135, R73). -/
def writeBeats (bs : ByteSeq) : List Instr := bs.map .cData ++ [.cEndcall]

/-- The beats of `read(bs)` (R157, R73). -/
def readBeats (bs : ByteSeq) : List Instr := bs.map .dData ++ [.dEndcall]

/-- The beats of a run of `write` calls. -/
def writesBeats : List ByteSeq → List Instr
  | [] => []
  | bs :: rest => writeBeats bs ++ writesBeats rest

/-- The beats of a run of `read` calls. -/
def readsBeats : List ByteSeq → List Instr
  | [] => []
  | bs :: rest => readBeats bs ++ readsBeats rest

/-- `encode x`: reset CE, one `write`, `finalize`; its result is CE.OUT (R73). An engine held inside a beat, whose reset
U17 refuses, is reset too: DESIGN CHOICE, log 22. -/
def encodeRun (x : ByteSeq) (s : State) : Host.Outcome State Fault Refusal :=
  execAll (writeBeats x ++ [.cFinalize]) (resetEngine .ce s)

/-- `decode y`: reset DE, one `read`, `finalize`; its result is DE.OUT (R73). An engine held inside a beat, whose reset U17
refuses, is reset too: DESIGN CHOICE, log 22. -/
def decodeRun (y : ByteSeq) (s : State) : Host.Outcome State Fault Refusal :=
  execAll (readBeats y ++ [.dFinalize]) (resetEngine .de s)

/-- `BSR.PUSH(chunk)`, then `D.DRIVE` (R157). -/
def pushDrive (chunk : ByteSeq) (e : DE) : Res DE Unit := dDrive (bsrPush chunk e)

/-- The body of `read(bs)` with sub-chunks of `size` bytes, the last of which may be shorter; `held` are the bytes of the
sub-chunk being filled (R157). -/
def readChunks (size : Nat) : ByteSeq → ByteSeq → DE → Res DE Unit
  | [], held, e => if held = [] then .ok () e else pushDrive held e
  | b :: rest, held, e =>
    if size ≤ (held ++ [b]).length then
      (pushDrive (held ++ [b]) e).andThen fun _ e1 => readChunks size rest [] e1
    else readChunks size rest (held ++ [b]) e

/-! ### The end of a run (70_reset_and_hazards.md R203) -/

/-- How a run of an engine ends: in a final or in a faulted state (R203). -/
inductive RunEnd where
  /-- FINALIZE has answered `OK`. -/
  | final
  /-- The first `ERR` response has been given. -/
  | faulted
  deriving DecidableEq, Repr

/-- The response is an `ERR` (R70). -/
def Response.isErr : Response → Bool
  | .ok _ => false
  | .err _ _ => true

/-- What the response that the instruction `i` drew from an engine, between the sessions `t` and `u`, ends the run with:
`OK` to FINALIZE, or an `ERR`; `none` where it drew none, or an `OK` to ENDCALL (R203). -/
def responseEnd (i : Instr) (t u : Session) : Option RunEnd :=
  match u.responses.drop t.responses.length with
  | [] => none
  | .ok _ :: _ => if i.finalizes then some .final else none
  | .err _ _ :: _ => some .faulted

/-- Which end the run of an engine has reached, read off its session; `none` while the run goes on, a fault latched by a
DATA beat and not yet answered included. A latched SessionClosed is the trace of an earlier `OK` to FINALIZE (R175): the
run ended there, whatever is answered afterwards (R203). -/
def Session.runEnd (t : Session) : Option RunEnd :=
  if t.fault = .noFault then (if t.closed then some .final else none)
  else if t.fault = .sessionClosed then some .final
  else if t.responses.any Response.isErr then some .faulted
  else none

/-- Run instructions until the run of the engine on port `p` ends: the end and the state in which it is reached, or
`none` and the last state where the instructions run out first, as in a session that is never finalized (R203, U16). -/
def runToEnd (p : Port) : List Instr → State → Host.Outcome (Option RunEnd × State) Fault Refusal
  | [], s => .next (none, s)
  | i :: rest, s =>
    match exec i s with
    | .next s' =>
      match responseEnd i (s.sessionAt p) (s'.sessionAt p) with
      | some r => .next (some r, s')
      | none => runToEnd p rest s'
    | .fault r => .fault r
    | .refused r => .refused r

/-- A session of CE: reset, the `write` calls, one FINALIZE, run to the end (R203). An engine held inside a beat, whose
reset U17 refuses, is reset too: DESIGN CHOICE, log 22. -/
def ceSession (calls : List ByteSeq) (s : State) : Host.Outcome (Option RunEnd × State) Fault Refusal :=
  runToEnd .ce (writesBeats calls ++ [.cFinalize]) (resetEngine .ce s)

/-- A session of DE: reset, the `read` calls, one FINALIZE, run to the end (R203). An engine held inside a beat, whose
reset U17 refuses, is reset too: DESIGN CHOICE, log 22. -/
def deSession (calls : List ByteSeq) (s : State) : Host.Outcome (Option RunEnd × State) Fault Refusal :=
  runToEnd .de (readsBeats calls ++ [.dFinalize]) (resetEngine .de s)

end Sys2Proof.Machine
end

