-- ==== Sys2Proof/Machine/Realise.lean ====
section
/-! DEFINITION. The other permitted realisations of the dictionaries: the trie and the trie-walk form of the compressor's
step (43_encode_dictionary.md R114, 45_compressor.md R138), and the parent-pointer array of the decoder
(44_decode_dictionary.md R124), with the refinement relation each must satisfy (D24). The machine itself uses the abstract
maps (R110, R120); claims relate these forms to it. -/

namespace Sys2Proof.Machine

/-- `child : (Code, byte) -> Code` (R114). -/
abbrev Children := FMap (Code × Byte) Code

/-- An order of trie edges. -/
def edgeLt (x y : Code × Byte) : Bool :=
  decide (x.1.toNat < y.1.toNat) || (decide (x.1 = y.1) && decide (x.2.toNat < y.2.toNat))

/-- CE in trie-walk form: `CE.cur` in place of `CE.pending` and `child` in place of `CE.enc_dict` (R138); `base` holds the
registers R138 leaves as they are. -/
structure TrieCE where
  child : Children
  cur : Code
  base : CE

/-- `C.STEP(b)` in trie-walk form (R138). -/
def trieStep (b : Byte) (t : TrieCE) : Res TrieCE Unit :=
  match FMap.find t.child (t.cur, b) with
  | some n => .ok () { t with cur := n }
  | none =>
    match codeInc t.base.maxCode with
    | none => .raise .codeSpaceExhausted 0 t
    | some m =>
      let child' := FMap.store edgeLt t.child (t.cur, b) m
      match codePrev m with
      | none => .refuse .codePrevOfZero
      | some p =>
        match (bskAppend t.cur.toNat (minBits p) { t.base with maxCode := m }).andThen fun _ e =>
            bskAppend b.toNat Config.litW e with
        | .ok _ e => .ok () { child := child', cur := 0, base := e }
        | .raise c v e => .raise c v { child := child', cur := t.cur, base := e }
        | .hang e => .hang { child := child', cur := t.cur, base := e }
        | .refuse r => .refuse r
        | .fault f => .fault f

/-- The tail part of `C.FINALIZE` in trie-walk form (R138). -/
def trieTail (t : TrieCE) : Res CE Unit :=
  if t.cur = 0 then .ok () t.base else bskAppend t.cur.toNat (minBits t.base.maxCode) t.base

/-- `s` is the sequence of node `p`: ε for the root 0, else the key whose value is `p` (R114). -/
def nodeSeq (d : EncDict) (p : Code) (s : ByteSeq) : Prop :=
  (p = 0 ∧ s = []) ∨ (s ≠ [] ∧ edLookup d s = some p)

/-- The trie holds the dictionary: `child(p, b) = c` exactly when `ED[seq(p) ++ [b]] = c` (R114). -/
def trieHolds (ch : Children) (d : EncDict) : Prop :=
  ∀ p b c, FMap.find ch (p, b) = some c ↔ ∃ s, nodeSeq d p s ∧ edLookup d (s ++ [b]) = some c

/-- The trie-walk form stands for the engine `e`: the same dictionary, `cur` the node of the pending match, every other
register equal (R138). -/
def trieRefines (t : TrieCE) (e : CE) : Prop :=
  trieHolds t.child e.encDict ∧ FMap.rising edgeLt t.child = true ∧ nodeSeq e.encDict t.cur e.pending ∧
    t.base.maxCode = e.maxCode ∧ t.base.bitSink = e.bitSink ∧ t.base.session = e.session

/-- The parent-pointer array: for each code its parent and its last byte (R124). -/
abbrev Parents := FMap Code (Code × Byte)

/-- `expand(c)`, with a bound on the walk; parents strictly decrease, so `c` turns suffice (R124). -/
def expandBy (par : Parents) : Nat → Code → ByteSeq
  | 0, _ => []
  | n + 1, c =>
    if c = 0 then []
    else
      match FMap.find par c with
      | none => []
      | some (p, b) => expandBy par n p ++ [b]

/-- `DD.LOOKUP(c)` in parent-pointer form: presence is `c <= DE.max_code` (R123, R124). -/
def parentLookup (par : Parents) (maxCode c : Code) : Option ByteSeq :=
  if c.toNat ≤ maxCode.toNat then some (expandBy par c.toNat c) else none

/-- The array holds the dictionary: entry `c` is the entry of a smaller code with one byte more (R124). -/
def parentHolds (par : Parents) (d : DecDict) (maxCode : Code) : Prop :=
  ddLookup d 0 = some [] ∧
  ∀ c, 1 ≤ c.toNat → c.toNat ≤ maxCode.toNat →
    ∃ p b t, FMap.find par c = some (p, b) ∧ p.toNat < c.toNat ∧ ddLookup d p = some t ∧ ddLookup d c = some (t ++ [b])

/-- `DD.INSERT` in parent-pointer form: the pair (`DE.last_code`, the literal) (R124). -/
def parentInsert (par : Parents) (c last : Code) (b : Byte) : Parents := FMap.store codeLt par c (last, b)

end Sys2Proof.Machine
end

