-- ==== Sys2Proof/Machine/Parse.lean ====
section
/-! DEFINITION. What the compressed stream is, as a function of the input: the greedy phrase parse of 45_compressor.md
R140, and the number of bits `n` transactions take (30_encoding.md R66). -/

namespace Sys2Proof.Machine

/-- One byte of the greedy parse: the phrases so far, and what is left of the input inside a match (R140). -/
def parseStep (a : List ByteSeq × ByteSeq) (b : Byte) : List ByteSeq × ByteSeq :=
  let q := a.2 ++ [b]
  if q ∈ a.1 then (a.1, q) else (a.1 ++ [q], [])

/-- The phrases `p1 … pn` of an input and its rest `t` (R140). -/
def parsePhrases (x : ByteSeq) : List ByteSeq × ByteSeq := x.foldl parseStep ([], [])

/-- The code of a phrase: its place, counted from 1; 0 for the empty sequence (R140). -/
def phraseCode (ps : List ByteSeq) (p : ByteSeq) : Nat := if p = [] then 0 else ps.idxOf p + 1

/-- The fields of the transactions of the phrases `qs`, the first of which is phrase number `i + 1` of `ps` (R140). -/
def transactionFields (ps : List ByteSeq) : Nat → List ByteSeq → Bits
  | _, [] => []
  | i, q :: qs =>
    beBits (phraseCode ps q.dropLast) (minBits (BitVec.ofNat 16 i)) ++ beBits (q.getLastD 0).toNat Config.litW
      ++ transactionFields ps (i + 1) qs

/-- All fields of the stream of `x`: the transactions, then the tail code if the input ends inside a match (R140). -/
def streamFields (x : ByteSeq) : Bits :=
  let (ps, t) := parsePhrases x
  transactionFields ps 0 ps ++
    (if t = [] then [] else beBits (phraseCode ps t) (minBits (BitVec.ofNat 16 ps.length)))

/-- The compressed stream of `x`: its fields, then the pad (R140, R64). -/
def streamOf (x : ByteSeq) : ByteSeq :=
  pack8 (streamFields x ++ zeros (padLength (streamFields x).length))

/-- `T(n)`, the bits of the first `n` transactions (R66). -/
def transactionBits : Nat → Nat
  | 0 => 0
  | n + 1 => transactionBits n + (Config.litW + minBits (BitVec.ofNat 16 n))

end Sys2Proof.Machine
end

