-- ==== Sys2Proof/Safety.lean ====
section
/-! DEFINITION. What claims about KLZ78 speak of (00_scope.md R9, 70_reset_and_hazards.md R203) and the invariants of the
two engines (10_state.md R18, R29), true after reset and after every beat that raises no fault. -/

namespace Sys2Proof.Machine

/-- The final state of a run, as FINALIZE's `OK` leaves it: `closed = 1`, `fault = None` (R203). -/
def Session.final (t : Session) : Prop := t.closed = true ∧ t.fault = .noFault

/-- The run has ended with its first `ERR` response: a faulted state, never final (R203). A fault latched by a DATA beat
ends no run before it is answered. -/
def Session.faulted (t : Session) : Prop := t.runEnd = some .faulted

/-- An `ERR` has been given only if a fault is latched (R70, R179, R180). -/
def Session.errsFaulted (t : Session) : Prop := t.fault = .noFault → t.responses.any Response.isErr = false

/-- The engine is between beats of a session in which nothing has gone wrong: no fault latched, not held in a beat. -/
def Session.sound (t : Session) : Prop := t.fault = .noFault ∧ t.hung = false

/-- What an IoFailure in a beat that began in the session `t` leaves besides OUT: the fault, its value 0, and
`ERR(IoFailure, 0)` if the beat is an answered one (R171, R179). -/
def Session.failedFrom (t : Session) (answered : Bool) (u : Session) : Prop :=
  u.fault = .ioFailure ∧ u.faultValue = 0 ∧
  u.responses = if answered then t.responses ++ [.err .ioFailure 0] else t.responses

/-- The engine is held in a SinkWrite of a beat that began in the session `t`: no fault, no response, not closed by it
(R208). -/
def Session.heldFrom (t u : Session) : Prop :=
  u.hung = true ∧ u.fault = t.fault ∧ u.faultValue = t.faultValue ∧ u.closed = t.closed ∧ u.responses = t.responses

/-- All but the engine on port `p` is as it was. -/
def sameElsewhere (p : Port) (s t : State) : Prop :=
  t.host = s.host ∧ (p = .ce → t.de = s.de) ∧ (p = .de → t.ce = s.ce)

/-- The engine can take a beat: sound and not closed. -/
def Session.isOpen (t : Session) : Prop := t.sound ∧ t.closed = false

/-- The counts of the `OK` responses added up. -/
def okTotal : List Response → Nat
  | [] => 0
  | .ok n :: rest => n + okTotal rest
  | .err _ _ :: rest => okTotal rest

/-- The counts returned and the count kept add up to the bytes accepted (R17, R28, R137, R160). -/
def Session.counted (t : Session) : Prop :=
  t.fault = .noFault → okTotal t.responses + t.callCount = t.out.length

/-- R18(a): the pending match is empty or a key. -/
def CE.pendingKnown (e : CE) : Prop := e.pending = [] ∨ ∃ c, edLookup e.encDict e.pending = some c

/-- R18(b): the values are exactly `1 .. max_code`, each once, and no key is empty (R13). -/
def CE.codesExact (e : CE) : Prop :=
  (∀ s c, edLookup e.encDict s = some c → s ≠ [] ∧ 1 ≤ c.toNat ∧ c.toNat ≤ e.maxCode.toNat) ∧
  (∀ n, 1 ≤ n → n ≤ e.maxCode.toNat → ∃ s, edLookup e.encDict s = some (BitVec.ofNat 16 n)) ∧
  (∀ s t c, edLookup e.encDict s = some c → edLookup e.encDict t = some c → s = t) ∧
  e.encDict.length = e.maxCode.toNat

/-- R18(c), (d): prefix closure with a smaller code, and a sequence no longer than its code. -/
def CE.prefixClosed (e : CE) : Prop :=
  ∀ s c, edLookup e.encDict s = some c →
    s.length ≤ c.toNat ∧
    (1 < s.length → ∃ c', edLookup e.encDict s.dropLast = some c' ∧ c'.toNat < c.toNat)

/-- R18(e), (f): the Bit Sink is bounded, and OUT and it hold exactly the bits emitted, OUT a whole number of flushes,
until FINALIZE drains it. -/
def CE.bitsExact (e : CE) : Prop :=
  e.bitSink.length ≤ Config.flushBits ∧
  (e.session.closed = false →
    8 * e.session.out.length + e.bitSink.length = transactionBits e.maxCode.toNat ∧ e.session.out.length % 8 = 0) ∧
  (e.session.closed = true → e.bitSink = [])

/-- R18, the whole. -/
def CE.regular (e : CE) : Prop := e.pendingKnown ∧ e.codesExact ∧ e.prefixClosed ∧ e.bitsExact

/-- The invariant of CE: its dictionary in canonical form, and R18 while no fault is latched. -/
def CE.Inv (e : CE) : Prop := edWf e.encDict = true ∧ (e.session.sound → e.regular)

/-- R29(a): the keys are exactly `0 .. max_code`. -/
def DE.keysExact (e : DE) : Prop := ∀ c, (∃ s, ddLookup e.decDict c = some s) ↔ c.toNat ≤ e.maxCode.toNat

/-- R29(b): the seed, and every other entry an earlier one with a byte more, between 1 and `c` bytes long. -/
def DE.entriesGrown (e : DE) : Prop :=
  ddLookup e.decDict 0 = some [] ∧
  ∀ c s, 1 ≤ c.toNat → ddLookup e.decDict c = some s →
    1 ≤ s.length ∧ s.length ≤ c.toNat ∧
    ∃ p b t, p.toNat < c.toNat ∧ ddLookup e.decDict p = some t ∧ s = t ++ [b]

/-- R29(d): driven to a stall, or the reset state before any bits. -/
def DE.atRest (e : DE) : Prop :=
  e.bitSource.length < e.awaitedWidth ∨ (e.maxCode = 0 ∧ e.dstate = .expectingCode ∧ e.bitSource = [])

/-- The sequences of codes `1 .. n`, one after the other. -/
def expansionsTo (d : DecDict) : Nat → ByteSeq
  | 0 => []
  | n + 1 => expansionsTo d n ++ ddExpansion d (BitVec.ofNat 16 (n + 1))

/-- R29(e): OUT is the expansion of each code field and each literal, in order; each transaction writes exactly the entry
it makes (R152). -/
def DE.outExact (e : DE) : Prop :=
  e.session.out = expansionsTo e.decDict e.maxCode.toNat ++
    (match e.dstate with
     | .expectingCode => []
     | .expectingByte => ddExpansion e.decDict e.lastCode)

/-- R29, the whole; (c) is the third part. -/
def DE.regular (e : DE) : Prop :=
  e.keysExact ∧ e.entriesGrown ∧ e.lastCode.toNat ≤ e.maxCode.toNat ∧ e.atRest ∧ e.outExact

/-- The invariant of DE: its dictionary in canonical form, and R29 while no fault is latched. -/
def DE.Inv (e : DE) : Prop := ddWf e.decDict = true ∧ (e.session.sound → e.regular)

/-- The progress steps D.DRIVE makes within `n` turns (R153, R154). -/
def driveSteps : Nat → DE → Nat
  | 0, _ => 0
  | n + 1, e =>
    match dStep e with
    | .ok .progress e1 => driveSteps n e1 + 1
    | _ => 0

/-- Two runs of DE agree in all that is specified: equal states where both end normally, and equal causes, values and
sessions (OUT, count, sink) where both raise; what else a fault leaves is unspecified (R179(e)). -/
def Res.agree : Res DE Unit → Res DE Unit → Prop
  | .ok _ e, .ok _ e' => e = e'
  | .raise c v e, .raise c' v' e' => c = c' ∧ v = v' ∧ e.session = e'.session
  | .hang e, .hang e' => e.session = e'.session
  | _, _ => False

/-- The invariant of the machine. -/
def State.Inv (s : State) : Prop := s.ce.Inv ∧ s.de.Inv

end Sys2Proof.Machine
end

