-- ==== Sys2Proof/Certificates/Slice0/Obligations.lean ====
section
/-! DEFINITION. The statements for the provers, from the spec's numbered rules. Each docstring names the rules it rests on.
None rests on the value of a register left unspecified by a fault (R179(e)) or of the model's own counter `freeIdx`; those
that compare such registers, or say that they are canonical, name the log entry. -/

open Sys2Proof Sys2Proof.Machine

/-! ### Encodings (30_encoding.md) -/

/-- Decoding the encoding of a well-formed instruction gives it back, every operand at every value (R61 to R64, R68,
R69). -/
def Obligations.DecodeUndoesEncode : Prop :=
  ∀ i : Instr, i.wellFormed = true → decode (encode i) = .ok i

/-- What decodes is well formed, and encoding it gives the word back: no bit is dropped and no two words of one port or
field kind decode to one instruction (R61 to R64, R68, R69). -/
def Obligations.EncodeUndoesDecode : Prop :=
  ∀ (e : Encoded) (i : Instr), decode e = .ok i → i.wellFormed = true ∧ encode i = e

/-- Every ten-bit beat is an instruction on either port, by the ranges of R68 and R69. -/
def Obligations.BeatsDecodeByRange : Prop :=
  ∀ w : Beat,
    (w.toNat ≤ 0x0FF → decode (.beat .ce w) = .ok (.cData (w.setWidth 8)) ∧
      decode (.beat .de w) = .ok (.dData (w.setWidth 8))) ∧
    (w.toNat = 0x100 → decode (.beat .ce w) = .ok .cEndcall ∧ decode (.beat .de w) = .ok .dEndcall) ∧
    (0x101 ≤ w.toNat → w.toNat ≤ 0x1FF → decode (.beat .ce w) = .ok (.cRsvdEndcallNz (w.setWidth 8)) ∧
      decode (.beat .de w) = .ok (.dRsvdEndcallNz (w.setWidth 8))) ∧
    (w.toNat = 0x200 → decode (.beat .ce w) = .ok .cFinalize ∧ decode (.beat .de w) = .ok .dFinalize) ∧
    (0x201 ≤ w.toNat → w.toNat ≤ 0x2FF → decode (.beat .ce w) = .ok (.cRsvdFinalizeNz (w.setWidth 8)) ∧
      decode (.beat .de w) = .ok (.dRsvdFinalizeNz (w.setWidth 8))) ∧
    (0x300 ≤ w.toNat → decode (.beat .ce w) = .ok (.cRsvdOp3 (w.setWidth 8)) ∧
      decode (.beat .de w) = .ok (.dRsvdOp3 (w.setWidth 8)))

/-- Words written out from the encodings decode to what they stand for (R61 to R64, R68, R69). -/
def Obligations.WordsOfTheSpecDecode : Prop :=
  decode (.beat .ce 0b00_01100001) = .ok (.cData 0x61) ∧
  decode (.beat .de 0b10_00000000) = .ok .dFinalize ∧
  decode (.beat .ce 0b01_00000001) = .ok (.cRsvdEndcallNz 1) ∧
  decode (.field .code [true, false, false]) = .ok (.codeW3 4) ∧
  decode (.field .literal [false, true, true, false, false, false, false, true]) = .ok (.literal 0x61) ∧
  decode (.field .tail [true, false]) = .ok (.tailW2 2) ∧
  decode (.field .pad [false, false, false, false, false]) = .ok .padW5

/-! ### The step -/

/-- A step runs the instruction that is presented next: what the head of the pending events decodes to, when its
engine is not inside a beat (R67, R68). That what the host does next is a list in the state is the model's choice,
log 1. -/
def Obligations.StepRunsWhatIsPresented : Prop :=
  ∀ (s : State) (e : Encoded) (i : Instr) (rest : List HostEvent),
    s.host = .present e :: rest → decode e = .ok i → i.wellFormed = true → (s.sessionAt e.port).hung = false →
      step s = exec i { s with host := rest }

/-- An engine inside a beat is presented nothing, and the other engine goes on (R7, R67, R207). Holding the events
back is the model's choice, logs 1 and 5. -/
def Obligations.BusyEngineIsHeldBack : Prop :=
  ∀ (s : State) (held : HostEvent) (e : Encoded) (i : Instr) (rest : List HostEvent),
    s.host = held :: .present e :: rest → (s.sessionAt held.port).hung = true → decode e = .ok i →
      (s.sessionAt e.port).hung = false → step s = exec i { s with host := held :: rest }

/-- A machine that receives nothing does nothing and keeps all its state (R188). The list of events is the model's
choice, log 1. -/
def Obligations.NothingPresentedNothingDone : Prop :=
  ∀ s : State, s.host = [] → step s = .next s

/-- Reset values of every piece of state of both engines (R201). The spec marks `max_code` 0 as derived and
`last_code` 0 and the session registers as its own. -/
def Obligations.ResetValues : Prop :=
  State.reset.ce.encDict = [] ∧ State.reset.ce.maxCode = 0 ∧ State.reset.ce.pending = [] ∧
  State.reset.ce.bitSink = [] ∧ State.reset.ce.session.closed = false ∧ State.reset.ce.session.fault = .noFault ∧
  State.reset.ce.session.faultValue = 0 ∧ State.reset.ce.session.callCount = 0 ∧ State.reset.ce.session.out = [] ∧
  State.reset.de.decDict = [(0, [])] ∧ State.reset.de.maxCode = 0 ∧ State.reset.de.lastCode = 0 ∧
  State.reset.de.dstate = .expectingCode ∧ State.reset.de.bitSource = [] ∧
  State.reset.de.session.closed = false ∧ State.reset.de.session.fault = .noFault ∧
  State.reset.de.session.faultValue = 0 ∧ State.reset.de.session.callCount = 0 ∧ State.reset.de.session.out = []

/-- Asserting an engine's reset between beats, in any state of it, closed and faulted among them, puts every register
and memory of that engine to its reset value, keeps the attached sink, and touches neither the other engine nor what
the host does next (R200, R201). That the responses restart and the sink stays is the model's choice, logs 15 and 16;
`n` is the model's own counter, log 18. -/
def Obligations.ResetStartsANewSession : Prop :=
  ∀ (s : State) (rest : List HostEvent),
    (s.host = .reset .ce :: rest → s.ce.session.hung = false →
      ∃ n, step s = .next { ce := CE.fresh s.ce.session.sink n, de := s.de, host := rest }) ∧
    (s.host = .reset .de :: rest → s.de.session.hung = false →
      ∃ n, step s = .next { ce := s.ce, de := DE.fresh s.de.session.sink n, host := rest })

/-! ### Code arithmetic (40_code.md) -/

/-- `min_bits(v)` is 0 for 0, otherwise the index of the highest set bit plus one, which is the least width that holds the
value (R81). -/
def Obligations.MinBitsIsTheHighestSetBit : Prop :=
  ∀ v : Code,
    (v = 0 → minBits v = 0) ∧
    (v ≠ 0 → 1 ≤ minBits v ∧ v.getLsbD (minBits v - 1) = true) ∧
    (∀ j, minBits v ≤ j → v.getLsbD j = false) ∧
    (∀ w, v.toNat < 2 ^ w ↔ minBits v ≤ w) ∧ minBits v ≤ 16

/-- `min_bits` never decreases and grows by one exactly at powers of two; a code not above the running max-code fits its
width (R84). -/
def Obligations.MinBitsGrowsAtPowersOfTwo : Prop :=
  (∀ u v : Code, u.toNat ≤ v.toNat → minBits u ≤ minBits v) ∧
  (∀ v : Code, v.toNat < 65535 →
    ((∃ k, k ≤ 15 ∧ v.toNat + 1 = 2 ^ k) → minBits (v + 1) = minBits v + 1) ∧
    ((∀ k, k ≤ 15 → v.toNat + 1 ≠ 2 ^ k) → minBits (v + 1) = minBits v)) ∧
  (∀ c v : Code, c.toNat ≤ v.toNat → c.toNat < 2 ^ minBits v)

/-- `code_inc` adds one below 65535 and answers nothing (CodeSpaceExhausted) at 65535, never wrapping; `code_prev` takes
one from a code that is at least 1 (R82, R83). -/
def Obligations.CodesNeverWrap : Prop :=
  ∀ c : Code,
    (c.toNat < 65535 → ∃ d, codeInc c = some d ∧ d.toNat = c.toNat + 1) ∧
    (c.toNat = 65535 → codeInc c = none) ∧
    (1 ≤ c.toNat → ∃ d, codePrev c = some d ∧ d.toNat = c.toNat - 1)

/-! ### Bit order (20_memory.md R46) -/

/-- The first bit of a byte on the wire is its bit 7 and the eighth its bit 0; the first bit of a field of width `w` is bit
`w - 1` of its value (R46(a), (b), (c)). -/
def Obligations.WireOrderIsMostSignificantFirst : Prop :=
  (∀ (bs : ByteSeq) (k j : Nat) (b : Byte), bs[k]? = some b → j < 8 →
    (unpack8 bs)[8 * k + j]? = some (b.getLsbD (7 - j))) ∧
  (∀ v w i : Nat, i < w → (beBits v w)[i]? = some (v.testBit (w - 1 - i)))

/-! ### The Bit Sink (41_bit_sink.md) -/

/-- An append that ends normally keeps the stream: what is written and what is held is what was, with the field behind it.
It writes nothing or exactly 8 bytes, the latter exactly when the queue would exceed 64 bits, and touches nothing but the
queue, OUT, the count and the sink. With a sink that accepts it does end normally (R90, R91, R93, R94). -/
def Obligations.AppendKeepsTheStream : Prop :=
  ∀ (v w : Nat) (e : CE), e.bitSink.length ≤ 64 → v < 2 ^ w → w ≤ 16 →
    (e.session.sink.acceptsNext 8 = true → ∃ e', bskAppend v w e = .ok () e') ∧
    (∀ e', bskAppend v w e = .ok () e' →
      unpack8 e'.session.out ++ e'.bitSink = unpack8 e.session.out ++ e.bitSink ++ beBits v w ∧
      (e.bitSink.length + w ≤ 64 → e' = { e with bitSink := e.bitSink ++ beBits v w }) ∧
      (64 < e.bitSink.length + w → e'.bitSink.length = e.bitSink.length + w - 64 ∧
        e'.session.out.length = e.session.out.length + 8 ∧
        e'.session.callCount = e.session.callCount + 8) ∧
      e'.encDict = e.encDict ∧ e'.maxCode = e.maxCode ∧ e'.pending = e.pending ∧
      e'.session.closed = e.session.closed ∧ e'.session.fault = e.session.fault ∧
      e'.session.faultValue = e.session.faultValue ∧ e'.session.responses = e.session.responses)

/-- The drain to a sink that accepts writes exactly the bytes the remaining bits need, the last one padded with zero bits,
and empties the queue (R92, R94, R64). -/
def Obligations.DrainWritesWholeBytes : Prop :=
  ∀ e : CE, e.session.sink.acceptsNext ((e.bitSink.length + 7) / 8) = true →
    ∃ t, bskDrain e = .ok () { e with bitSink := [], session := t } ∧
      unpack8 t.out = unpack8 e.session.out ++ e.bitSink ++ zeros ((8 - e.bitSink.length % 8) % 8) ∧
      t.out.length = e.session.out.length + (e.bitSink.length + 7) / 8 ∧
      t.callCount = e.session.callCount + (e.bitSink.length + 7) / 8 ∧
      t.closed = e.session.closed ∧ t.fault = e.session.fault ∧ t.faultValue = e.session.faultValue ∧
      t.responses = e.session.responses

/-! ### The byte sink (20_memory.md R44) -/

/-- SinkWrite offers the bytes in order: all are accepted and counted; or the first that is failed, or never
answered, ends it with exactly the earlier ones accepted (R44, R171, R208). How a sink's answers are held is the
model's choice, log 4. -/
def Obligations.SinkWriteStopsAtTheFirstFailure : Prop :=
  ∀ (bs : ByteSeq) (t : Session) (k : Nat), t.sink.acceptsNext k = true →
    (k = bs.length → ∃ u, t.sinkWrite bs = (.done, u) ∧ u = t.acceptAll bs) ∧
    (k < bs.length → (t.sink.after k).answer = .fail → ∃ u, t.sinkWrite bs = (.failed, u) ∧
      u.out = t.out ++ bs.take k ∧ u.callCount = t.callCount + k ∧
      u.closed = t.closed ∧ u.fault = t.fault ∧ u.responses = t.responses) ∧
    (k < bs.length → (t.sink.after k).answer = .silent → ∃ u, t.sinkWrite bs = (.silent, u) ∧
      u.out = t.out ++ bs.take k ∧ u.callCount = t.callCount + k ∧
      u.closed = t.closed ∧ u.fault = t.fault ∧ u.responses = t.responses)

/-! ### The Bit Source (42_bit_source.md) -/

/-- BSR.TAKE answers Incomplete and changes nothing while the queue is shorter than the field; otherwise it removes exactly
the field's bits and answers the integer they spell, most significant first (R101, R104). -/
def Obligations.TakeRemovesOneWholeField : Prop :=
  ∀ (w : Nat) (e : DE),
    (e.bitSource.length < w → bsrTake w e = (.incomplete w, e)) ∧
    (w ≤ e.bitSource.length → ∃ v q, bsrTake w e = (.value v, { e with bitSource := q }) ∧ v < 2 ^ w ∧
      e.bitSource = beBits v w ++ q)

/-- Bits pushed join the queue behind those already there, each byte most significant bit first, and nothing else changes
(R100). -/
def Obligations.PushAppendsTheBytes : Prop :=
  ∀ (bs : ByteSeq) (e : DE), bsrPush bs e = { e with bitSource := e.bitSource ++ unpack8 bs }

/-! ### The compressor's beats (45_compressor.md) -/

/-- C.DATA on a byte that extends a known sequence changes `pending` and nothing else, whatever `max_code` is (R130, R132). -/
def Obligations.MatchedByteOnlyGrowsPending : Prop :=
  ∀ (b : Byte) (s : State) (c : Code), s.ce.session.isOpen → edLookup s.ce.encDict (s.ce.pending ++ [b]) = some c →
    exec (.cData b) s = .next { s with ce := { s.ce with pending := s.ce.pending ++ [b] } }

/-- C.DATA on a byte that makes a new sequence, below the end of the code space and with a sink that accepts: the code is
minted and inserted, the prefix's code goes out at the width of the max-code before the mint, then the literal; 8 bytes are
written exactly when the queue would exceed 64 bits; everything else is as it was (R130, R131, R132, R93). -/
def Obligations.NewSequenceEmitsATransaction : Prop :=
  ∀ (b : Byte) (s : State), s.ce.session.isOpen → s.ce.regular → s.ce.maxCode.toNat < 65535 →
    edLookup s.ce.encDict (s.ce.pending ++ [b]) = none → s.ce.session.sink.acceptsNext 8 = true →
    ∃ t, exec (.cData b) s = .next t ∧
      t.ce.maxCode.toNat = s.ce.maxCode.toNat + 1 ∧
      (∀ q, edLookup t.ce.encDict q = if q = s.ce.pending ++ [b] then some t.ce.maxCode else edLookup s.ce.encDict q) ∧
      t.ce.pending = [] ∧
      (∃ c : Code, ((s.ce.pending = [] ∧ c = 0) ∨ (s.ce.pending ≠ [] ∧ edLookup s.ce.encDict s.ce.pending = some c)) ∧
        unpack8 t.ce.session.out ++ t.ce.bitSink =
          unpack8 s.ce.session.out ++ s.ce.bitSink ++ beBits c.toNat (minBits s.ce.maxCode) ++ beBits b.toNat 8) ∧
      (s.ce.bitSink.length + minBits s.ce.maxCode + 8 ≤ 64 → t.ce.session.out = s.ce.session.out) ∧
      (64 < s.ce.bitSink.length + minBits s.ce.maxCode + 8 →
        t.ce.session.out.length = s.ce.session.out.length + 8) ∧
      t.ce.session.callCount + s.ce.session.out.length = s.ce.session.callCount + t.ce.session.out.length ∧
      t.ce.bitSink.length ≤ 64 ∧
      t.ce.session.closed = false ∧ t.ce.session.fault = .noFault ∧
      t.ce.session.faultValue = s.ce.session.faultValue ∧ t.ce.session.responses = s.ce.session.responses ∧
      t.ce.session.hung = false ∧ t.de = s.de ∧ t.host = s.host

/-- C.DATA on a byte that makes a new sequence at `max_code = 65535` latches CodeSpaceExhausted with value 0 and writes
nothing; DATA gets no response (R82, R130, R174). -/
def Obligations.NewSequenceAtTheTopFaults : Prop :=
  ∀ (b : Byte) (s : State), s.ce.session.isOpen → s.ce.maxCode.toNat = 65535 →
    edLookup s.ce.encDict (s.ce.pending ++ [b]) = none →
    ∃ t, exec (.cData b) s = .next t ∧ t.ce.session.fault = .codeSpaceExhausted ∧ t.ce.session.faultValue = 0 ∧
      t.ce.session.out = s.ce.session.out ∧ t.ce.session.responses = s.ce.session.responses ∧
      t.de = s.de ∧ t.host = s.host

/-- C.ENDCALL answers OK with the count, clears it, and changes nothing else: it neither flushes nor pads (R133, R53). -/
def Obligations.EndcallAnswersAndFlushesNothing : Prop :=
  ∀ s : State,
    s.ce.session.isOpen →
      exec .cEndcall s = .next { s with ce := { s.ce with session := { s.ce.session with
        callCount := 0, responses := s.ce.session.responses ++ [.ok s.ce.session.callCount] } } }

/-- C.FINALIZE with a sink that accepts: the tail code of a pending match at the width of the current max-code, then the
remaining bits padded with zeros to whole bytes; closed; OK with every byte since the last response; the dictionary and
`pending` are left (R134, R92, D14). -/
def Obligations.FinalizeWritesTailAndPad : Prop :=
  ∀ s : State, s.ce.session.isOpen → s.ce.regular → s.ce.session.sink.acceptsNext 16 = true →
    ∃ t, exec .cFinalize s = .next t ∧
      (∃ tail : Bits,
        ((s.ce.pending = [] ∧ tail = []) ∨
         (s.ce.pending ≠ [] ∧ ∃ c, edLookup s.ce.encDict s.ce.pending = some c ∧ 1 ≤ c.toNat ∧
            tail = beBits c.toNat (minBits s.ce.maxCode))) ∧
        unpack8 t.ce.session.out = unpack8 s.ce.session.out ++ s.ce.bitSink ++ tail ++
          zeros ((8 - (s.ce.bitSink ++ tail).length % 8) % 8)) ∧
      t.ce.bitSink = [] ∧ t.ce.session.closed = true ∧ t.ce.session.callCount = 0 ∧
      t.ce.session.responses = s.ce.session.responses ++
        [.ok (s.ce.session.callCount + (t.ce.session.out.length - s.ce.session.out.length))] ∧
      t.ce.pending = s.ce.pending ∧ t.ce.encDict = s.ce.encDict ∧ t.ce.maxCode = s.ce.maxCode ∧
      t.ce.session.fault = .noFault ∧ t.ce.session.faultValue = s.ce.session.faultValue ∧
      t.ce.session.hung = false ∧ t.de = s.de ∧ t.host = s.host

/-- A byte sink that fails a byte after accepting `k` makes any instruction of either engine that would write more latch
IoFailure with value 0, answered with ERR(IoFailure, 0) where the beat is an answered one; OUT has exactly the first `k` of
the bytes a sink that accepts would have got. Then, byte by byte: the flush of C.DATA, the flush and the drain of
C.FINALIZE, the expansion of a CODE or TAIL field, a LITERAL (R171, R179, R44, R50). A field as an instruction is the
model's choice, log 3; how a sink's answers are held, log 4. -/
def Obligations.SinkFailureLatchesIoFailure : Prop :=
  (∀ (i : Instr) (s t : State) (x : ByteSeq) (k : Nat),
    exec i (attachSink i.port Sink.accepting s) = .next t →
    (t.sessionAt i.port).out = (s.sessionAt i.port).out ++ x → k < x.length →
    (s.sessionAt i.port).sink.acceptsNext k = true → ((s.sessionAt i.port).sink.after k).answer = .fail →
    ∃ u, exec i s = .next u ∧ (s.sessionAt i.port).failedFrom i.answered (u.sessionAt i.port) ∧
      (u.sessionAt i.port).out = (s.sessionAt i.port).out ++ x.take k ∧ sameElsewhere i.port s u) ∧
  (∀ (s : State) (b : Byte) (k : Nat), s.ce.session.isOpen → s.ce.regular → s.ce.maxCode.toNat < 65535 →
    edLookup s.ce.encDict (s.ce.pending ++ [b]) = none →
    64 < s.ce.bitSink.length + minBits s.ce.maxCode + 8 → k < 8 →
    s.ce.session.sink.acceptsNext k = true → (s.ce.session.sink.after k).answer = .fail →
    ∃ t, exec (.cData b) s = .next t ∧ s.ce.session.failedFrom false t.ce.session ∧
      (∃ c : Code, ((s.ce.pending = [] ∧ c = 0) ∨ (s.ce.pending ≠ [] ∧ edLookup s.ce.encDict s.ce.pending = some c)) ∧
        unpack8 t.ce.session.out = unpack8 s.ce.session.out ++
          (s.ce.bitSink ++ beBits c.toNat (minBits s.ce.maxCode) ++ beBits b.toNat 8).take (8 * k)) ∧
      sameElsewhere .ce s t) ∧
  (∀ (s : State) (k : Nat), s.ce.session.isOpen → s.ce.regular →
    8 * k < s.ce.bitSink.length + (if s.ce.pending = [] then 0 else minBits s.ce.maxCode) →
    s.ce.session.sink.acceptsNext k = true → (s.ce.session.sink.after k).answer = .fail →
    ∃ t, exec .cFinalize s = .next t ∧ s.ce.session.failedFrom true t.ce.session ∧
      (∃ tail : Bits,
        ((s.ce.pending = [] ∧ tail = []) ∨
         (s.ce.pending ≠ [] ∧ ∃ c, edLookup s.ce.encDict s.ce.pending = some c ∧
            tail = beBits c.toNat (minBits s.ce.maxCode))) ∧
        unpack8 t.ce.session.out = unpack8 s.ce.session.out ++
          (s.ce.bitSink ++ tail ++ zeros ((8 - (s.ce.bitSink ++ tail).length % 8) % 8)).take (8 * k)) ∧
      sameElsewhere .ce s t) ∧
  (∀ (i : Instr) (w v : Nat) (s : State) (seq : ByteSeq) (k : Nat),
    i.codeField = some (w, v) → s.de.session.isOpen → s.de.dstate = .expectingCode → s.de.bitSource = [] →
    minBits s.de.maxCode = w → ddLookup s.de.decDict (BitVec.ofNat 16 v) = some seq → k < seq.length →
    s.de.session.sink.acceptsNext k = true → (s.de.session.sink.after k).answer = .fail →
    ∃ t, exec i s = .next t ∧ s.de.session.failedFrom false t.de.session ∧
      t.de.session.out = s.de.session.out ++ seq.take k ∧ sameElsewhere .de s t) ∧
  (∀ (s : State) (b : Byte), s.de.session.isOpen → s.de.dstate = .expectingByte → s.de.bitSource = [] →
    s.de.maxCode.toNat < 65535 → s.de.session.sink.answer = .fail →
    ∃ t, exec (.literal b) s = .next t ∧ s.de.session.failedFrom false t.de.session ∧
      t.de.session.out = s.de.session.out ∧ sameElsewhere .de s t)

/-- A byte sink that never answers, after accepting `k` bytes, holds the engine inside the beat, whichever instruction of
whichever engine it is in: OUT has exactly the first `k` of the bytes a sink that accepts would have got, they are counted,
and there is no response, no fault and no close; the second part says it of C.FINALIZE with nothing accepted. The host has
no move on a held engine (R208, R67, U14). The mark `hung` and the refusal are the model's choice, log 5. -/
def Obligations.SilentSinkHoldsTheEngine : Prop :=
  (∀ (i : Instr) (s t : State) (x : ByteSeq) (k : Nat),
    exec i (attachSink i.port Sink.accepting s) = .next t →
    (t.sessionAt i.port).out = (s.sessionAt i.port).out ++ x → k < x.length →
    (s.sessionAt i.port).sink.acceptsNext k = true → ((s.sessionAt i.port).sink.after k).answer = .silent →
    ∃ u, exec i s = .next u ∧ (s.sessionAt i.port).heldFrom (u.sessionAt i.port) ∧
      (u.sessionAt i.port).out = (s.sessionAt i.port).out ++ x.take k ∧
      (u.sessionAt i.port).callCount = (s.sessionAt i.port).callCount + k ∧ sameElsewhere i.port s u) ∧
  (∀ s : State, s.ce.session.isOpen → s.ce.regular → (s.ce.pending ≠ [] ∨ s.ce.bitSink ≠ []) →
    s.ce.session.sink.answer = .silent →
    ∃ t, exec .cFinalize s = .next t ∧ s.ce.session.heldFrom t.ce.session ∧
      t.ce.session.out = s.ce.session.out ∧ sameElsewhere .ce s t) ∧
  (∀ (s : State) (i : Instr), (s.sessionAt i.port).hung = true → exec i s = .refused (.engineBusy i.port))

/-! ### The gate (60_exceptions.md), every instruction of both engines -/

/-- While a fault is latched an instruction of that engine changes nothing, but for the repeated ERR of an answered
beat: DATA beats and arriving fields are ignored (R180). The fault is tested before `closed`. That a field passes the
gate of a DATA beat is the model's choice, log 3. -/
def Obligations.FaultedEngineOnlyRepeatsItsFault : Prop :=
  ∀ (i : Instr) (s : State),
    (i.port = .ce → s.ce.session.hung = false → s.ce.session.fault ≠ .noFault →
      exec i s = .next { s with ce := { s.ce with session := { s.ce.session with
        responses := if i.answered then
            s.ce.session.responses ++ [.err s.ce.session.fault s.ce.session.faultValue]
          else s.ce.session.responses } } }) ∧
    (i.port = .de → s.de.session.hung = false → s.de.session.fault ≠ .noFault →
      exec i s = .next { s with de := { s.de with session := { s.de.session with
        responses := if i.answered then
            s.de.session.responses ++ [.err s.de.session.fault s.de.session.faultValue]
          else s.de.session.responses } } })

/-- Any instruction of an engine that is closed and has no fault raises SessionClosed and changes nothing else,
reserved beats among them; ERR(SessionClosed, 0) if the beat is one that gets a response (R175, R178). Taking R175's
"changes nothing else" before R179(e) is deduced, log 7; a field passing the gate of a DATA beat is the model's
choice, log 3. -/
def Obligations.ClosedEngineRaisesSessionClosed : Prop :=
  ∀ (i : Instr) (s : State),
    (i.port = .ce → s.ce.session.hung = false → s.ce.session.fault = .noFault → s.ce.session.closed = true →
      exec i s = .next { s with ce := { s.ce with session := { s.ce.session with
        fault := .sessionClosed, faultValue := 0,
        responses := if i.answered then s.ce.session.responses ++ [.err .sessionClosed 0]
          else s.ce.session.responses } } }) ∧
    (i.port = .de → s.de.session.hung = false → s.de.session.fault = .noFault → s.de.session.closed = true →
      exec i s = .next { s with de := { s.de with session := { s.de.session with
        fault := .sessionClosed, faultValue := 0,
        responses := if i.answered then s.de.session.responses ++ [.err .sessionClosed 0]
          else s.de.session.responses } } })

/-- A reserved beat on an engine with no fault and not closed latches ReservedCommand with value 0, answers
ERR(ReservedCommand, 0) at once, and changes nothing else (R69, R176). Taking R176's "changes nothing else" before
R179(e) is deduced, log 7. -/
def Obligations.ReservedBeatsRaiseReservedCommand : Prop :=
  ∀ (s : State) (d : Byte),
    (s.ce.session.isOpen →
      ∃ t, t = { s with ce := { s.ce with session := { s.ce.session with
          fault := .reservedCommand, faultValue := 0,
          responses := s.ce.session.responses ++ [.err .reservedCommand 0] } } } ∧
        exec (.cRsvdEndcallNz d) s = .next t ∧ exec (.cRsvdFinalizeNz d) s = .next t ∧ exec (.cRsvdOp3 d) s = .next t) ∧
    (s.de.session.isOpen →
      ∃ t, t = { s with de := { s.de with session := { s.de.session with
          fault := .reservedCommand, faultValue := 0,
          responses := s.de.session.responses ++ [.err .reservedCommand 0] } } } ∧
        exec (.dRsvdEndcallNz d) s = .next t ∧ exec (.dRsvdFinalizeNz d) s = .next t ∧ exec (.dRsvdOp3 d) s = .next t)

/-- The numbers a host reads: the causes 0 to 5 as the table gives them, none being 6 or 7 (R170, R172); `dstate` 0 and 1
(D7); in a response word `err` 0 with the count, or `err` 1 with the cause and the value (R70); and in the status view of
each engine `closed`, `fault`, `fault_value`, `call_count`, and for DE `dstate` (R30). -/
def Obligations.NumbersResponsesAndStatusRead : Prop :=
  (Cause.noFault.number = 0 ∧ Cause.ioFailure.number = 1 ∧ Cause.badCode.number = 2 ∧
    Cause.codeSpaceExhausted.number = 3 ∧ Cause.sessionClosed.number = 4 ∧ Cause.reservedCommand.number = 5 ∧
    ∀ c : Cause, c.number ≠ 6 ∧ c.number ≠ 7) ∧
  (DState.expectingCode.number = 0 ∧ DState.expectingByte.number = 1) ∧
  (∀ n : Nat, (Response.ok n).word.err = 0 ∧ (Response.ok n).word.count = n) ∧
  (∀ (c : Cause) (v : BitVec 16), (Response.err c v).word.err = 1 ∧ (Response.err c v).word.cause = c.number ∧
    (Response.err c v).word.value = v) ∧
  (∀ e : CE, (e.status.closed = 1 ↔ e.session.closed = true) ∧ (e.status.closed = 0 ↔ e.session.closed = false) ∧
    e.status.fault = e.session.fault.number ∧ e.status.faultValue = e.session.faultValue ∧
    e.status.callCount = e.session.callCount) ∧
  (∀ e : DE, (e.status.closed = 1 ↔ e.session.closed = true) ∧ (e.status.closed = 0 ↔ e.session.closed = false) ∧
    e.status.fault = e.session.fault.number ∧ e.status.faultValue = e.session.faultValue ∧
    e.status.callCount = e.session.callCount ∧ e.status.dstate = some e.dstate.number)

/-- `closed` is never cleared by an instruction (R15, R26). The run of an engine ends at the first of the `OK` to its
FINALIZE and its first ERR response, whichever instruction draws it, and keeps that end until reset: a fault latched
by a DATA beat ends nothing before it is answered, and SessionClosed after the end changes nothing of it. Running any
instructions from reset to the end reaches the end that the session shows, `none` where the run has not ended (R203).
The premise is that an ERR has been given only if a fault is latched, which every instruction keeps. That a reset
empties the record of responses, on which the last part rests, is the model's choice, log 15; that SessionClosed
leaves `closed` as it is, is deduced from R175 against R179(e), log 7. That the reset is applied to an engine held
inside a beat too is the model's choice, log 22. -/
def Obligations.ClosedAndTheEndOfARunAreSticky : Prop :=
  (∀ (i : Instr) (s t : State), exec i s = .next t →
    (s.ce.session.closed = true → t.ce.session.closed = true) ∧
    (s.de.session.closed = true → t.de.session.closed = true)) ∧
  (∀ (p : Port) (i : Instr) (s t : State), exec i s = .next t → (s.sessionAt p).errsFaulted →
    (t.sessionAt p).errsFaulted ∧
    ((s.sessionAt p).runEnd = none →
      (t.sessionAt p).runEnd = responseEnd i (s.sessionAt p) (t.sessionAt p)) ∧
    (∀ r, (s.sessionAt p).runEnd = some r → (t.sessionAt p).runEnd = some r)) ∧
  (∀ (p : Port) (l : List Instr) (s t : State) (r : Option RunEnd),
    runToEnd p l (resetEngine p s) = .next (r, t) → (t.sessionAt p).runEnd = r)

/-- OUT is append-only: no instruction takes back or alters an accepted byte, faulting or not (R44, R179). -/
def Obligations.OutIsAppendOnly : Prop :=
  ∀ (i : Instr) (s t : State), exec i s = .next t →
    ∃ x y, t.ce.session.out = s.ce.session.out ++ x ∧ t.de.session.out = s.de.session.out ++ y

/-- The running max-code of an engine is never decreased while no fault is latched (R11, R21). -/
def Obligations.MaxCodeNeverDecreases : Prop :=
  ∀ (i : Instr) (s t : State), exec i s = .next t →
    (t.ce.session.fault = .noFault → s.ce.maxCode.toNat ≤ t.ce.maxCode.toNat) ∧
    (t.de.session.fault = .noFault → s.de.maxCode.toNat ≤ t.de.maxCode.toNat)

/-! ### The two engines apart (10_state.md R31) -/

/-- An instruction of one engine leaves every register, memory and stream of the other, and what the host does next, as
they are (R31, R189). -/
def Obligations.EnginesShareNothing : Prop :=
  ∀ (i : Instr) (s t : State), exec i s = .next t →
    t.host = s.host ∧ (i.port = .ce → t.de = s.de) ∧ (i.port = .de → t.ce = s.ce)

/-- What an instruction does to its engine depends on nothing outside that engine: two states that differ only in the
other engine and in the host give the same (R31, R7). After a fault that leaves registers unspecified (R179(e)) it
compares these too: that they are the same in both runs rests on the model's free values, a function of the engine's
own counter, logs 6 and 18, and is no claim about the hardware. -/
def Obligations.EngineSeesOnlyItself : Prop :=
  ∀ (i : Instr) (s s' t : State), exec i s = .next t →
    (i.port = .ce → s'.ce = s.ce → ∃ t', exec i s' = .next t' ∧ t'.ce = t.ce) ∧
    (i.port = .de → s'.de = s.de → ∃ t', exec i s' = .next t' ∧ t'.de = t.de)

/-! ### Invariants every step keeps -/

/-- Both dictionaries stay in canonical form, in every state, a faulted one too (20_memory.md R41, R42; the form is
the model's, log 10). After a fault the dictionary is a free value in that form, log 6. -/
def Obligations.StepKeepsMemoryCanonical : Prop :=
  ∀ s t : State, Memory.wf s = true → step s = .next t → Memory.wf t = true

/-- R18, the invariants of CE: the pending match is known, codes are exactly `1 .. max_code`, the keys are prefix
closed, the Bit Sink is bounded, and OUT and it hold exactly the bits of the fields emitted. The canonical form is
the model's, log 10, and after a fault that of a free value, log 6. -/
def Obligations.StepKeepsTheCompressorInvariant : Prop :=
  ∀ s t : State, s.ce.Inv → step s = .next t → t.ce.Inv

/-- R29, the invariants of DE: the keys are exactly `0 .. max_code`, each entry an earlier one with one byte more,
`last_code` is present, the state machine has stalled, and OUT is what the fields expand to. The canonical form is
the model's, log 10, and after a fault that of a free value, log 6. -/
def Obligations.StepKeepsTheDecompressorInvariant : Prop :=
  ∀ s t : State, s.de.Inv → step s = .next t → t.de.Inv

/-- The invariants hold after reset (R18, R29). -/
def Obligations.ResetMeetsTheInvariants : Prop :=
  State.reset.Inv

/-- The counts answered and the count kept add up to the bytes in OUT, in both engines, across every step, a reset among
them (R17, R28, R137, R160). That a reset empties the record of the responses as it does OUT is the model's choice, log 15. -/
def Obligations.StepKeepsTheCountsAddingUp : Prop :=
  ∀ s t : State, s.ce.session.counted → s.de.session.counted → step s = .next t →
    t.ce.session.counted ∧ t.de.session.counted

/-! ### The decompressor's beats and fields (46_decompressor.md) -/

/-- D.ENDCALL answers OK with the count and clears it, and does not drive; D.FINALIZE also closes, and parses and writes
nothing, whatever bits are left; nothing else changes (R155, R156). -/
def Obligations.DecoderCallsEndWithTheCount : Prop :=
  ∀ s : State, s.de.session.isOpen →
    exec .dEndcall s = .next { s with de := { s.de with session := { s.de.session with
      callCount := 0, responses := s.de.session.responses ++ [.ok s.de.session.callCount] } } } ∧
    exec .dFinalize s = .next { s with de := { s.de with session := { s.de.session with
      closed := true, callCount := 0,
      responses := s.de.session.responses ++ [.ok s.de.session.callCount] } } }

/-- A CODE or TAIL field of the awaited width with an entry in the dictionary: its expansion is written in order, it
is recorded, the decoder awaits a literal, and nothing else changes. Holds of every CODE and TAIL row (R150, R151,
R75). A field as an instruction is the model's choice, log 3. -/
def Obligations.CodeFieldWritesItsExpansion : Prop :=
  ∀ (i : Instr) (w v : Nat) (s : State) (seq : ByteSeq),
    i.codeField = some (w, v) → s.de.session.isOpen → s.de.dstate = .expectingCode → s.de.bitSource = [] →
    minBits s.de.maxCode = w → ddLookup s.de.decDict (BitVec.ofNat 16 v) = some seq →
    s.de.session.sink.acceptsNext seq.length = true →
    exec i s = .next { s with de := { s.de with
      lastCode := BitVec.ofNat 16 v, dstate := .expectingByte, session := s.de.session.acceptAll seq } }

/-- A CODE or TAIL field of the awaited width without an entry latches BadCode with the value read; no byte is
written and a field gets no response (R151, R173, R71). A field as an instruction is the model's choice, log 3. -/
def Obligations.CodeFieldWithoutEntryIsBadCode : Prop :=
  ∀ (i : Instr) (w v : Nat) (s : State),
    i.codeField = some (w, v) → s.de.session.isOpen → s.de.dstate = .expectingCode → s.de.bitSource = [] →
    minBits s.de.maxCode = w → ddLookup s.de.decDict (BitVec.ofNat 16 v) = none →
    ∃ t, exec i s = .next t ∧ t.de.session.fault = .badCode ∧ t.de.session.faultValue = BitVec.ofNat 16 v ∧
      t.de.session.out = s.de.session.out ∧ t.de.session.responses = s.de.session.responses ∧
      t.ce = s.ce ∧ t.host = s.host

/-- At the moment D.CODE raises BadCode the field's bits have been consumed, the value raised is the field's, nothing has
been written, and every other register is as before the field (R151, R173). -/
def Obligations.BadCodeConsumesOnlyItsBits : Prop :=
  ∀ (e e' : DE) (v : BitVec 16), dCode e = .raise .badCode v e' →
    minBits e.maxCode ≤ e.bitSource.length ∧
    e.bitSource = beBits v.toNat (minBits e.maxCode) ++ e'.bitSource ∧
    ddLookup e.decDict v = none ∧ e' = { e with bitSource := e'.bitSource }

/-- BadCode happens exactly when the value of the whole field exceeds `max_code`, and never when `max_code + 1` is a power
of two. The premise is R29(a) (R162). -/
def Obligations.BadCodeExactlyAboveMaxCode : Prop :=
  ∀ e : DE, e.keysExact → minBits e.maxCode ≤ e.bitSource.length →
    ((∃ v e', dCode e = .raise .badCode v e') ↔
      e.maxCode.toNat < beVal (e.bitSource.take (minBits e.maxCode))) ∧
    ((∃ k, e.maxCode.toNat + 1 = 2 ^ k) → ∀ v e', dCode e ≠ .raise .badCode v e')

/-- A LITERAL in a decoder that awaits one: `max_code` grows by one, the sequence of the last code with this byte
behind it is its entry, the byte is written, the decoder awaits a code, and nothing else changes (R152). A field as
an instruction is the model's choice, log 3. -/
def Obligations.LiteralMintsTheNextEntry : Prop :=
  ∀ (b : Byte) (s : State) (last : ByteSeq),
    s.de.session.isOpen → s.de.dstate = .expectingByte → s.de.bitSource = [] → s.de.maxCode.toNat < 65535 →
    ddLookup s.de.decDict s.de.lastCode = some last → s.de.session.sink.acceptsNext 1 = true →
    ∃ t, exec (.literal b) s = .next t ∧
      t.de.maxCode.toNat = s.de.maxCode.toNat + 1 ∧
      (∀ c, ddLookup t.de.decDict c = if c = t.de.maxCode then some (last ++ [b]) else ddLookup s.de.decDict c) ∧
      t.de.session = s.de.session.acceptAll [b] ∧ t.de.dstate = .expectingCode ∧
      t.de.lastCode = s.de.lastCode ∧ t.de.bitSource = [] ∧ t.ce = s.ce ∧ t.host = s.host

/-- A literal at `max_code = 65535` latches CodeSpaceExhausted with value 0; the literal is not written (R152, R174).
A field as an instruction is the model's choice, log 3. -/
def Obligations.LiteralAtTheTopFaults : Prop :=
  ∀ (b : Byte) (s : State),
    s.de.session.isOpen → s.de.dstate = .expectingByte → s.de.bitSource = [] → s.de.maxCode.toNat = 65535 →
    ∃ t, exec (.literal b) s = .next t ∧ t.de.session.fault = .codeSpaceExhausted ∧ t.de.session.faultValue = 0 ∧
      t.de.session.out = s.de.session.out ∧ t.de.session.responses = s.de.session.responses ∧
      t.ce = s.ce ∧ t.host = s.host

/-- A PAD after the last field writes nothing and raises nothing: the bits stay where DE awaits more, and otherwise a
code field 0 is taken from them, after which DE stalls in ExpectingByte. The premise on entry 0 is R29(b) (R163,
R64). A field as an instruction is the model's choice, log 3. -/
def Obligations.PadWritesNothing : Prop :=
  ∀ (i : Instr) (bits : Bits) (s : State),
    encode i = .field .pad bits → s.de.session.isOpen → s.de.bitSource = [] → ddLookup s.de.decDict 0 = some [] →
    ((s.de.dstate = .expectingByte ∨ bits.length < minBits s.de.maxCode) →
      exec i s = .next { s with de := { s.de with bitSource := bits } }) ∧
    ((s.de.dstate = .expectingCode ∧ minBits s.de.maxCode ≤ bits.length) →
      exec i s = .next { s with de := { s.de with
        lastCode := 0, dstate := .expectingByte, bitSource := bits.drop (minBits s.de.maxCode) } })

/-- D.DATA while the awaited field is still short of bits: the eight bits join the queue, most significant first, and
nothing else changes (R100, R154). Driving after every byte is the spec's default, log 8. -/
def Obligations.DataShortOfAFieldOnlyBuffers : Prop :=
  ∀ (b : Byte) (s : State), s.de.session.isOpen → s.de.bitSource.length + 8 < s.de.awaitedWidth →
    exec (.dData b) s = .next { s with de := { s.de with bitSource := s.de.bitSource ++ beBits b.toNat 8 } }

/-- D.DATA that completes a literal, a code field, or a literal and then a code field, and no more: the literal is the
eight oldest bits, it mints the next entry and is written; the code field has the width of the max-code at that moment, its
expansion (the entry just minted among them) is written and it is recorded; the bits behind stay, and nothing else changes
(R150, R151, R152, R154). Driving after every byte is the spec's default, log 8. -/
def Obligations.DataCompletesALiteralOrACode : Prop :=
  (∀ (b l : Byte) (q r : Bits) (s : State) (last : ByteSeq),
    s.de.session.isOpen → s.de.dstate = .expectingByte → s.de.bitSource = q → q ++ beBits b.toNat 8 = beBits l.toNat 8 ++ r →
    s.de.maxCode.toNat < 65535 → r.length < minBits (s.de.maxCode + 1) →
    ddLookup s.de.decDict s.de.lastCode = some last → s.de.session.sink.acceptsNext 1 = true →
    ∃ t, exec (.dData b) s = .next t ∧
      t.de.maxCode = s.de.maxCode + 1 ∧
      (∀ c, ddLookup t.de.decDict c = if c = s.de.maxCode + 1 then some (last ++ [l]) else ddLookup s.de.decDict c) ∧
      t.de.session = s.de.session.acceptAll [l] ∧ t.de.dstate = .expectingCode ∧
      t.de.lastCode = s.de.lastCode ∧ t.de.bitSource = r ∧ t.ce = s.ce ∧ t.host = s.host) ∧
  (∀ (b : Byte) (v : Code) (r : Bits) (s : State) (seq : ByteSeq),
    s.de.session.isOpen → s.de.dstate = .expectingCode → v.toNat < 2 ^ minBits s.de.maxCode →
    s.de.bitSource ++ beBits b.toNat 8 = beBits v.toNat (minBits s.de.maxCode) ++ r → r.length < 8 →
    ddLookup s.de.decDict v = some seq → s.de.session.sink.acceptsNext seq.length = true →
    exec (.dData b) s = .next { s with de := { s.de with
      lastCode := v, dstate := .expectingByte, bitSource := r, session := s.de.session.acceptAll seq } }) ∧
  (∀ (b l : Byte) (v : Code) (r : Bits) (s : State) (last seq : ByteSeq),
    s.de.session.isOpen → s.de.dstate = .expectingByte → s.de.maxCode.toNat < 65535 →
    v.toNat < 2 ^ minBits (s.de.maxCode + 1) →
    s.de.bitSource ++ beBits b.toNat 8 = beBits l.toNat 8 ++ beBits v.toNat (minBits (s.de.maxCode + 1)) ++ r →
    r.length < 8 → ddLookup s.de.decDict s.de.lastCode = some last →
    (if v = s.de.maxCode + 1 then some (last ++ [l]) else ddLookup s.de.decDict v) = some seq →
    s.de.session.sink.acceptsNext (1 + seq.length) = true →
    ∃ t, exec (.dData b) s = .next t ∧
      t.de.maxCode = s.de.maxCode + 1 ∧
      (∀ c, ddLookup t.de.decDict c = if c = s.de.maxCode + 1 then some (last ++ [l]) else ddLookup s.de.decDict c) ∧
      t.de.session = s.de.session.acceptAll (l :: seq) ∧ t.de.dstate = .expectingByte ∧
      t.de.lastCode = v ∧ t.de.bitSource = r ∧ t.ce = s.ce ∧ t.host = s.host)

/-- D.DATA on a freshly reset decoder: the width-0 code field 0, then the byte as the first literal, written verbatim
(R151 corner case 1, R154, D20). Driving after every byte is the spec's default, log 8. -/
def Obligations.FirstDataByteIsTheFirstLiteral : Prop :=
  ∀ (b : Byte) (k : Sink) (n : Nat) (s : State), s.de = DE.fresh k n → k.acceptsNext 1 = true →
    exec (.dData b) s = .next { s with de := { DE.fresh k n with
      maxCode := 1, decDict := [(0, []), (1, [b])], session := (Session.fresh k n).acceptAll [b] } }

/-- Every D.DATA beat and every field completes, in every state of an engine that is not inside a beat: the drive
loop always ends, at a fault, in a SinkWrite that is never answered, or at a stall; it gives no response and touches
neither CE nor the host (R153, R154, R208). Fields as instructions and the mark of a held engine are the model's
choice, logs 3 and 5. -/
def Obligations.DriveAlwaysEnds : Prop :=
  ∀ (i : Instr) (s : State), i.port = .de → i.answered = false → s.de.session.hung = false →
    ∃ t, exec i s = .next t ∧ t.ce = s.ce ∧ t.host = s.host ∧ t.de.session.responses = s.de.session.responses ∧
      (s.de.session.isOpen → t.de.session.sound → t.de.bitSource.length < t.de.awaitedWidth)

/-- One D.DATA beat on a decoder at rest completes at most two progress steps (R154, C11). The premises are R29. -/
def Obligations.OneByteAtMostTwoSteps : Prop :=
  ∀ (b : Byte) (e : DE) (n : Nat), e.session.sound → e.regular → driveSteps n (bsrPush [b] e) ≤ 2

/-- The sub-chunk size of `read` cannot be observed: for every size, reading in sub-chunks of that size and reading byte by
byte agree, in the state they reach, or in the fault, its value, OUT, the count and the sink (R157, R158). -/
def Obligations.SubchunkSizeIsUnobservable : Prop :=
  ∀ (size : Nat) (bs : ByteSeq) (e : DE), 1 ≤ size →
    (readChunks size bs [] e).agree (readChunks 1 bs [] e)

/-! ### The laws of the codec -/

/-- Streaming equivalence of the decoder: any partition of a stream into `read` calls gives the same OUT and the same fault
as one call, and without a fault the same dictionary and state machine (R160). -/
def Obligations.ReadPartitionIsUnobservable : Prop :=
  ∀ (chunks : List ByteSeq) (s t : State), s.de.session.isOpen → execAll (readsBeats chunks) s = .next t →
    ∃ u, execAll (readBeats chunks.flatten) s = .next u ∧
      u.de.session.out = t.de.session.out ∧ u.de.session.fault = t.de.session.fault ∧
      u.de.session.faultValue = t.de.session.faultValue ∧
      (t.de.session.fault = .noFault →
        u.de.decDict = t.de.decDict ∧ u.de.maxCode = t.de.maxCode ∧ u.de.lastCode = t.de.lastCode ∧
        u.de.bitSource = t.de.bitSource ∧ u.de.dstate = t.de.dstate)

/-- Streaming equivalence of the encoder: any partition of an input into `write` calls, then `finalize`, gives the same OUT
and the same fault as one call, and without a fault the same dictionary (R137). -/
def Obligations.WritePartitionIsUnobservable : Prop :=
  ∀ (chunks : List ByteSeq) (s t : State), s.ce.session.isOpen →
    execAll (writesBeats chunks ++ [.cFinalize]) s = .next t →
    ∃ u, execAll (writeBeats chunks.flatten ++ [.cFinalize]) s = .next u ∧
      u.ce.session.out = t.ce.session.out ∧ u.ce.session.fault = t.ce.session.fault ∧
      u.ce.session.faultValue = t.ce.session.faultValue ∧
      (t.ce.session.fault = .noFault →
        u.ce.encDict = t.ce.encDict ∧ u.ce.maxCode = t.ce.maxCode ∧ u.ce.pending = t.ce.pending)

/-- What the stream is: `encode x` completes and writes exactly the stream of the greedy phrase parse, phrase `i`
gets code `i`, and `max_code` is the number of phrases, for every input of at most 65535 phrases and a sink that
accepts (R140). That the reset is applied to an engine held inside a beat too is the model's choice, log 22. -/
def Obligations.EncoderWritesThePhraseParse : Prop :=
  ∀ (x : ByteSeq) (s : State), s.ce.session.sink = Sink.accepting → (parsePhrases x).1.length ≤ 65535 →
    ∃ t, encodeRun x s = .next t ∧ t.ce.session.final ∧ t.ce.session.out = streamOf x ∧
      t.ce.maxCode.toNat = (parsePhrases x).1.length ∧ t.ce.pending = (parsePhrases x).2 ∧
      (∀ p, p ∈ (parsePhrases x).1 →
        edLookup t.ce.encDict p = some (BitVec.ofNat 16 ((parsePhrases x).1.idxOf p + 1))) ∧
      t.de = s.de

/-- Round trip: decoding what encoding writes gives the input back, with no fault on either side, for every input of
at most 65535 phrases and sinks that accept (R164). That the reset is applied to an engine held inside a beat too is
the model's choice, log 22. -/
def Obligations.DecodeUndoesEncodeOfEveryInput : Prop :=
  ∀ (x : ByteSeq) (s : State), s.ce.session.sink = Sink.accepting → s.de.session.sink = Sink.accepting →
    (parsePhrases x).1.length ≤ 65535 →
    ∃ t u, encodeRun x s = .next t ∧ t.ce.session.final ∧
      decodeRun t.ce.session.out t = .next u ∧ u.de.session.final ∧ u.de.session.out = x

/-- Dictionary lockstep: after decoding what encoding wrote, both sides have the same `max_code` and the same
sequence under every code (R161, R125). That the reset is applied to an engine held inside a beat too is the model's
choice, log 22. -/
def Obligations.DictionariesGrowInLockstep : Prop :=
  ∀ (x : ByteSeq) (s t u : State), s.ce.session.sink = Sink.accepting → s.de.session.sink = Sink.accepting →
    (parsePhrases x).1.length ≤ 65535 → encodeRun x s = .next t → decodeRun t.ce.session.out t = .next u →
    u.de.maxCode = t.ce.maxCode ∧
    ∀ c : Code, 1 ≤ c.toNat → c.toNat ≤ t.ce.maxCode.toNat →
      ∃ q, ddLookup u.de.decDict c = some q ∧ edLookup t.ce.encDict q = some c

/-! ### The other realisations -/

/-- The trie-walk form of C.STEP and of the tail refines the map form: from related states with R18 they end alike, in
related states, or in the same fault with the same OUT, count and sink (R114, R138). -/
def Obligations.TrieWalkRefinesTheMap : Prop :=
  ∀ (b : Byte) (t : TrieCE) (e : CE), e.regular → trieRefines t e →
    (match trieStep b t, cStep b e with
     | .ok _ t', .ok _ e' => trieRefines t' e'
     | .raise c v t', .raise c' v' e' => c = c' ∧ v = v' ∧ t'.base.session = e'.session
     | .hang t', .hang e' => t'.base.session = e'.session
     | _, _ => False) ∧
    (match trieTail t, cTail e with
     | .ok _ b', .ok _ e' => b'.bitSink = e'.bitSink ∧ b'.session = e'.session
     | .raise c v b', .raise c' v' e' => c = c' ∧ v = v' ∧ b'.session = e'.session
     | .hang b', .hang e' => b'.session = e'.session
     | _, _ => False)

/-- The parent-pointer array reads as the dictionary it holds, and a mint keeps it so (R123, R124). -/
def Obligations.ParentPointersReadAsTheArray : Prop :=
  ∀ (e : DE) (par : Parents), e.keysExact → parentHolds par e.decDict e.maxCode →
    (∀ c, parentLookup par e.maxCode c = ddLookup e.decDict c) ∧
    (∀ m b, codeInc e.maxCode = some m → e.lastCode.toNat ≤ e.maxCode.toNat →
      parentHolds (parentInsert par m e.lastCode b) (e.mint m b).decDict m)
end

