-- ==== Sys2Proof/Laws/Bits.lean ====
section
/-! SUPPORT. Conversion laws: lengths, `be_val` of `be_bits` and back, `pack8` and `unpack8` (00_scope.md section 6). -/

namespace Sys2Proof

@[simp] theorem beBits_zero (v : Nat) : beBits v 0 = [] := rfl

@[simp] theorem length_beBits (v w : Nat) : (beBits v w).length = w := by
  induction w with
  | zero => rfl
  | succ w ih => simp [beBits, ih]

@[simp] theorem length_zeros (n : Nat) : (zeros n).length = n := by simp [zeros]

theorem beVal_foldl (s : Bits) (a : Nat) :
    s.foldl (fun acc b => 2 * acc + b.toNat) a = a * 2 ^ s.length + beVal s := by
  induction s generalizing a with
  | nil => simp [beVal]
  | cons b s ih =>
    simp only [List.foldl_cons, List.length_cons, beVal]
    rw [ih, ih]
    ring

@[simp] theorem beVal_nil : beVal [] = 0 := rfl

theorem beVal_cons (b : Bool) (s : Bits) : beVal (b :: s) = b.toNat * 2 ^ s.length + beVal s := by
  rw [beVal, List.foldl_cons, beVal_foldl]
  simp

theorem beVal_append (s t : Bits) : beVal (s ++ t) = beVal s * 2 ^ t.length + beVal t := by
  rw [beVal, List.foldl_append, beVal_foldl]
  rfl

theorem beVal_lt (s : Bits) : beVal s < 2 ^ s.length := by
  induction s with
  | nil => simp
  | cons b s ih =>
    rw [beVal_cons, List.length_cons, pow_succ]
    cases b <;> simp <;> omega

/-- `be_val(be_bits(v, w))` is the `w` low bits of `v`. -/
theorem beVal_beBits (v w : Nat) : beVal (beBits v w) = v % 2 ^ w := by
  induction w with
  | zero => simp [Nat.mod_one]
  | succ w ih =>
    rw [beBits, beVal_cons, ih, length_beBits, Nat.testBit_eq_decide_div_mod_eq, pow_succ, Nat.mod_mul]
    have := Nat.mod_two_eq_zero_or_one (v / 2 ^ w)
    rcases this with h | h <;> simp [h]
    omega

theorem beVal_beBits_of_lt {v w : Nat} (h : v < 2 ^ w) : beVal (beBits v w) = v := by
  rw [beVal_beBits, Nat.mod_eq_of_lt h]

theorem beBits_congr {u v w : Nat} (h : u % 2 ^ w = v % 2 ^ w) : beBits u w = beBits v w := by
  induction w with
  | zero => rfl
  | succ w ih =>
    have hw : u % 2 ^ w = v % 2 ^ w := by
      have := congrArg (· % 2 ^ w) h
      simpa [pow_succ, Nat.mod_mul_right_mod] using this
    have ht : u.testBit w = v.testBit w := by
      have h1 := Nat.testBit_mod_two_pow u (w + 1) w
      have h2 := Nat.testBit_mod_two_pow v (w + 1) w
      rw [h] at h1
      simpa using h1.symm.trans h2
    simp [beBits, ih hw, ht]

/-- `be_bits(be_val(s), |s|) = s`. -/
theorem beBits_beVal (s : Bits) : beBits (beVal s) s.length = s := by
  induction s with
  | nil => rfl
  | cons b s ih =>
    rw [List.length_cons, beBits]
    have hv := beVal_lt s
    congr 1
    · rw [beVal_cons, Nat.testBit_eq_decide_div_mod_eq]
      cases b
      · simp [Nat.div_eq_of_lt hv]
      · have : (1 * 2 ^ s.length + beVal s) / 2 ^ s.length = 1 := by
          rw [Nat.add_comm, Nat.add_mul_div_right _ _ (by positivity), Nat.div_eq_of_lt hv]
        simp only [Bool.toNat_true, this]
        rfl
    · rw [← beBits_congr (u := beVal s), ih]
      rw [beVal_cons]
      simp

@[simp] theorem beVal_zeros (n : Nat) : beVal (zeros n) = 0 := by
  induction n with
  | zero => rfl
  | succ n ih =>
    rw [zeros, List.replicate_succ, beVal_cons]
    simpa [zeros] using ih

theorem eq_zeros_of_beVal {s : Bits} (h : beVal s = 0) : s = zeros s.length := by
  induction s with
  | nil => rfl
  | cons b s ih =>
    rw [beVal_cons] at h
    cases b
    · simp only [Bool.toNat_false, Nat.zero_mul, Nat.zero_add] at h
      conv_lhs => rw [ih h]
      simp [zeros, List.replicate_succ]
    · have : 0 < 2 ^ s.length := by positivity
      simp at h

theorem length_unpack8 (bs : ByteSeq) : (unpack8 bs).length = 8 * bs.length := by
  induction bs with
  | nil => rfl
  | cons b bs ih => simp [unpack8, ih]; omega

theorem unpack8_append (as bs : ByteSeq) : unpack8 (as ++ bs) = unpack8 as ++ unpack8 bs := by
  induction as with
  | nil => rfl
  | cons a as ih => simp [unpack8, ih]

/-- A list of at least eight bits, taken apart. -/
theorem exists_eight {s : Bits} (h : 8 ≤ s.length) :
    ∃ a b c d e f g i t, s = a :: b :: c :: d :: e :: f :: g :: i :: t ∧ t.length + 8 = s.length := by
  match s, h with
  | a :: b :: c :: d :: e :: f :: g :: i :: t, _ => exact ⟨a, b, c, d, e, f, g, i, t, rfl, by simp⟩

/-- Whole bytes survive packing and unpacking. -/
theorem unpack8_pack8 {s : Bits} (n : Nat) (h : s.length = 8 * n) : unpack8 (pack8 s) = s := by
  induction n generalizing s with
  | zero =>
    obtain rfl : s = [] := List.length_eq_zero_iff.mp (by omega)
    rfl
  | succ n ih =>
    obtain ⟨a, b, c, d, e, f, g, i, t, rfl, ht⟩ := exists_eight (s := s) (by omega)
    rw [pack8, unpack8, ih (by omega)]
    have hb := beBits_beVal [a, b, c, d, e, f, g, i]
    have hl := beVal_lt [a, b, c, d, e, f, g, i]
    simp only [List.length_cons, List.length_nil, Nat.zero_add, Nat.reduceAdd] at hb hl
    rw [BitVec.toNat_ofNat, Nat.mod_eq_of_lt hl, hb]
    rfl

theorem length_pack8 {s : Bits} (n : Nat) (h : s.length = 8 * n) : (pack8 s).length = n := by
  have := length_unpack8 (pack8 s)
  rw [unpack8_pack8 n h] at this
  omega

/-- `pack8` undoes `unpack8`. -/
theorem pack8_unpack8 (bs : ByteSeq) : pack8 (unpack8 bs) = bs := by
  induction bs with
  | nil => rfl
  | cons b bs ih =>
    have h8 : unpack8 (b :: bs) = beBits b.toNat 8 ++ unpack8 bs := rfl
    obtain ⟨a0, a1, a2, a3, a4, a5, a6, a7, t, ht, hl⟩ := exists_eight (s := beBits b.toNat 8) (by simp)
    have htn : t = [] := List.length_eq_zero_iff.mp (by simpa using hl)
    subst htn
    rw [h8, ht]
    show pack8 (a0 :: a1 :: a2 :: a3 :: a4 :: a5 :: a6 :: a7 :: unpack8 bs) = b :: bs
    rw [pack8, ih, ← ht, beVal_beBits_of_lt (by exact b.isLt)]
    simp

theorem pack8_append {s t : Bits} (n : Nat) (h : s.length = 8 * n) : pack8 (s ++ t) = pack8 s ++ pack8 t := by
  induction n generalizing s with
  | zero =>
    obtain rfl : s = [] := List.length_eq_zero_iff.mp (by omega)
    rfl
  | succ n ih =>
    obtain ⟨a, b, c, d, e, f, g, i, r, rfl, hr⟩ := exists_eight (s := s) (by omega)
    simp only [List.cons_append]
    rw [pack8, pack8, ih (by omega)]
    rfl

end Sys2Proof
end

