-- ==== Sys2Proof/Laws/Code.lean ====
section
/-! SUPPORT. Laws of Codes: `min_bits` bounds, and what `code_inc` and `code_prev` answer (40_code.md R81 to R85). -/

namespace Sys2Proof.Machine

@[simp] theorem minBits_zero : minBits 0 = 0 := rfl

/-- A value fits a width exactly when its `min_bits` does (the last line of R81's definition). -/
theorem minBits_le_iff (v : Code) (w : Nat) : minBits v ≤ w ↔ v.toNat < 2 ^ w := by
  unfold minBits
  split
  · rename_i h
    simp [h]
  · rename_i h
    rw [Nat.succ_le_iff, Nat.log2_lt h]

theorem lt_two_pow_minBits (v : Code) : v.toNat < 2 ^ minBits v := (minBits_le_iff v _).mp le_rfl

theorem minBits_le_sixteen (v : Code) : minBits v ≤ 16 := (minBits_le_iff v 16).mpr v.isLt

theorem minBits_pos {v : Code} (h : 1 ≤ v.toNat) : 1 ≤ minBits v := by
  by_contra hc
  have := (minBits_le_iff v 0).mp (by omega)
  simp at this
  simp [this] at h

/-- Any code not above `m` fits the width of `m` (R84, R139). -/
theorem lt_two_pow_minBits_of_le {c m : Code} (h : c.toNat ≤ m.toNat) : c.toNat < 2 ^ minBits m :=
  lt_of_le_of_lt h (lt_two_pow_minBits m)

/-- What `code_inc` answers: one more, below the top only. -/
theorem codeInc_eq_some {c d : Code} (h : codeInc c = some d) : d.toNat = c.toNat + 1 ∧ c.toNat < 65535 := by
  unfold codeInc at h
  split at h
  · simp at h
  · rename_i hc
    simp only [Config.codeMax] at hc
    have hlt := c.isLt
    simp only [Option.some.injEq] at h
    subst h
    rw [BitVec.toNat_add]
    constructor
    · show (c.toNat + 1) % 65536 = c.toNat + 1
      omega
    · omega

theorem codeInc_of_lt {c : Code} (h : c.toNat < 65535) : codeInc c = some (c + 1) := by
  unfold codeInc
  rw [if_neg]
  simp only [Config.codeMax]
  omega

theorem codeInc_eq_none {c : Code} (h : codeInc c = none) : c.toNat = 65535 := by
  unfold codeInc at h
  split at h
  · assumption
  · simp at h

/-- `code_prev` undoes `code_inc`. -/
theorem codePrev_codeInc {c d : Code} (h : codeInc c = some d) : codePrev d = some c := by
  have hd := codeInc_eq_some h
  have : d.toNat ≠ 0 := by omega
  unfold codePrev
  rw [if_neg this]
  congr 1
  apply BitVec.eq_of_toNat_eq
  rw [BitVec.toNat_sub]
  have := c.isLt
  have := d.isLt
  show (2 ^ 16 - 1 + d.toNat) % 2 ^ 16 = c.toNat
  omega

end Sys2Proof.Machine
end

