-- ==== Sys2Proof/Laws/State.lean ====
section
/-! SUPPORT. One lemma per field per named update of the state, so that no proof unfolds a record update. -/

namespace Sys2Proof.Machine

/-! ### Session.accept, acceptAll, respond, respondCount -/

@[simp] theorem Session.accept_closed (t : Session) (b : Byte) : (t.accept b).closed = t.closed := rfl
@[simp] theorem Session.accept_fault (t : Session) (b : Byte) : (t.accept b).fault = t.fault := rfl
@[simp] theorem Session.accept_faultValue (t : Session) (b : Byte) : (t.accept b).faultValue = t.faultValue := rfl
@[simp] theorem Session.accept_callCount (t : Session) (b : Byte) : (t.accept b).callCount = t.callCount + 1 := rfl
@[simp] theorem Session.accept_out (t : Session) (b : Byte) : (t.accept b).out = t.out ++ [b] := rfl
@[simp] theorem Session.accept_responses (t : Session) (b : Byte) : (t.accept b).responses = t.responses := rfl
@[simp] theorem Session.accept_sink (t : Session) (b : Byte) : (t.accept b).sink = t.sink.advance := rfl
@[simp] theorem Session.accept_hung (t : Session) (b : Byte) : (t.accept b).hung = t.hung := rfl
@[simp] theorem Session.accept_freeIdx (t : Session) (b : Byte) : (t.accept b).freeIdx = t.freeIdx := rfl

@[simp] theorem Session.acceptAll_closed (t : Session) (bs : ByteSeq) : (t.acceptAll bs).closed = t.closed := rfl
@[simp] theorem Session.acceptAll_fault (t : Session) (bs : ByteSeq) : (t.acceptAll bs).fault = t.fault := rfl
@[simp] theorem Session.acceptAll_faultValue (t : Session) (bs : ByteSeq) : (t.acceptAll bs).faultValue = t.faultValue := rfl
@[simp] theorem Session.acceptAll_callCount (t : Session) (bs : ByteSeq) : (t.acceptAll bs).callCount = t.callCount + bs.length := rfl
@[simp] theorem Session.acceptAll_out (t : Session) (bs : ByteSeq) : (t.acceptAll bs).out = t.out ++ bs := rfl
@[simp] theorem Session.acceptAll_responses (t : Session) (bs : ByteSeq) : (t.acceptAll bs).responses = t.responses := rfl
@[simp] theorem Session.acceptAll_sink (t : Session) (bs : ByteSeq) : (t.acceptAll bs).sink = t.sink.after bs.length := rfl
@[simp] theorem Session.acceptAll_hung (t : Session) (bs : ByteSeq) : (t.acceptAll bs).hung = t.hung := rfl
@[simp] theorem Session.acceptAll_freeIdx (t : Session) (bs : ByteSeq) : (t.acceptAll bs).freeIdx = t.freeIdx := rfl

@[simp] theorem Session.respond_closed (t : Session) (r : Response) : (t.respond r).closed = t.closed := rfl
@[simp] theorem Session.respond_fault (t : Session) (r : Response) : (t.respond r).fault = t.fault := rfl
@[simp] theorem Session.respond_faultValue (t : Session) (r : Response) : (t.respond r).faultValue = t.faultValue := rfl
@[simp] theorem Session.respond_callCount (t : Session) (r : Response) : (t.respond r).callCount = t.callCount := rfl
@[simp] theorem Session.respond_out (t : Session) (r : Response) : (t.respond r).out = t.out := rfl
@[simp] theorem Session.respond_responses (t : Session) (r : Response) : (t.respond r).responses = t.responses ++ [r] := rfl
@[simp] theorem Session.respond_sink (t : Session) (r : Response) : (t.respond r).sink = t.sink := rfl
@[simp] theorem Session.respond_hung (t : Session) (r : Response) : (t.respond r).hung = t.hung := rfl
@[simp] theorem Session.respond_freeIdx (t : Session) (r : Response) : (t.respond r).freeIdx = t.freeIdx := rfl

@[simp] theorem Session.respondCount_closed (t : Session) : (t.respondCount).closed = t.closed := rfl
@[simp] theorem Session.respondCount_fault (t : Session) : (t.respondCount).fault = t.fault := rfl
@[simp] theorem Session.respondCount_faultValue (t : Session) : (t.respondCount).faultValue = t.faultValue := rfl
@[simp] theorem Session.respondCount_callCount (t : Session) : (t.respondCount).callCount = 0 := rfl
@[simp] theorem Session.respondCount_out (t : Session) : (t.respondCount).out = t.out := rfl
@[simp] theorem Session.respondCount_responses (t : Session) : (t.respondCount).responses = t.responses ++ [.ok t.callCount] := rfl
@[simp] theorem Session.respondCount_sink (t : Session) : (t.respondCount).sink = t.sink := rfl
@[simp] theorem Session.respondCount_hung (t : Session) : (t.respondCount).hung = t.hung := rfl
@[simp] theorem Session.respondCount_freeIdx (t : Session) : (t.respondCount).freeIdx = t.freeIdx := rfl

/-! ### Session.latch and repeatFault -/

@[simp] theorem Session.latch_closed (t : Session) (a : Bool) (c : Cause) (v : BitVec 16) : (t.latch a c v).closed = t.closed := by cases a <;> rfl
@[simp] theorem Session.latch_fault (t : Session) (a : Bool) (c : Cause) (v : BitVec 16) : (t.latch a c v).fault = c := by cases a <;> rfl
@[simp] theorem Session.latch_faultValue (t : Session) (a : Bool) (c : Cause) (v : BitVec 16) : (t.latch a c v).faultValue = v := by cases a <;> rfl
@[simp] theorem Session.latch_callCount (t : Session) (a : Bool) (c : Cause) (v : BitVec 16) : (t.latch a c v).callCount = t.callCount := by cases a <;> rfl
@[simp] theorem Session.latch_out (t : Session) (a : Bool) (c : Cause) (v : BitVec 16) : (t.latch a c v).out = t.out := by cases a <;> rfl
@[simp] theorem Session.latch_responses (t : Session) (a : Bool) (c : Cause) (v : BitVec 16) : (t.latch a c v).responses = if a then t.responses ++ [.err c v] else t.responses := by cases a <;> rfl
@[simp] theorem Session.latch_sink (t : Session) (a : Bool) (c : Cause) (v : BitVec 16) : (t.latch a c v).sink = t.sink := by cases a <;> rfl
@[simp] theorem Session.latch_hung (t : Session) (a : Bool) (c : Cause) (v : BitVec 16) : (t.latch a c v).hung = t.hung := by cases a <;> rfl
@[simp] theorem Session.latch_freeIdx (t : Session) (a : Bool) (c : Cause) (v : BitVec 16) : (t.latch a c v).freeIdx = t.freeIdx := by cases a <;> rfl

@[simp] theorem Session.repeatFault_closed (t : Session) (a : Bool) : (t.repeatFault a).closed = t.closed := by cases a <;> rfl
@[simp] theorem Session.repeatFault_fault (t : Session) (a : Bool) : (t.repeatFault a).fault = t.fault := by cases a <;> rfl
@[simp] theorem Session.repeatFault_faultValue (t : Session) (a : Bool) : (t.repeatFault a).faultValue = t.faultValue := by cases a <;> rfl
@[simp] theorem Session.repeatFault_callCount (t : Session) (a : Bool) : (t.repeatFault a).callCount = t.callCount := by cases a <;> rfl
@[simp] theorem Session.repeatFault_out (t : Session) (a : Bool) : (t.repeatFault a).out = t.out := by cases a <;> rfl
@[simp] theorem Session.repeatFault_responses (t : Session) (a : Bool) : (t.repeatFault a).responses = if a then t.responses ++ [.err t.fault t.faultValue] else t.responses := by cases a <;> rfl
@[simp] theorem Session.repeatFault_sink (t : Session) (a : Bool) : (t.repeatFault a).sink = t.sink := by cases a <;> rfl
@[simp] theorem Session.repeatFault_hung (t : Session) (a : Bool) : (t.repeatFault a).hung = t.hung := by cases a <;> rfl
@[simp] theorem Session.repeatFault_freeIdx (t : Session) (a : Bool) : (t.repeatFault a).freeIdx = t.freeIdx := by cases a <;> rfl

/-! ### A fault: what is left of the session (R179(e)), and what the two faults that change nothing else leave -/

@[simp] theorem CE.unspecified_fault (e : CE) : e.unspecified.session.fault = e.session.fault := rfl
@[simp] theorem CE.unspecified_faultValue (e : CE) : e.unspecified.session.faultValue = e.session.faultValue := rfl
@[simp] theorem CE.unspecified_out (e : CE) : e.unspecified.session.out = e.session.out := rfl
@[simp] theorem CE.unspecified_responses (e : CE) : e.unspecified.session.responses = e.session.responses := rfl
@[simp] theorem CE.unspecified_sink (e : CE) : e.unspecified.session.sink = e.session.sink := rfl
@[simp] theorem CE.unspecified_hung (e : CE) : e.unspecified.session.hung = e.session.hung := rfl
@[simp] theorem CE.takeFault_fault (e : CE) (a : Bool) (c : Cause) (v : BitVec 16) :
    (e.takeFault a c v).session.fault = c := by cases a <;> cases c <;> rfl
@[simp] theorem CE.takeFault_faultValue (e : CE) (a : Bool) (c : Cause) (v : BitVec 16) :
    (e.takeFault a c v).session.faultValue = v := by cases a <;> cases c <;> rfl
@[simp] theorem CE.takeFault_out (e : CE) (a : Bool) (c : Cause) (v : BitVec 16) :
    (e.takeFault a c v).session.out = e.session.out := by cases a <;> cases c <;> rfl
@[simp] theorem CE.takeFault_responses (e : CE) (a : Bool) (c : Cause) (v : BitVec 16) :
    (e.takeFault a c v).session.responses = if a then e.session.responses ++ [.err c v] else e.session.responses := by cases a <;> cases c <;> rfl
@[simp] theorem CE.takeFault_sink (e : CE) (a : Bool) (c : Cause) (v : BitVec 16) :
    (e.takeFault a c v).session.sink = e.session.sink := by cases a <;> cases c <;> rfl
@[simp] theorem CE.takeFault_hung (e : CE) (a : Bool) (c : Cause) (v : BitVec 16) :
    (e.takeFault a c v).session.hung = e.session.hung := by cases a <;> cases c <;> rfl
/-- SessionClosed and ReservedCommand change nothing but the fault registers and the responses (R175, R176). -/
theorem CE.takeFault_plain (e : CE) (a : Bool) (c : Cause) (v : BitVec 16) (h : c.changesNothingElse = true) :
    e.takeFault a c v = (let t := e.session.latch a c v; ({ e with session := t } : CE)) := by
  simp [CE.takeFault, h]

@[simp] theorem DE.unspecified_fault (e : DE) : e.unspecified.session.fault = e.session.fault := rfl
@[simp] theorem DE.unspecified_faultValue (e : DE) : e.unspecified.session.faultValue = e.session.faultValue := rfl
@[simp] theorem DE.unspecified_out (e : DE) : e.unspecified.session.out = e.session.out := rfl
@[simp] theorem DE.unspecified_responses (e : DE) : e.unspecified.session.responses = e.session.responses := rfl
@[simp] theorem DE.unspecified_sink (e : DE) : e.unspecified.session.sink = e.session.sink := rfl
@[simp] theorem DE.unspecified_hung (e : DE) : e.unspecified.session.hung = e.session.hung := rfl
@[simp] theorem DE.takeFault_fault (e : DE) (a : Bool) (c : Cause) (v : BitVec 16) :
    (e.takeFault a c v).session.fault = c := by cases a <;> cases c <;> rfl
@[simp] theorem DE.takeFault_faultValue (e : DE) (a : Bool) (c : Cause) (v : BitVec 16) :
    (e.takeFault a c v).session.faultValue = v := by cases a <;> cases c <;> rfl
@[simp] theorem DE.takeFault_out (e : DE) (a : Bool) (c : Cause) (v : BitVec 16) :
    (e.takeFault a c v).session.out = e.session.out := by cases a <;> cases c <;> rfl
@[simp] theorem DE.takeFault_responses (e : DE) (a : Bool) (c : Cause) (v : BitVec 16) :
    (e.takeFault a c v).session.responses = if a then e.session.responses ++ [.err c v] else e.session.responses := by cases a <;> cases c <;> rfl
@[simp] theorem DE.takeFault_sink (e : DE) (a : Bool) (c : Cause) (v : BitVec 16) :
    (e.takeFault a c v).session.sink = e.session.sink := by cases a <;> cases c <;> rfl
@[simp] theorem DE.takeFault_hung (e : DE) (a : Bool) (c : Cause) (v : BitVec 16) :
    (e.takeFault a c v).session.hung = e.session.hung := by cases a <;> cases c <;> rfl
/-- SessionClosed and ReservedCommand change nothing but the fault registers and the responses (R175, R176). -/
theorem DE.takeFault_plain (e : DE) (a : Bool) (c : Cause) (v : BitVec 16) (h : c.changesNothingElse = true) :
    e.takeFault a c v = (let t := e.session.latch a c v; ({ e with session := t } : DE)) := by
  simp [DE.takeFault, h]

/-! ### Reset -/

@[simp] theorem Session.fresh_closed (k : Sink) (n : Nat) : (Session.fresh k n).closed = false := rfl
@[simp] theorem Session.fresh_fault (k : Sink) (n : Nat) : (Session.fresh k n).fault = .noFault := rfl
@[simp] theorem Session.fresh_faultValue (k : Sink) (n : Nat) : (Session.fresh k n).faultValue = 0 := rfl
@[simp] theorem Session.fresh_callCount (k : Sink) (n : Nat) : (Session.fresh k n).callCount = 0 := rfl
@[simp] theorem Session.fresh_out (k : Sink) (n : Nat) : (Session.fresh k n).out = [] := rfl
@[simp] theorem Session.fresh_responses (k : Sink) (n : Nat) : (Session.fresh k n).responses = [] := rfl
@[simp] theorem Session.fresh_sink (k : Sink) (n : Nat) : (Session.fresh k n).sink = k := rfl
@[simp] theorem Session.fresh_hung (k : Sink) (n : Nat) : (Session.fresh k n).hung = false := rfl
@[simp] theorem Session.fresh_freeIdx (k : Sink) (n : Nat) : (Session.fresh k n).freeIdx = n := rfl
@[simp] theorem CE.fresh_encDict (k : Sink) (n : Nat) : (CE.fresh k n).encDict = [] := rfl
@[simp] theorem CE.fresh_maxCode (k : Sink) (n : Nat) : (CE.fresh k n).maxCode = 0 := rfl
@[simp] theorem CE.fresh_pending (k : Sink) (n : Nat) : (CE.fresh k n).pending = [] := rfl
@[simp] theorem CE.fresh_bitSink (k : Sink) (n : Nat) : (CE.fresh k n).bitSink = [] := rfl
@[simp] theorem CE.fresh_session (k : Sink) (n : Nat) : (CE.fresh k n).session = Session.fresh k n := rfl
@[simp] theorem DE.fresh_decDict (k : Sink) (n : Nat) : (DE.fresh k n).decDict = [(0, [])] := rfl
@[simp] theorem DE.fresh_maxCode (k : Sink) (n : Nat) : (DE.fresh k n).maxCode = 0 := rfl
@[simp] theorem DE.fresh_lastCode (k : Sink) (n : Nat) : (DE.fresh k n).lastCode = 0 := rfl
@[simp] theorem DE.fresh_bitSource (k : Sink) (n : Nat) : (DE.fresh k n).bitSource = [] := rfl
@[simp] theorem DE.fresh_dstate (k : Sink) (n : Nat) : (DE.fresh k n).dstate = .expectingCode := rfl
@[simp] theorem DE.fresh_session (k : Sink) (n : Nat) : (DE.fresh k n).session = Session.fresh k n := rfl

/-! ### Bits received -/

@[simp] theorem bsrPushBits_decDict (e : DE) (bits : Bits) : (bsrPushBits bits e).decDict = e.decDict := rfl
@[simp] theorem bsrPushBits_maxCode (e : DE) (bits : Bits) : (bsrPushBits bits e).maxCode = e.maxCode := rfl
@[simp] theorem bsrPushBits_lastCode (e : DE) (bits : Bits) : (bsrPushBits bits e).lastCode = e.lastCode := rfl
@[simp] theorem bsrPushBits_bitSource (e : DE) (bits : Bits) : (bsrPushBits bits e).bitSource = e.bitSource ++ bits := rfl
@[simp] theorem bsrPushBits_dstate (e : DE) (bits : Bits) : (bsrPushBits bits e).dstate = e.dstate := rfl
@[simp] theorem bsrPushBits_session (e : DE) (bits : Bits) : (bsrPushBits bits e).session = e.session := rfl

/-- Pushing one byte is pushing its eight bits (R100). -/
theorem bsrPush_singleton (b : Byte) (e : DE) : bsrPush [b] e = bsrPushBits (beBits b.toNat 8) e := by
  simp [bsrPush, unpack8]

/-! ### The session on a port, after a sink is attached or an engine reset -/

@[simp] theorem State.sessionAt_ce (s : State) : s.sessionAt .ce = s.ce.session := rfl
@[simp] theorem State.sessionAt_de (s : State) : s.sessionAt .de = s.de.session := rfl

@[simp] theorem State.sessionAt_attachSink (p : Port) (k : Sink) (s : State) :
    (attachSink p k s).sessionAt p = { s.sessionAt p with sink := k } := by cases p <;> rfl

@[simp] theorem State.sessionAt_resetEngine (p : Port) (s : State) :
    (resetEngine p s).sessionAt p = Session.fresh (s.sessionAt p).sink (s.sessionAt p).freeIdx := by cases p <;> rfl

end Sys2Proof.Machine
end

