-- ==== Sys2Proof/Laws/Sink.lean ====
section
/-! SUPPORT. What SinkWrite (20_memory.md R44) and the Bit Sink's operations (41_bit_sink.md) can do. -/

namespace Sys2Proof.Machine

@[simp] theorem Sink.after_zero (k : Sink) : k.after 0 = k := rfl

@[simp] theorem Sink.after_succ (k : Sink) (n : Nat) : k.after (n + 1) = k.advance.after n := rfl

@[simp] theorem Sink.answer_accepting : Sink.accepting.answer = .accept := rfl

@[simp] theorem Sink.advance_accepting : Sink.accepting.advance = Sink.accepting := rfl

@[simp] theorem Sink.after_accepting (n : Nat) : Sink.accepting.after n = Sink.accepting := by
  induction n with
  | zero => rfl
  | succ n ih => simpa using ih

/-- A sink that accepts every byte accepts the next `n`. -/
@[simp] theorem Sink.acceptsNext_accepting (n : Nat) : Sink.accepting.acceptsNext n = true := by
  induction n with
  | zero => rfl
  | succ n ih => simpa [Sink.acceptsNext] using ih

@[simp] theorem Session.acceptAll_nil (t : Session) : t.acceptAll [] = t := by simp [Session.acceptAll]

theorem Session.acceptAll_cons (t : Session) (b : Byte) (bs : ByteSeq) :
    t.acceptAll (b :: bs) = (t.accept b).acceptAll bs := by
  simp [Session.acceptAll, Session.accept]
  omega

/-- SinkWrite to a sink that accepts what it is offered: every byte is appended and counted. -/
theorem Session.sinkWrite_accepted (bs : ByteSeq) (t : Session) (h : t.sink.acceptsNext bs.length = true) :
    t.sinkWrite bs = (.done, t.acceptAll bs) := by
  induction bs generalizing t with
  | nil => simp [Session.sinkWrite]
  | cons b bs ih =>
    simp only [List.length_cons, Sink.acceptsNext, Bool.and_eq_true, decide_eq_true_eq] at h
    rw [Session.sinkWrite, h.1, Session.acceptAll_cons]
    exact ih (t.accept b) (by simpa using h.2)

/-- Everything SinkWrite can do: it accepts a prefix of the bytes, all of them exactly when it is done, and touches
nothing but OUT, the count and the sink. -/
theorem Session.sinkWrite_spec (bs : ByteSeq) (t : Session) :
    ∃ k, k ≤ bs.length ∧ ((t.sinkWrite bs).1 = .done → k = bs.length) ∧
      (t.sinkWrite bs).2.out = t.out ++ bs.take k ∧
      (t.sinkWrite bs).2.callCount = t.callCount + k ∧
      (t.sinkWrite bs).2.closed = t.closed ∧ (t.sinkWrite bs).2.fault = t.fault ∧
      (t.sinkWrite bs).2.faultValue = t.faultValue ∧ (t.sinkWrite bs).2.responses = t.responses ∧
      (t.sinkWrite bs).2.hung = t.hung ∧ (t.sinkWrite bs).2.freeIdx = t.freeIdx := by
  induction bs generalizing t with
  | nil => exact ⟨0, by simp [Session.sinkWrite]⟩
  | cons b bs ih =>
    rw [Session.sinkWrite]
    cases t.sink.answer with
    | accept =>
      obtain ⟨k, h1, h2, h3, h4, h5, h6, h7, h8, h9, h10⟩ := ih (t.accept b)
      exact ⟨k + 1, by simp; omega, by simpa using h2, by simp [h3], by simp [h4]; omega,
        by simp [h5], by simp [h6], by simp [h7], by simp [h8], by simp [h9], by simp [h10]⟩
    | fail => exact ⟨0, by simp⟩
    | silent => exact ⟨0, by simp⟩

/-- SinkWrite of CE, its three ends. -/
theorem CE.sinkWrite_cases (bs : ByteSeq) (e : CE) :
    (e.sinkWrite bs = .ok () { e with session := (e.session.sinkWrite bs).2 } ∧ (e.session.sinkWrite bs).1 = .done) ∨
    (e.sinkWrite bs = .raise .ioFailure 0 { e with session := (e.session.sinkWrite bs).2 } ∧
      (e.session.sinkWrite bs).1 = .failed) ∨
    (e.sinkWrite bs = .hang { e with session := (e.session.sinkWrite bs).2 } ∧
      (e.session.sinkWrite bs).1 = .silent) := by
  unfold CE.sinkWrite
  rcases h : e.session.sinkWrite bs with ⟨r, t⟩
  cases r <;> simp

/-- SinkWrite of DE, its three ends. -/
theorem DE.sinkWrite_cases (bs : ByteSeq) (e : DE) :
    (e.sinkWrite bs = .ok () { e with session := (e.session.sinkWrite bs).2 } ∧ (e.session.sinkWrite bs).1 = .done) ∨
    (e.sinkWrite bs = .raise .ioFailure 0 { e with session := (e.session.sinkWrite bs).2 } ∧
      (e.session.sinkWrite bs).1 = .failed) ∨
    (e.sinkWrite bs = .hang { e with session := (e.session.sinkWrite bs).2 } ∧
      (e.session.sinkWrite bs).1 = .silent) := by
  unfold DE.sinkWrite
  rcases h : e.session.sinkWrite bs with ⟨r, t⟩
  cases r <;> simp

theorem CE.sinkWrite_accepted (bs : ByteSeq) (e : CE) (h : e.session.sink.acceptsNext bs.length = true) :
    e.sinkWrite bs = .ok () { e with session := e.session.acceptAll bs } := by
  unfold CE.sinkWrite
  rw [Session.sinkWrite_accepted bs _ h]

theorem DE.sinkWrite_accepted (bs : ByteSeq) (e : DE) (h : e.session.sink.acceptsNext bs.length = true) :
    e.sinkWrite bs = .ok () { e with session := e.session.acceptAll bs } := by
  unfold DE.sinkWrite
  rw [Session.sinkWrite_accepted bs _ h]

/-- An append of a value that fits is either an append to the queue or that and a flush (R90). -/
theorem bskAppend_eq (v w : Nat) (e : CE) (h : v < 2 ^ w) :
    bskAppend v w e =
      if (e.bitSink ++ beBits v w).length ≤ 64 then .ok () { e with bitSink := e.bitSink ++ beBits v w }
      else bskFlush64 { e with bitSink := e.bitSink ++ beBits v w } := by
  unfold bskAppend
  rw [if_neg (by omega)]
  by_cases hl : (e.bitSink ++ beBits v w).length ≤ 64
  · rw [if_neg (Nat.not_lt.mpr hl), if_pos hl]
  · rw [if_pos (Nat.not_le.mp hl), if_neg hl]

/-- An append that does not push the queue past 64 bits writes nothing (R90, D13). -/
theorem bskAppend_buffered (v w : Nat) (e : CE) (h : v < 2 ^ w) (hl : e.bitSink.length + w ≤ 64) :
    bskAppend v w e = .ok () { e with bitSink := e.bitSink ++ beBits v w } := by
  rw [bskAppend_eq v w e h, if_pos (by simpa using hl)]

/-- The pad fills the last byte (R64). -/
theorem padLength_fills (n : Nat) : (n + padLength n) % 8 = 0 ∧ padLength n < 8 := by
  unfold padLength
  omega

/-- The drain to a sink that accepts: the remaining bits and the pad leave as whole bytes (R92). -/
theorem bskDrain_accepted (e : CE)
    (h : e.session.sink.acceptsNext ((e.bitSink.length + padLength e.bitSink.length) / 8) = true) :
    bskDrain e = .ok () { e with
      bitSink := []
      session := e.session.acceptAll (pack8 (e.bitSink ++ zeros (padLength e.bitSink.length))) } := by
  unfold bskDrain
  have hp := (padLength_fills e.bitSink.length).1
  rw [CE.sinkWrite_accepted]
  rw [length_pack8 ((e.bitSink.length + padLength e.bitSink.length) / 8)]
  · exact h
  · simp
    omega

end Sys2Proof.Machine
end

