-- ==== Sys2Proof/Laws/Drive.lean ====
section
/-! SUPPORT. What the steps of DE's state machine can do, and that D.DRIVE always ends within its bound (46_decompressor.md
R151 to R153). -/

namespace Sys2Proof.Machine

/-- `BSR.TAKE`, its two answers (R101). -/
theorem bsrTake_cases (w : Nat) (e : DE) :
    (e.bitSource.length < w ∧ bsrTake w e = (.incomplete w, e)) ∨
    (w ≤ e.bitSource.length ∧
      bsrTake w e = (.value (beVal (e.bitSource.take w)), { e with bitSource := e.bitSource.drop w })) := by
  unfold bsrTake
  by_cases h : e.bitSource.length < w
  · exact .inl ⟨h, by rw [if_pos h]⟩
  · exact .inr ⟨by omega, by rw [if_neg h]⟩

/-- `D.CODE` where the queue is too short: a stall, nothing changed. -/
theorem dCode_stall (e : DE) (h : e.bitSource.length < e.codeWidth) : dCode e = .ok .stall e := by
  unfold dCode
  rcases bsrTake_cases e.codeWidth e with ⟨_, h2⟩ | ⟨h1, _⟩
  · rw [h2]
  · omega

/-- `D.CODE` where the whole field is there. -/
theorem dCode_take (e : DE) (h : e.codeWidth ≤ e.bitSource.length) :
    dCode e = dCodeValue (beVal (e.bitSource.take e.codeWidth)) { e with bitSource := e.bitSource.drop e.codeWidth } := by
  unfold dCode
  rcases bsrTake_cases e.codeWidth e with ⟨h1, _⟩ | ⟨_, h2⟩
  · omega
  · rw [h2]

/-- `D.BYTE` where the queue is too short: a stall, nothing changed. -/
theorem dByte_stall (e : DE) (h : e.bitSource.length < 8) : dByte e = .ok .stall e := by
  unfold dByte
  rcases bsrTake_cases Config.litW e with ⟨_, h2⟩ | ⟨h1, _⟩
  · rw [h2]
  · simp only [Config.litW] at h1
    omega

/-- `D.BYTE` where the whole literal is there. -/
theorem dByte_take (e : DE) (h : 8 ≤ e.bitSource.length) :
    dByte e = dByteValue (BitVec.ofNat 8 (beVal (e.bitSource.take 8))) { e with bitSource := e.bitSource.drop 8 } := by
  unfold dByte
  rcases bsrTake_cases Config.litW e with ⟨h1, _⟩ | ⟨_, h2⟩
  · simp only [Config.litW] at h1
    omega
  · rw [h2]

/-- A step consumes what it reads and leaves the rest of the queue: what `dCodeValue` leaves alone. -/
theorem dCodeValue_ok {v : Nat} {e e' : DE} {p : Progress} (h : dCodeValue v e = .ok p e') :
    p = .progress ∧ e'.bitSource = e.bitSource ∧ e'.dstate = .expectingByte ∧ e'.maxCode = e.maxCode ∧
      e'.decDict = e.decDict ∧ e'.lastCode = BitVec.ofNat 16 v ∧
      ∃ seq, ddLookup e.decDict (BitVec.ofNat 16 v) = some seq ∧ e'.session = (e.session.sinkWrite seq).2 ∧
        (e.session.sinkWrite seq).1 = .done := by
  unfold dCodeValue at h
  split at h
  · simp at h
  · rename_i seq hs
    rcases DE.sinkWrite_cases seq e with ⟨hw, hd⟩ | ⟨hw, _⟩ | ⟨hw, _⟩
    · rw [hw] at h
      simp only [Res.andThen, Res.ok.injEq] at h
      obtain ⟨rfl, rfl⟩ := h
      exact ⟨rfl, rfl, rfl, rfl, rfl, rfl, seq, hs, rfl, hd⟩
    · rw [hw] at h; simp [Res.andThen] at h
    · rw [hw] at h; simp [Res.andThen] at h

/-- What `dByteValue` does when it ends with a value. -/
theorem dByteValue_ok {b : Byte} {e e' : DE} {p : Progress} (h : dByteValue b e = .ok p e') :
    p = .progress ∧ e'.bitSource = e.bitSource ∧ e'.dstate = .expectingCode ∧ e'.lastCode = e.lastCode ∧
      codeInc e.maxCode = some e'.maxCode ∧
      e'.decDict = ddInsert e.decDict e'.maxCode (ddExpansion e.decDict e.lastCode ++ [b]) ∧
      e'.session = (e.session.sinkWrite [b]).2 ∧ (e.session.sinkWrite [b]).1 = .done := by
  unfold dByteValue at h
  split at h
  · simp at h
  · rename_i m hm
    rcases DE.sinkWrite_cases [b] (e.mint m b) with ⟨hw, hd⟩ | ⟨hw, _⟩ | ⟨hw, _⟩
    · rw [hw] at h
      simp only [Res.andThen, Res.ok.injEq] at h
      obtain ⟨rfl, rfl⟩ := h
      exact ⟨rfl, rfl, rfl, rfl, hm, rfl, rfl, hd⟩
    · rw [hw] at h; simp [Res.andThen] at h
    · rw [hw] at h; simp [Res.andThen] at h

/-- No step of the state machine refuses or meets the drive bound. -/
theorem dStep_ends (e : DE) :
    (∃ e', dStep e = .ok .progress e') ∨ dStep e = .ok .stall e ∨ (∃ c v e', dStep e = .raise c v e') ∨
      (∃ e', dStep e = .hang e') := by
  have code : ∀ v e, (∃ e', dCodeValue v e = .ok .progress e') ∨ (∃ c v' e', dCodeValue v e = .raise c v' e') ∨
      (∃ e', dCodeValue v e = .hang e') := by
    intro v e
    unfold dCodeValue
    split
    · exact .inr (.inl ⟨_, _, _, rfl⟩)
    · rename_i seq _
      rcases DE.sinkWrite_cases seq e with ⟨hw, _⟩ | ⟨hw, _⟩ | ⟨hw, _⟩ <;> rw [hw] <;> simp [Res.andThen]
  have byte : ∀ b e, (∃ e', dByteValue b e = .ok .progress e') ∨ (∃ c v' e', dByteValue b e = .raise c v' e') ∨
      (∃ e', dByteValue b e = .hang e') := by
    intro b e
    unfold dByteValue
    split
    · exact .inr (.inl ⟨_, _, _, rfl⟩)
    · rename_i m _
      rcases DE.sinkWrite_cases [b] (e.mint m b) with ⟨hw, _⟩ | ⟨hw, _⟩ | ⟨hw, _⟩ <;> rw [hw] <;> simp [Res.andThen]
  unfold dStep
  cases e.dstate with
  | expectingCode =>
    by_cases h : e.bitSource.length < e.codeWidth
    · exact .inr (.inl (dCode_stall e h))
    · show (∃ e', dCode e = .ok .progress e') ∨ dCode e = .ok .stall e ∨ (∃ c v e', dCode e = .raise c v e') ∨
        (∃ e', dCode e = .hang e')
      rw [dCode_take e (by omega)]
      rcases code (beVal (e.bitSource.take e.codeWidth)) { e with bitSource := e.bitSource.drop e.codeWidth }
        with h | h | h
      · exact .inl h
      · exact .inr (.inr (.inl h))
      · exact .inr (.inr (.inr h))
  | expectingByte =>
    by_cases h : e.bitSource.length < 8
    · exact .inr (.inl (dByte_stall e h))
    · show (∃ e', dByte e = .ok .progress e') ∨ dByte e = .ok .stall e ∨ (∃ c v e', dByte e = .raise c v e') ∨
        (∃ e', dByte e = .hang e')
      rw [dByte_take e (by omega)]
      rcases byte (BitVec.ofNat 8 (beVal (e.bitSource.take 8))) { e with bitSource := e.bitSource.drop 8 }
        with h | h | h
      · exact .inl h
      · exact .inr (.inr (.inl h))
      · exact .inr (.inr (.inr h))

/-- The turns a state may still need: its bits, and one for a code field of width 0. -/
def driveMeasure (e : DE) : Nat :=
  e.bitSource.length + (match e.dstate with | .expectingCode => 1 | .expectingByte => 0)

/-- Every progress step lowers the measure (R153: a finite queue is consumed). -/
theorem dStep_progress_measure {e e' : DE} (h : dStep e = .ok .progress e') : driveMeasure e' < driveMeasure e := by
  unfold dStep at h
  rcases hd : e.dstate with _ | _
  · rw [hd] at h
    by_cases hl : e.bitSource.length < e.codeWidth
    · have := dCode_stall e hl
      simp [this] at h
    · have h' : dCode e = .ok .progress e' := h
      rw [dCode_take e (by omega)] at h'
      obtain ⟨_, hb, hs, _⟩ := dCodeValue_ok h'
      simp only [driveMeasure, hd, hs, hb, List.length_drop]
      omega
  · rw [hd] at h
    by_cases hl : e.bitSource.length < 8
    · have := dByte_stall e hl
      simp [this] at h
    · have h' : dByte e = .ok .progress e' := h
      rw [dByte_take e (by omega)] at h'
      obtain ⟨_, hb, hs, _⟩ := dByteValue_ok h'
      simp only [driveMeasure, hd, hs, hb, List.length_drop]
      omega

theorem driveMeasure_lt_bound (e : DE) : driveMeasure e < driveBound e := by
  unfold driveMeasure driveBound
  cases e.dstate <;> simp

/-- With enough turns the number of turns does not matter. -/
theorem drive_bound_irrelevant (n m : Nat) (e : DE) (hn : driveMeasure e < n) (hm : driveMeasure e < m) :
    drive n e = drive m e := by
  induction n generalizing m e with
  | zero => omega
  | succ n ih =>
    cases m with
    | zero => omega
    | succ m =>
      rw [drive, drive]
      rcases dStep_ends e with ⟨e', h⟩ | h | ⟨c, v, e', h⟩ | ⟨e', h⟩ <;> rw [h]
      have := dStep_progress_measure h
      exact ih m e' (by omega) (by omega)

/-- D.DRIVE without its bound: R153's loop, one turn unrolled. -/
theorem dDrive_eq (e : DE) :
    dDrive e =
      match dStep e with
      | .ok .stall e1 => .ok () e1
      | .ok .progress e1 => dDrive e1
      | .raise c v e1 => .raise c v e1
      | .hang e1 => .hang e1
      | .refuse r => .refuse r
      | .fault f => .fault f := by
  have hb := driveMeasure_lt_bound e
  unfold dDrive
  obtain ⟨n, hn⟩ : ∃ n, driveBound e = n + 1 := ⟨e.bitSource.length + 1, rfl⟩
  rw [hn, drive]
  rcases dStep_ends e with ⟨e', h⟩ | h | ⟨c, v, e', h⟩ | ⟨e', h⟩ <;> rw [h]
  have := dStep_progress_measure h
  exact drive_bound_irrelevant n (driveBound e') e' (by omega) (driveMeasure_lt_bound e')

/-- Induction on D.DRIVE: what holds of a state whose step does not make progress, and of a state whenever it holds of
the state after its progress step, holds of every state. -/
theorem dDrive_induction {P : DE → Prop} (stop : ∀ e, (∀ e', dStep e ≠ .ok .progress e') → P e)
    (go : ∀ e e', dStep e = .ok .progress e' → P e' → P e) (e : DE) : P e := by
  suffices h : ∀ n e, driveMeasure e < n → P e from h _ e (Nat.lt_succ_self _)
  intro n
  induction n with
  | zero => intro e h; omega
  | succ n ih =>
    intro e h
    by_cases hp : ∃ e', dStep e = .ok .progress e'
    · obtain ⟨e', he⟩ := hp
      exact go e e' he (ih e' (by have := dStep_progress_measure he; omega))
    · exact stop e fun e' he => hp ⟨e', he⟩

/-- D.DRIVE never refuses and never meets its bound: it ends at a stall, at a fault, or in a SinkWrite (R153). -/
theorem dDrive_ends (e : DE) :
    (∃ e', dDrive e = .ok () e' ∧ dStep e' = .ok .stall e') ∨ (∃ c v e', dDrive e = .raise c v e') ∨
      (∃ e', dDrive e = .hang e') := by
  induction e using dDrive_induction with
  | stop e h =>
    rw [dDrive_eq]
    rcases dStep_ends e with ⟨e', h'⟩ | h' | ⟨c, v, e', h'⟩ | ⟨e', h'⟩
    · exact absurd h' (h e')
    all_goals rw [h']
    · exact .inl ⟨e, rfl, h'⟩
    · exact .inr (.inl ⟨c, v, e', rfl⟩)
    · exact .inr (.inr ⟨e', rfl⟩)
  | go e e' h ih =>
    rw [dDrive_eq, h]
    exact ih

/-- The fault of the drive bound is never raised. -/
theorem drive_ne_fault (e : DE) (f : Fault) : dDrive e ≠ .fault f := by
  rcases dDrive_ends e with ⟨e', h, _⟩ | ⟨c, v, e', h⟩ | ⟨e', h⟩ <;> simp [h]

end Sys2Proof.Machine
end

