-- ==== Sys2Proof/Laws/Memory.lean ====
section
/-! SUPPORT. The laws of the two keyed spaces: an inserted entry reads back, every other key reads as before (20_memory.md
R41, R42, R54), and every operation keeps the canonical form. -/

namespace Sys2Proof

section Maps

variable {κ α : Type} [DecidableEq κ] {lt : κ → κ → Bool}

@[simp] theorem FMap.find_nil (k : κ) : FMap.find ([] : FMap κ α) k = none := rfl

theorem FMap.find_store_same (m : FMap κ α) (k : κ) (a : α) : FMap.find (FMap.store lt m k a) k = some a := by
  induction m with
  | nil => simp [FMap.store, FMap.find]
  | cons p m ih =>
    obtain ⟨k', a'⟩ := p
    by_cases h : k = k'
    · simp [FMap.store, FMap.find, h]
    · by_cases hl : lt k k'
      · simp [FMap.store, FMap.find, h, hl]
      · simp [FMap.store, FMap.find, h, hl, Ne.symm h, ih]

theorem FMap.find_store_other (m : FMap κ α) {k j : κ} (a : α) (hj : j ≠ k) :
    FMap.find (FMap.store lt m k a) j = FMap.find m j := by
  induction m with
  | nil => simp [FMap.store, FMap.find, Ne.symm hj]
  | cons p m ih =>
    obtain ⟨k', a'⟩ := p
    by_cases h : k = k'
    · subst h
      simp [FMap.store, FMap.find, Ne.symm hj]
    · by_cases hl : lt k k'
      · simp [FMap.store, FMap.find, h, hl, Ne.symm hj]
      · simp [FMap.store, FMap.find, h, hl, ih]

/-- What a map reads after a store, in one line. -/
theorem FMap.find_store (m : FMap κ α) (k j : κ) (a : α) :
    FMap.find (FMap.store lt m k a) j = if j = k then some a else FMap.find m j := by
  split
  · subst_vars; exact find_store_same m _ a
  · exact find_store_other m a ‹_›

theorem FMap.length_store_absent (m : FMap κ α) (k : κ) (a : α) (h : FMap.find m k = none) :
    (FMap.store lt m k a).length = m.length + 1 := by
  induction m with
  | nil => rfl
  | cons p m ih =>
    obtain ⟨k', a'⟩ := p
    by_cases hk : k' = k
    · simp [FMap.find, hk] at h
    · simp only [FMap.find, hk, if_false] at h
      by_cases hl : lt k k'
      · simp [FMap.store, Ne.symm hk, hl]
      · simp [FMap.store, Ne.symm hk, hl, ih h]

/-- A store keeps the keys rising, in an order that compares any two different keys. -/
theorem FMap.rising_store (total : ∀ a b, a ≠ b → lt a b = false → lt b a = true) (m : FMap κ α) (k : κ) (a : α)
    (h : FMap.rising lt m = true) : FMap.rising lt (FMap.store lt m k a) = true := by
  induction m with
  | nil => rfl
  | cons p m ih =>
    obtain ⟨k', a'⟩ := p
    by_cases hk : k = k'
    · subst hk
      cases m with
      | nil => simp [FMap.store, FMap.rising]
      | cons q m => simpa [FMap.store, FMap.rising] using h
    · by_cases hl : lt k k'
      · simp [FMap.store, hk, hl, FMap.rising, h]
      · have hl' := total k k' hk (by simpa using hl)
        cases m with
        | nil => simp [FMap.store, hk, hl, FMap.rising, hl']
        | cons q m =>
          obtain ⟨k2, a2⟩ := q
          simp only [FMap.rising, Bool.and_eq_true] at h
          have hr := ih h.2
          simp only [FMap.store, hk, hl, if_false, Bool.false_eq_true]
          by_cases hk2 : k = k2
          · subst hk2
            simpa [FMap.store, FMap.rising, hl'] using hr
          · by_cases hl2 : lt k k2
            · simpa [FMap.store, hk2, hl2, FMap.rising, hl'] using h.2
            · simpa [FMap.store, hk2, hl2, FMap.rising, h.1] using hr

theorem FMap.rising_ofEntries (total : ∀ a b, a ≠ b → lt a b = false → lt b a = true) (l : List (κ × α)) :
    FMap.rising lt (FMap.ofEntries lt l) = true := by
  induction l with
  | nil => rfl
  | cons p l ih => exact rising_store total _ _ _ ih

end Maps

/-- The order of ED's keys compares any two. -/
theorem seqLt_total (s t : ByteSeq) (h : s ≠ t) (hl : seqLt s t = false) : seqLt t s = true := by
  induction s generalizing t with
  | nil =>
    cases t with
    | nil => exact absurd rfl h
    | cons b t => simp [seqLt] at hl
  | cons a s ih =>
    cases t with
    | nil => rfl
    | cons b t =>
      simp only [seqLt, Bool.or_eq_false_iff, decide_eq_false_iff_not, Nat.not_lt, Bool.and_eq_false_iff] at hl
      by_cases hab : a = b
      · subst hab
        have hst : s ≠ t := fun e => h (by rw [e])
        simp [seqLt, ih t hst (by simpa using hl.2)]
      · have : a.toNat ≠ b.toNat := fun e => hab (BitVec.eq_of_toNat_eq e)
        simp only [seqLt, Bool.or_eq_true, decide_eq_true_eq]
        left
        omega

/-- The order of DD's keys compares any two. -/
theorem codeLt_total (c d : Code) (h : c ≠ d) (hl : codeLt c d = false) : codeLt d c = true := by
  have : c.toNat ≠ d.toNat := fun e => h (BitVec.eq_of_toNat_eq e)
  simp only [codeLt, decide_eq_false_iff_not, decide_eq_true_eq] at *
  omega

theorem edLookup_insert (d : EncDict) (s t : ByteSeq) (c : Code) :
    edLookup (edInsert d s c) t = if t = s then some c else edLookup d t := FMap.find_store d s t c

theorem ddLookup_insert (d : DecDict) (c k : Code) (s : ByteSeq) :
    ddLookup (ddInsert d c s) k = if k = c then some s else ddLookup d k := FMap.find_store d c k s

theorem edWf_insert (d : EncDict) (s : ByteSeq) (c : Code) (h : edWf d = true) : edWf (edInsert d s c) = true :=
  FMap.rising_store seqLt_total d s c h

theorem ddWf_insert (d : DecDict) (c : Code) (s : ByteSeq) (h : ddWf d = true) : ddWf (ddInsert d c s) = true :=
  FMap.rising_store codeLt_total d c s h

theorem edWf_ofEntries (l : List (ByteSeq × Code)) : edWf (FMap.ofEntries seqLt l) = true :=
  FMap.rising_ofEntries seqLt_total l

theorem ddWf_ofEntries (l : List (Code × ByteSeq)) : ddWf (FMap.ofEntries codeLt l) = true :=
  FMap.rising_ofEntries codeLt_total l

theorem edInsert_length (d : EncDict) (s : ByteSeq) (c : Code) (h : edLookup d s = none) :
    (edInsert d s c).length = d.length + 1 := FMap.length_store_absent d s c h

end Sys2Proof
end

