-- ==== Sys2Proof/Laws/Engine.lean ====
section
/-! SUPPORT. The gate, the frame of a beat, and the one inversion of `exec` and of `step`: everything a step of the machine
can do (60_exceptions.md R178 to R180). -/

namespace Sys2Proof.Machine

/-! ### The gate -/

theorem Session.gate_busy {t : Session} (h : t.hung = true) : t.gate = .busy := by simp [Session.gate, h]

theorem Session.gate_faulted {t : Session} (h : t.hung = false) (hf : t.fault ≠ .noFault) : t.gate = .faulted := by
  simp [Session.gate, h, hf]

theorem Session.gate_closed {t : Session} (h : t.hung = false) (hf : t.fault = .noFault) (hc : t.closed = true) :
    t.gate = .closed := by simp [Session.gate, h, hf, hc]

theorem Session.gate_admitted {t : Session} (h : t.hung = false) (hf : t.fault = .noFault) (hc : t.closed = false) :
    t.gate = .admitted := by simp [Session.gate, h, hf, hc]

/-- What each answer of the gate says of the flags. -/
theorem Session.gate_inv (t : Session) :
    (t.gate = .busy ∧ t.hung = true) ∨
    (t.gate = .faulted ∧ t.hung = false ∧ t.fault ≠ .noFault) ∨
    (t.gate = .closed ∧ t.hung = false ∧ t.fault = .noFault ∧ t.closed = true) ∨
    (t.gate = .admitted ∧ t.hung = false ∧ t.fault = .noFault ∧ t.closed = false) := by
  cases hh : t.hung
  · by_cases hf : t.fault = .noFault
    · cases hc : t.closed
      · exact .inr (.inr (.inr ⟨gate_admitted hh hf hc, rfl, hf, rfl⟩))
      · exact .inr (.inr (.inl ⟨gate_closed hh hf hc, rfl, hf, rfl⟩))
    · exact .inr (.inl ⟨gate_faulted hh hf, rfl, hf⟩)
  · exact .inl ⟨gate_busy hh, rfl⟩

/-! ### A beat that the gate lets through, or not -/

section CEBeats

variable {a : Bool} {body : CE → Res CE Unit} {e : CE}

theorem CE.beat_faulted (h : e.session.hung = false) (hf : e.session.fault ≠ .noFault) :
    e.beat a body = .next { e with session := e.session.repeatFault a } := by
  simp [CE.beat, Session.gate_faulted h hf]

theorem CE.beat_closed (h : e.session.hung = false) (hf : e.session.fault = .noFault) (hc : e.session.closed = true) :
    e.beat a body = .next { e with session := e.session.latch a .sessionClosed 0 } := by
  simp only [CE.beat, Session.gate_closed h hf hc]
  rw [CE.takeFault_plain _ _ _ _ rfl]

theorem CE.beat_admitted (h : e.session.hung = false) (hf : e.session.fault = .noFault) (hc : e.session.closed = false) :
    e.beat a body = CE.finish a (body e) := by
  simp only [CE.beat, Session.gate_admitted h hf hc]

/-- Everything a beat of CE that gives a next state can have done. -/
theorem CE.beat_next {e' : CE} (h : e.beat a body = .next e') :
    e.session.hung = false ∧
    ((e.session.fault ≠ .noFault ∧ e' = { e with session := e.session.repeatFault a }) ∨
     (e.session.fault = .noFault ∧ e.session.closed = true ∧
       e' = { e with session := e.session.latch a .sessionClosed 0 }) ∨
     (e.session.fault = .noFault ∧ e.session.closed = false ∧
       (body e = .ok () e' ∨ (∃ c v e1, body e = .raise c v e1 ∧ e' = e1.takeFault a c v) ∨
         ∃ e1, body e = .hang e1 ∧ e' = { e1 with session := { e1.session with hung := true } }))) := by
  rcases e.session.gate_inv with ⟨ha, hh⟩ | ⟨_, hh, hf⟩ | ⟨_, hh, hf, hc⟩ | ⟨_, hh, hf, hc⟩
  · simp [CE.beat, ha] at h
  · rw [CE.beat_faulted hh hf] at h
    exact ⟨hh, .inl ⟨hf, by simpa using h.symm⟩⟩
  · rw [CE.beat_closed hh hf hc] at h
    exact ⟨hh, .inr (.inl ⟨hf, hc, by simpa using h.symm⟩)⟩
  · rw [CE.beat_admitted hh hf hc] at h
    refine ⟨hh, .inr (.inr ⟨hf, hc, ?_⟩)⟩
    rcases hb : body e with ⟨_, e1⟩ | ⟨c, v, e1⟩ | ⟨e1⟩ | ⟨r⟩ | ⟨f⟩ <;> rw [hb] at h <;>
      simp only [CE.finish, Host.Outcome.next.injEq, reduceCtorEq] at h
    · exact .inl (by rw [h])
    · exact .inr (.inl ⟨c, v, e1, rfl, h.symm⟩)
    · exact .inr (.inr ⟨e1, rfl, h.symm⟩)

end CEBeats

section DEBeats

variable {a : Bool} {body : DE → Res DE Unit} {e : DE}

theorem DE.beat_faulted (h : e.session.hung = false) (hf : e.session.fault ≠ .noFault) :
    e.beat a body = .next { e with session := e.session.repeatFault a } := by
  simp [DE.beat, Session.gate_faulted h hf]

theorem DE.beat_closed (h : e.session.hung = false) (hf : e.session.fault = .noFault) (hc : e.session.closed = true) :
    e.beat a body = .next { e with session := e.session.latch a .sessionClosed 0 } := by
  simp only [DE.beat, Session.gate_closed h hf hc]
  rw [DE.takeFault_plain _ _ _ _ rfl]

theorem DE.beat_admitted (h : e.session.hung = false) (hf : e.session.fault = .noFault) (hc : e.session.closed = false) :
    e.beat a body = DE.finish a (body e) := by
  simp only [DE.beat, Session.gate_admitted h hf hc]

/-- Everything a beat of DE that gives a next state can have done. -/
theorem DE.beat_next {e' : DE} (h : e.beat a body = .next e') :
    e.session.hung = false ∧
    ((e.session.fault ≠ .noFault ∧ e' = { e with session := e.session.repeatFault a }) ∨
     (e.session.fault = .noFault ∧ e.session.closed = true ∧
       e' = { e with session := e.session.latch a .sessionClosed 0 }) ∨
     (e.session.fault = .noFault ∧ e.session.closed = false ∧
       (body e = .ok () e' ∨ (∃ c v e1, body e = .raise c v e1 ∧ e' = e1.takeFault a c v) ∨
         ∃ e1, body e = .hang e1 ∧ e' = { e1 with session := { e1.session with hung := true } }))) := by
  rcases e.session.gate_inv with ⟨ha, hh⟩ | ⟨_, hh, hf⟩ | ⟨_, hh, hf, hc⟩ | ⟨_, hh, hf, hc⟩
  · simp [DE.beat, ha] at h
  · rw [DE.beat_faulted hh hf] at h
    exact ⟨hh, .inl ⟨hf, by simpa using h.symm⟩⟩
  · rw [DE.beat_closed hh hf hc] at h
    exact ⟨hh, .inr (.inl ⟨hf, hc, by simpa using h.symm⟩)⟩
  · rw [DE.beat_admitted hh hf hc] at h
    refine ⟨hh, .inr (.inr ⟨hf, hc, ?_⟩)⟩
    rcases hb : body e with ⟨_, e1⟩ | ⟨c, v, e1⟩ | ⟨e1⟩ | ⟨r⟩ | ⟨f⟩ <;> rw [hb] at h <;>
      simp only [DE.finish, Host.Outcome.next.injEq, reduceCtorEq] at h
    · exact .inl (by rw [h])
    · exact .inr (.inl ⟨c, v, e1, rfl, h.symm⟩)
    · exact .inr (.inr ⟨e1, rfl, h.symm⟩)

end DEBeats

/-! ### The canonical form of the keyed spaces -/

theorem CE.unspecified_wf (e : CE) : edWf e.unspecified.encDict = true := edWf_ofEntries _

theorem DE.unspecified_wf (e : DE) : ddWf e.unspecified.decDict = true := ddWf_ofEntries _

theorem CE.mint_wf (e : CE) (m : Code) (h : edWf e.encDict = true) : edWf (e.mint m).encDict = true :=
  edWf_insert _ _ _ h

theorem DE.mint_wf (e : DE) (m : Code) (b : Byte) (h : ddWf e.decDict = true) : ddWf (e.mint m b).decDict = true :=
  ddWf_insert _ _ _ h

/-- The memory of the reset state is in canonical form. -/
theorem State.reset_wf : Memory.wf State.reset = true := rfl

/-! ### Steps of one engine as steps of the machine -/

theorem onCE_next {f : CE → Host.Outcome CE Fault Refusal} {s t : State} :
    onCE f s = .next t ↔ ∃ e, f s.ce = .next e ∧ t = { s with ce := e } := by
  unfold onCE
  rcases h : f s.ce with e | r | r <;> simp [eq_comm]

theorem onDE_next {f : DE → Host.Outcome DE Fault Refusal} {s t : State} :
    onDE f s = .next t ↔ ∃ e, f s.de = .next e ∧ t = { s with de := e } := by
  unfold onDE
  rcases h : f s.de with e | r | r <;> simp [eq_comm]

/-! ### The bodies of the instructions -/

/-- The bodies a beat of CE can have. -/
inductive CEBody : Bool → (CE → Res CE Unit) → Prop where
  | data (b : Byte) : CEBody false (cStep b)
  | endcall : CEBody true cEndcallBody
  | finalize : CEBody true cFinalizeBody
  | reserved : CEBody true ceReserved

/-- The bodies a beat of DE, or a field arriving at it, can have. -/
inductive DEBody : Bool → (DE → Res DE Unit) → Prop where
  | receive (bits : Bits) : DEBody false (dReceive bits)
  | endcall : DEBody true dEndcallBody
  | finalize : DEBody true dFinalizeBody
  | reserved : DEBody true deReserved

@[simp] theorem beatOp_mkBeat (op : BitVec 2) (d : Byte) : beatOp (mkBeat op d) = op := by
  apply BitVec.eq_of_toNat_eq
  have hd := d.isLt
  have ho := op.isLt
  simp only [beatOp, mkBeat, BitVec.extractLsb'_toNat, BitVec.toNat_append, Nat.shiftRight_eq_div_pow]
  rw [← Nat.shiftLeft_add_eq_or_of_lt hd, Nat.shiftLeft_eq]
  omega

@[simp] theorem beatData_mkBeat (op : BitVec 2) (d : Byte) : beatData (mkBeat op d) = d := by
  apply BitVec.eq_of_toNat_eq
  have hd := d.isLt
  have ho := op.isLt
  simp only [beatData, mkBeat, BitVec.extractLsb'_toNat, BitVec.toNat_append, Nat.shiftRight_eq_div_pow]
  rw [← Nat.shiftLeft_add_eq_or_of_lt hd, Nat.shiftLeft_eq]
  omega

/-- D.DATA's body is the arrival of eight bits (R154). -/
theorem dData_body (b : Byte) : (fun e => dDrive (bsrPush [b] e)) = dReceive (beBits b.toNat 8) := by
  funext e
  rw [bsrPush_singleton]
  rfl

/-- The inversion of `exec`: every instruction is one beat of one engine, with one of these bodies. -/
theorem exec_shape (i : Instr) (s : State) :
    (i.port = .ce ∧ ∃ body, CEBody i.answered body ∧ exec i s = onCE (CE.beat i.answered body) s) ∨
    (i.port = .de ∧ ∃ body, DEBody i.answered body ∧ exec i s = onDE (DE.beat i.answered body) s) := by
  cases i with
  | cData b =>
    have ha : Instr.answered (.cData b) = false := by simp [Instr.answered, encode]
    exact .inl ⟨rfl, cStep b, by rw [ha]; exact .data b, by rw [ha]; rfl⟩
  | dData b =>
    have ha : Instr.answered (.dData b) = false := by simp [Instr.answered, encode]
    exact .inr ⟨rfl, dReceive (beBits b.toNat 8), by rw [ha]; exact .receive _, by rw [ha, ← dData_body]; rfl⟩
  | cEndcall => exact .inl ⟨rfl, _, .endcall, rfl⟩
  | cFinalize => exact .inl ⟨rfl, _, .finalize, rfl⟩
  | dEndcall => exact .inr ⟨rfl, _, .endcall, rfl⟩
  | dFinalize => exact .inr ⟨rfl, _, .finalize, rfl⟩
  | cRsvdEndcallNz d =>
    have ha : Instr.answered (.cRsvdEndcallNz d) = true := by simp [Instr.answered, encode]
    exact .inl ⟨rfl, ceReserved, by rw [ha]; exact .reserved, by rw [ha]; rfl⟩
  | cRsvdFinalizeNz d =>
    have ha : Instr.answered (.cRsvdFinalizeNz d) = true := by simp [Instr.answered, encode]
    exact .inl ⟨rfl, ceReserved, by rw [ha]; exact .reserved, by rw [ha]; rfl⟩
  | cRsvdOp3 d =>
    have ha : Instr.answered (.cRsvdOp3 d) = true := by simp [Instr.answered, encode]
    exact .inl ⟨rfl, ceReserved, by rw [ha]; exact .reserved, by rw [ha]; rfl⟩
  | dRsvdEndcallNz d =>
    have ha : Instr.answered (.dRsvdEndcallNz d) = true := by simp [Instr.answered, encode]
    exact .inr ⟨rfl, deReserved, by rw [ha]; exact .reserved, by rw [ha]; rfl⟩
  | dRsvdFinalizeNz d =>
    have ha : Instr.answered (.dRsvdFinalizeNz d) = true := by simp [Instr.answered, encode]
    exact .inr ⟨rfl, deReserved, by rw [ha]; exact .reserved, by rw [ha]; rfl⟩
  | dRsvdOp3 d =>
    have ha : Instr.answered (.dRsvdOp3 d) = true := by simp [Instr.answered, encode]
    exact .inr ⟨rfl, deReserved, by rw [ha]; exact .reserved, by rw [ha]; rfl⟩
  | _ => exact .inr ⟨rfl, dReceive _, .receive _, rfl⟩

/-- A field of the stream is the arrival of its bits at DE. -/
theorem exec_field (i : Instr) (s : State) (k : FieldKind) (bits : Bits) (h : encode i = .field k bits) :
    exec i s = onDE (DE.beat false (dReceive bits)) s := by
  cases i <;> simp only [encode, reduceCtorEq, Encoded.field.injEq] at h <;> obtain ⟨_, rfl⟩ := h <;> rfl

/-- The inversion of `step`: a step that gives a next state found nothing to do, reset an engine, attached a sink, or
executed an instruction. -/
theorem step_next {s t : State} (h : step s = .next t) :
    t = s ∨ ∃ rest, (∃ p, t = resetEngine p { s with host := rest }) ∨
      (∃ p k, t = attachSink p k { s with host := rest }) ∨ ∃ i, exec i { s with host := rest } = .next t := by
  unfold step fetch at h
  rcases hp : pickEvent s s.host with _ | ⟨ev, rest⟩
  · rw [hp] at h
    exact .inl (by simpa using h.symm)
  · rw [hp] at h
    refine .inr ⟨rest, ?_⟩
    rcases ev with w | p | ⟨p, k⟩
    · rcases hd : decode w with e | i
      · simp [hd] at h
      · simp only [hd] at h
        exact .inr (.inr ⟨i, h⟩)
    · exact .inl ⟨p, by simpa using h.symm⟩
    · exact .inr (.inl ⟨p, k, by simpa using h.symm⟩)

end Sys2Proof.Machine
end

