-- ==== Sys2Proof/Laws/PerInstr.lean ====
section
/-! SUPPORT. Per-instruction statements, one lemma per constructor. `EncodedWidth`: the encoded word of every
instruction has the number of bits and stands on the port its opcode-table row gives it. -/

namespace Sys2Proof.Laws

/-- The "width" of each row of spec/opcode_table.json. -/
def EncodedWidth.rowWidth : Instr → Nat
  | .cData _ => 10
  | .cEndcall => 10
  | .cFinalize => 10
  | .dData _ => 10
  | .dEndcall => 10
  | .dFinalize => 10
  | .cRsvdEndcallNz _ => 10
  | .cRsvdFinalizeNz _ => 10
  | .cRsvdOp3 _ => 10
  | .dRsvdEndcallNz _ => 10
  | .dRsvdFinalizeNz _ => 10
  | .dRsvdOp3 _ => 10
  | .codeW0 => 0
  | .codeW1 _ => 1
  | .codeW2 _ => 2
  | .codeW3 _ => 3
  | .codeW4 _ => 4
  | .codeW5 _ => 5
  | .codeW6 _ => 6
  | .codeW7 _ => 7
  | .codeW8 _ => 8
  | .codeW9 _ => 9
  | .codeW10 _ => 10
  | .codeW11 _ => 11
  | .codeW12 _ => 12
  | .codeW13 _ => 13
  | .codeW14 _ => 14
  | .codeW15 _ => 15
  | .codeW16 _ => 16
  | .literal _ => 8
  | .tailW1 _ => 1
  | .tailW2 _ => 2
  | .tailW3 _ => 3
  | .tailW4 _ => 4
  | .tailW5 _ => 5
  | .tailW6 _ => 6
  | .tailW7 _ => 7
  | .tailW8 _ => 8
  | .tailW9 _ => 9
  | .tailW10 _ => 10
  | .tailW11 _ => 11
  | .tailW12 _ => 12
  | .tailW13 _ => 13
  | .tailW14 _ => 14
  | .tailW15 _ => 15
  | .tailW16 _ => 16
  | .padW1 => 1
  | .padW2 => 2
  | .padW3 => 3
  | .padW4 => 4
  | .padW5 => 5
  | .padW6 => 6
  | .padW7 => 7

/-- The number of bits of an encoded word: a beat has ten (R68), a field its own (R61). -/
def EncodedWidth.bitsOf : Encoded → Nat
  | .beat _ _ => 10
  | .field _ bits => bits.length

/-- The encoded word of `i` has its row's width. -/
def EncodedWidth.Statement (i : Instr) : Prop :=
  EncodedWidth.bitsOf (encode i) = EncodedWidth.rowWidth i

theorem EncodedWidth.cData (b : BitVec 8) : EncodedWidth.Statement (.cData b) := rfl
theorem EncodedWidth.cEndcall : EncodedWidth.Statement .cEndcall := rfl
theorem EncodedWidth.cFinalize : EncodedWidth.Statement .cFinalize := rfl
theorem EncodedWidth.dData (b : BitVec 8) : EncodedWidth.Statement (.dData b) := rfl
theorem EncodedWidth.dEndcall : EncodedWidth.Statement .dEndcall := rfl
theorem EncodedWidth.dFinalize : EncodedWidth.Statement .dFinalize := rfl
theorem EncodedWidth.cRsvdEndcallNz (d : BitVec 8) : EncodedWidth.Statement (.cRsvdEndcallNz d) := rfl
theorem EncodedWidth.cRsvdFinalizeNz (d : BitVec 8) : EncodedWidth.Statement (.cRsvdFinalizeNz d) := rfl
theorem EncodedWidth.cRsvdOp3 (d : BitVec 8) : EncodedWidth.Statement (.cRsvdOp3 d) := rfl
theorem EncodedWidth.dRsvdEndcallNz (d : BitVec 8) : EncodedWidth.Statement (.dRsvdEndcallNz d) := rfl
theorem EncodedWidth.dRsvdFinalizeNz (d : BitVec 8) : EncodedWidth.Statement (.dRsvdFinalizeNz d) := rfl
theorem EncodedWidth.dRsvdOp3 (d : BitVec 8) : EncodedWidth.Statement (.dRsvdOp3 d) := rfl
theorem EncodedWidth.codeW0 : EncodedWidth.Statement .codeW0 := rfl
theorem EncodedWidth.codeW1 (c : BitVec 1) : EncodedWidth.Statement (.codeW1 c) := rfl
theorem EncodedWidth.codeW2 (c : BitVec 2) : EncodedWidth.Statement (.codeW2 c) := rfl
theorem EncodedWidth.codeW3 (c : BitVec 3) : EncodedWidth.Statement (.codeW3 c) := rfl
theorem EncodedWidth.codeW4 (c : BitVec 4) : EncodedWidth.Statement (.codeW4 c) := rfl
theorem EncodedWidth.codeW5 (c : BitVec 5) : EncodedWidth.Statement (.codeW5 c) := rfl
theorem EncodedWidth.codeW6 (c : BitVec 6) : EncodedWidth.Statement (.codeW6 c) := rfl
theorem EncodedWidth.codeW7 (c : BitVec 7) : EncodedWidth.Statement (.codeW7 c) := rfl
theorem EncodedWidth.codeW8 (c : BitVec 8) : EncodedWidth.Statement (.codeW8 c) := rfl
theorem EncodedWidth.codeW9 (c : BitVec 9) : EncodedWidth.Statement (.codeW9 c) := rfl
theorem EncodedWidth.codeW10 (c : BitVec 10) : EncodedWidth.Statement (.codeW10 c) := rfl
theorem EncodedWidth.codeW11 (c : BitVec 11) : EncodedWidth.Statement (.codeW11 c) := rfl
theorem EncodedWidth.codeW12 (c : BitVec 12) : EncodedWidth.Statement (.codeW12 c) := rfl
theorem EncodedWidth.codeW13 (c : BitVec 13) : EncodedWidth.Statement (.codeW13 c) := rfl
theorem EncodedWidth.codeW14 (c : BitVec 14) : EncodedWidth.Statement (.codeW14 c) := rfl
theorem EncodedWidth.codeW15 (c : BitVec 15) : EncodedWidth.Statement (.codeW15 c) := rfl
theorem EncodedWidth.codeW16 (c : BitVec 16) : EncodedWidth.Statement (.codeW16 c) := rfl
theorem EncodedWidth.literal (b : BitVec 8) : EncodedWidth.Statement (.literal b) := rfl
theorem EncodedWidth.tailW1 (c : BitVec 1) : EncodedWidth.Statement (.tailW1 c) := rfl
theorem EncodedWidth.tailW2 (c : BitVec 2) : EncodedWidth.Statement (.tailW2 c) := rfl
theorem EncodedWidth.tailW3 (c : BitVec 3) : EncodedWidth.Statement (.tailW3 c) := rfl
theorem EncodedWidth.tailW4 (c : BitVec 4) : EncodedWidth.Statement (.tailW4 c) := rfl
theorem EncodedWidth.tailW5 (c : BitVec 5) : EncodedWidth.Statement (.tailW5 c) := rfl
theorem EncodedWidth.tailW6 (c : BitVec 6) : EncodedWidth.Statement (.tailW6 c) := rfl
theorem EncodedWidth.tailW7 (c : BitVec 7) : EncodedWidth.Statement (.tailW7 c) := rfl
theorem EncodedWidth.tailW8 (c : BitVec 8) : EncodedWidth.Statement (.tailW8 c) := rfl
theorem EncodedWidth.tailW9 (c : BitVec 9) : EncodedWidth.Statement (.tailW9 c) := rfl
theorem EncodedWidth.tailW10 (c : BitVec 10) : EncodedWidth.Statement (.tailW10 c) := rfl
theorem EncodedWidth.tailW11 (c : BitVec 11) : EncodedWidth.Statement (.tailW11 c) := rfl
theorem EncodedWidth.tailW12 (c : BitVec 12) : EncodedWidth.Statement (.tailW12 c) := rfl
theorem EncodedWidth.tailW13 (c : BitVec 13) : EncodedWidth.Statement (.tailW13 c) := rfl
theorem EncodedWidth.tailW14 (c : BitVec 14) : EncodedWidth.Statement (.tailW14 c) := rfl
theorem EncodedWidth.tailW15 (c : BitVec 15) : EncodedWidth.Statement (.tailW15 c) := rfl
theorem EncodedWidth.tailW16 (c : BitVec 16) : EncodedWidth.Statement (.tailW16 c) := rfl
theorem EncodedWidth.padW1 : EncodedWidth.Statement .padW1 := rfl
theorem EncodedWidth.padW2 : EncodedWidth.Statement .padW2 := rfl
theorem EncodedWidth.padW3 : EncodedWidth.Statement .padW3 := rfl
theorem EncodedWidth.padW4 : EncodedWidth.Statement .padW4 := rfl
theorem EncodedWidth.padW5 : EncodedWidth.Statement .padW5 := rfl
theorem EncodedWidth.padW6 : EncodedWidth.Statement .padW6 := rfl
theorem EncodedWidth.padW7 : EncodedWidth.Statement .padW7 := rfl

end Sys2Proof.Laws
end

