-- ==== Sys2Proof/Laws/Run.lean ====
section
/-! SUPPORT. The end of a run (70_reset_and_hazards.md R203): what each kind of response ends, and how the end reads off a
session in each condition of its registers. -/

namespace Sys2Proof.Machine

open Sys2Proof

/-! ### The end a response brings -/

section
variable {i : Instr} {t u : Session}

theorem responseEnd_none (h : u.responses = t.responses) : responseEnd i t u = none := by
  simp [responseEnd, h]

theorem responseEnd_ok {n : Nat} (h : u.responses = t.responses ++ [.ok n]) :
    responseEnd i t u = if i.finalizes then some .final else none := by
  simp [responseEnd, h]

theorem responseEnd_err {c : Cause} {v : BitVec 16} (h : u.responses = t.responses ++ [.err c v]) :
    responseEnd i t u = some .faulted := by
  simp [responseEnd, h]

end

/-! ### The end a session has reached -/

theorem Session.runEnd_open {t : Session} (hf : t.fault = .noFault) (hc : t.closed = false) : t.runEnd = none := by
  simp [Session.runEnd, hf, hc]

theorem Session.runEnd_closed {t : Session} (hf : t.fault = .noFault) (hc : t.closed = true) : t.runEnd = some .final := by
  simp [Session.runEnd, hf, hc]

theorem Session.runEnd_sessionClosed {t : Session} (hf : t.fault = .sessionClosed) : t.runEnd = some .final := by
  simp [Session.runEnd, hf]

theorem Session.runEnd_latched {t : Session} (hf : t.fault ≠ .noFault) (hs : t.fault ≠ .sessionClosed) :
    t.runEnd = if t.responses.any Response.isErr then some .faulted else none := by
  simp [Session.runEnd, hf, hs]

@[simp] theorem Session.runEnd_fresh (k : Sink) (n : Nat) : (Session.fresh k n).runEnd = none := rfl

@[simp] theorem Session.errsFaulted_fresh (k : Sink) (n : Nat) : (Session.fresh k n).errsFaulted := fun _ => rfl

/-- A final state is a run's end, and never a faulted one (R180, R203). -/
theorem Session.final_runEnd {t : Session} (h : t.final) : t.runEnd = some .final ∧ ¬ t.faulted := by
  have he := Session.runEnd_closed h.2 h.1
  exact ⟨he, by simp [Session.faulted, he]⟩

/-- A faulted end has a fault latched (R203). -/
theorem Session.faulted_fault {t : Session} (h : t.faulted) : t.fault ≠ .noFault ∧ t.fault ≠ .sessionClosed := by
  unfold Session.faulted Session.runEnd at h
  split at h
  · split at h <;> simp at h
  · split at h
    · simp at h
    · exact ⟨by assumption, by assumption⟩

/-- An engine of the other port draws no response, so its run ends by no instruction of this one. -/
theorem responseEnd_other {i : Instr} {s t : State} {p : Port} (h : t.sessionAt p = s.sessionAt p) :
    responseEnd i (s.sessionAt p) (t.sessionAt p) = none := responseEnd_none (by rw [h])

/-- Running to the end: what the first instruction does, and then either the run has ended or it goes on. -/
theorem runToEnd_cons {p : Port} {i : Instr} {rest : List Instr} {s s' : State} (h : exec i s = .next s') :
    runToEnd p (i :: rest) s =
      match responseEnd i (s.sessionAt p) (s'.sessionAt p) with
      | some r => .next (some r, s')
      | none => runToEnd p rest s' := by
  rw [runToEnd, h] <;> rfl

/-- A run that is followed to a next state executed its first instruction. -/
theorem runToEnd_cons_inv {p : Port} {i : Instr} {rest : List Instr} {s t : State} {r : Option RunEnd}
    (h : runToEnd p (i :: rest) s = .next (r, t)) : ∃ s', exec i s = .next s' := by
  unfold runToEnd at h
  split at h
  · exact ⟨_, by assumption⟩
  · cases h
  · cases h

end Sys2Proof.Machine
end

