-- ==== Sys2Proof/Tests/Slice0.lean ====
section
/-! SUPPORT. Tests: words written out from 30_encoding.md, single steps with the results of 95_test_vectors.md, and one
witness for the hypotheses of each statement that has any. Bits are written 0 and 1, oldest first. -/

namespace Sys2Proof.Tests

open Sys2Proof Sys2Proof.Machine

/-- A bit sequence as the spec writes it. -/
def w (l : List Nat) : Bits := l.map (fun n => n == 1)

/-- What is seen of CE in a next state. -/
def ceSees {α : Type} (f : CE → α) (o : Host.Outcome State Fault Refusal) : Option α :=
  match o with
  | .next s => some (f s.ce)
  | _ => none

/-- What is seen of DE in a next state. -/
def deSees {α : Type} (f : DE → α) (o : Host.Outcome State Fault Refusal) : Option α :=
  match o with
  | .next s => some (f s.de)
  | _ => none

/-- Both the fault latched and its value, with OUT and the responses. -/
def faultOf (t : Session) : Cause × BitVec 16 × ByteSeq × List Response := (t.fault, t.faultValue, t.out, t.responses)

/-! ### Well-formedness: each check refuses an ill-formed term (R63, R69, R75) -/

theorem test_ill_formed_beats :
    (Instr.cRsvdEndcallNz 0).wellFormed = false ∧ (Instr.cRsvdFinalizeNz 0).wellFormed = false ∧
    (Instr.dRsvdEndcallNz 0).wellFormed = false ∧ (Instr.dRsvdFinalizeNz 0).wellFormed = false := by decide

theorem test_ill_formed_tails :
    (Instr.tailW1 0).wellFormed = false ∧
    (Instr.tailW2 0).wellFormed = false ∧
    (Instr.tailW3 0).wellFormed = false ∧
    (Instr.tailW4 0).wellFormed = false ∧
    (Instr.tailW5 0).wellFormed = false ∧
    (Instr.tailW6 0).wellFormed = false ∧
    (Instr.tailW7 0).wellFormed = false ∧
    (Instr.tailW8 0).wellFormed = false ∧
    (Instr.tailW9 0).wellFormed = false ∧
    (Instr.tailW10 0).wellFormed = false ∧
    (Instr.tailW11 0).wellFormed = false ∧
    (Instr.tailW12 0).wellFormed = false ∧
    (Instr.tailW13 0).wellFormed = false ∧
    (Instr.tailW14 0).wellFormed = false ∧
    (Instr.tailW15 0).wellFormed = false ∧
    (Instr.tailW16 0).wellFormed = false := by
  repeat' refine And.intro ?_ ?_
  all_goals decide

theorem test_well_formed_at_the_edges :
    (Instr.cRsvdEndcallNz 1).wellFormed = true ∧ (Instr.dRsvdFinalizeNz 255).wellFormed = true ∧
    (Instr.cRsvdOp3 0).wellFormed = true ∧ (Instr.tailW1 1).wellFormed = true ∧ Instr.codeW0.wellFormed = true := by
  repeat' refine And.intro ?_ ?_
  all_goals decide

/-! ### Decoding, every row, from words written out (R61 to R64, R68, R69) -/

theorem test_decode_ce_beats :
    decode (.beat .ce 0b00_01100001) = .ok (.cData 0x61) ∧ decode (.beat .ce 0b00_11111111) = .ok (.cData 0xFF) ∧
    decode (.beat .ce 0b01_00000000) = .ok .cEndcall ∧ decode (.beat .ce 0b10_00000000) = .ok .cFinalize ∧
    decode (.beat .ce 0b01_00000001) = .ok (.cRsvdEndcallNz 1) ∧
    decode (.beat .ce 0b01_11111111) = .ok (.cRsvdEndcallNz 0xFF) ∧
    decode (.beat .ce 0b10_00000001) = .ok (.cRsvdFinalizeNz 1) ∧
    decode (.beat .ce 0b10_11111111) = .ok (.cRsvdFinalizeNz 0xFF) ∧
    decode (.beat .ce 0b11_00000000) = .ok (.cRsvdOp3 0) ∧ decode (.beat .ce 0b11_11111111) = .ok (.cRsvdOp3 0xFF) := by
  repeat' constructor

theorem test_decode_de_beats :
    decode (.beat .de 0b00_10110000) = .ok (.dData 0xB0) ∧ decode (.beat .de 0b00_11111111) = .ok (.dData 0xFF) ∧
    decode (.beat .de 0b01_00000000) = .ok .dEndcall ∧ decode (.beat .de 0b10_00000000) = .ok .dFinalize ∧
    decode (.beat .de 0b01_00000001) = .ok (.dRsvdEndcallNz 1) ∧
    decode (.beat .de 0b01_11111111) = .ok (.dRsvdEndcallNz 0xFF) ∧
    decode (.beat .de 0b10_00000001) = .ok (.dRsvdFinalizeNz 1) ∧
    decode (.beat .de 0b10_11111111) = .ok (.dRsvdFinalizeNz 0xFF) ∧
    decode (.beat .de 0b11_00000000) = .ok (.dRsvdOp3 0) ∧ decode (.beat .de 0b11_11111111) = .ok (.dRsvdOp3 0xFF) := by
  repeat' constructor

theorem test_decode_codes_0_to_8 :
    decode (.field .code (w [])) = .ok .codeW0 ∧
    decode (.field .code (w [1])) = .ok (.codeW1 0x1) ∧
    decode (.field .code (w [1,0])) = .ok (.codeW2 0x2) ∧
    decode (.field .code (w [1,1,0])) = .ok (.codeW3 0x6) ∧
    decode (.field .code (w [1,0,1,0])) = .ok (.codeW4 0xA) ∧
    decode (.field .code (w [1,0,1,1,0])) = .ok (.codeW5 0x16) ∧
    decode (.field .code (w [1,0,1,0,1,0])) = .ok (.codeW6 0x2A) ∧
    decode (.field .code (w [1,0,1,0,0,1,0])) = .ok (.codeW7 0x52) ∧
    decode (.field .code (w [1,0,1,0,0,0,1,0])) = .ok (.codeW8 0xA2) := by
  repeat' constructor

theorem test_decode_codes_9_to_16 :
    decode (.field .code (w [1,0,1,0,0,0,0,1,0])) = .ok (.codeW9 0x142) ∧
    decode (.field .code (w [1,0,1,0,0,0,0,0,1,0])) = .ok (.codeW10 0x282) ∧
    decode (.field .code (w [1,0,1,0,0,0,0,0,0,1,0])) = .ok (.codeW11 0x502) ∧
    decode (.field .code (w [1,0,1,0,0,0,0,0,0,0,1,0])) = .ok (.codeW12 0xA02) ∧
    decode (.field .code (w [1,0,1,0,0,0,0,0,0,0,0,1,0])) = .ok (.codeW13 0x1402) ∧
    decode (.field .code (w [1,0,1,0,0,0,0,0,0,0,0,0,1,0])) = .ok (.codeW14 0x2802) ∧
    decode (.field .code (w [1,0,1,0,0,0,0,0,0,0,0,0,0,1,0])) = .ok (.codeW15 0x5002) ∧
    decode (.field .code (w [1,0,1,0,0,0,0,0,0,0,0,0,0,0,1,0])) = .ok (.codeW16 0xA002) := by
  repeat' constructor

theorem test_decode_tails_1_to_8 :
    decode (.field .tail (w [1])) = .ok (.tailW1 0x1) ∧
    decode (.field .tail (w [1,0])) = .ok (.tailW2 0x2) ∧
    decode (.field .tail (w [1,1,0])) = .ok (.tailW3 0x6) ∧
    decode (.field .tail (w [1,0,1,0])) = .ok (.tailW4 0xA) ∧
    decode (.field .tail (w [1,0,1,1,0])) = .ok (.tailW5 0x16) ∧
    decode (.field .tail (w [1,0,1,0,1,0])) = .ok (.tailW6 0x2A) ∧
    decode (.field .tail (w [1,0,1,0,0,1,0])) = .ok (.tailW7 0x52) ∧
    decode (.field .tail (w [1,0,1,0,0,0,1,0])) = .ok (.tailW8 0xA2) := by
  repeat' constructor

theorem test_decode_tails_9_to_16 :
    decode (.field .tail (w [1,0,1,0,0,0,0,1,0])) = .ok (.tailW9 0x142) ∧
    decode (.field .tail (w [1,0,1,0,0,0,0,0,1,0])) = .ok (.tailW10 0x282) ∧
    decode (.field .tail (w [1,0,1,0,0,0,0,0,0,1,0])) = .ok (.tailW11 0x502) ∧
    decode (.field .tail (w [1,0,1,0,0,0,0,0,0,0,1,0])) = .ok (.tailW12 0xA02) ∧
    decode (.field .tail (w [1,0,1,0,0,0,0,0,0,0,0,1,0])) = .ok (.tailW13 0x1402) ∧
    decode (.field .tail (w [1,0,1,0,0,0,0,0,0,0,0,0,1,0])) = .ok (.tailW14 0x2802) ∧
    decode (.field .tail (w [1,0,1,0,0,0,0,0,0,0,0,0,0,1,0])) = .ok (.tailW15 0x5002) ∧
    decode (.field .tail (w [1,0,1,0,0,0,0,0,0,0,0,0,0,0,1,0])) = .ok (.tailW16 0xA002) := by
  repeat' constructor

theorem test_decode_literal_and_pads :
    decode (.field .literal (w [0,1,1,0,0,0,0,1])) = .ok (.literal 0x61) ∧
    decode (.field .pad (w [0])) = .ok .padW1 ∧
    decode (.field .pad (w [0,0])) = .ok .padW2 ∧
    decode (.field .pad (w [0,0,0])) = .ok .padW3 ∧
    decode (.field .pad (w [0,0,0,0])) = .ok .padW4 ∧
    decode (.field .pad (w [0,0,0,0,0])) = .ok .padW5 ∧
    decode (.field .pad (w [0,0,0,0,0,0])) = .ok .padW6 ∧
    decode (.field .pad (w [0,0,0,0,0,0,0])) = .ok .padW7 := by
  repeat' constructor

/-- Runs of bits that are no field, each refused by its name (R61 to R64). -/
theorem test_decode_refuses :
    decode (.field .code (zeros 17)) = .error (.codeWidth 17) ∧
    decode (.field .literal (w [0,1,1,0,0,0,0])) = .error (.literalWidth 7) ∧
    decode (.field .tail (w [0,0])) = .error .tailZero ∧ decode (.field .tail []) = .error .tailZero ∧
    decode (.field .pad (w [0,1])) = .error .padNotZero ∧
    decode (.field .pad []) = .error (.padWidth 0) ∧ decode (.field .pad (zeros 8)) = .error (.padWidth 8) := by
  repeat' constructor

/-- The table's numbering (bit 0 least significant) against wire order: CODE.W3 of value 4 is `100` on the wire. -/
theorem test_table_words :
    decodeTableWord 16 0x061 = some (.cData 0x61) ∧ decodeTableWord 16 0x3FF = some (.cRsvdOp3 0xFF) ∧
    decodeTableWord 8 0x61 = some (.literal 0x61) ∧ decodeTableWord 3 4 = some (.codeW3 4) ∧
    decodeTableWord 0 0 = some .codeW0 ∧ decodeTableWord 5 0 = some .padW5 ∧ decodeTableWord 16 0x8001 = some (.codeW16 0x8001) ∧
    decodeTableWord 3 8 = none ∧ decodeTableWord 17 0 = none := by
  repeat' constructor

/-- The first step after reset runs the word put in front of it. -/
theorem test_with_fetch_word :
    step (State.reset.withFetchWord 16 0x100) = exec .cEndcall State.reset ∧
    step (State.reset.withFetchWord 8 0x61) = exec (.literal 0x61) State.reset ∧
    step (State.reset.withFetchWord 0 0) = exec .codeW0 State.reset := by
  refine ⟨rfl, rfl, rfl⟩

/-! ### Codes, Bit Sink, Bit Source (95_test_vectors.md 3.1 to 3.3) -/

/-- V-CODE-1, V-CODE-2. -/
theorem test_min_bits :
    [0, 1, 2, 3, 4, 7, 8, 15, 16].map (fun n => minBits (BitVec.ofNat 16 n)) = [0, 1, 2, 2, 3, 3, 4, 4, 5] ∧
    [127, 128, 255, 256, 32767, 32768, 65535].map (fun n => minBits (BitVec.ofNat 16 n)) =
      [7, 8, 8, 9, 15, 16, 16] := by
  repeat' refine And.intro ?_ ?_
  all_goals decide

/-- V-CODE-3 to V-CODE-5. -/
theorem test_code_inc_prev :
    codeInc 0 = some 1 ∧ codeInc 65534 = some 65535 ∧ codeInc 65535 = none ∧ codePrev 1 = some 0 ∧
    codePrev 65535 = some 65534 := by
  repeat' refine And.intro ?_ ?_
  all_goals decide

/-- The end of a Bit Sink operation: the queue left and the bytes written. -/
def sinkEnd (r : Res CE Unit) : Option (Bits × ByteSeq) :=
  match r with
  | .ok _ e => some (e.bitSink, e.session.out)
  | _ => none

/-- CE after reset with a given queue. -/
def ceBits (q : Bits) : CE := { CE.fresh Sink.accepting 0 with bitSink := q }

/-- V-BSK-1, V-BSK-4, V-BSK-5, V-BSK-7, and V-BSK-3: 64 bits are not more than 64. -/
theorem test_bit_sink_append :
    sinkEnd (bskAppend 0 0 (ceBits [])) = some ([], []) ∧
    sinkEnd (bskAppend 0 0 (ceBits (zeros 64))) = some (zeros 64, []) ∧
    sinkEnd (bskAppend 5 3 (ceBits (zeros 61))) = some (zeros 61 ++ w [1,0,1], []) ∧
    sinkEnd (bskAppend 1 1 (ceBits (w [1] ++ zeros 62 ++ w [1]))) = some (w [1], [0x80, 0, 0, 0, 0, 0, 0, 1]) ∧
    sinkEnd (bskAppend 0xFFFF 16 (ceBits (zeros 64))) = some (List.replicate 16 true, [0, 0, 0, 0, 0, 0, 0, 0]) := by
  repeat' refine And.intro ?_ ?_
  all_goals decide

/-- V-BSK-8 to V-BSK-12. -/
theorem test_bit_sink_drain :
    sinkEnd (bskDrain (ceBits [])) = some ([], []) ∧
    sinkEnd (bskDrain (ceBits (w [0,1,1,0,0,0,0,1,1]))) = some ([], [0x61, 0x80]) ∧
    sinkEnd (bskDrain (ceBits (w [0,1,1,0,0,0,0,1,0,0,1,1,0,0,0,1]))) = some ([], [0x61, 0x31]) ∧
    sinkEnd (bskDrain (ceBits (zeros 64))) = some ([], [0, 0, 0, 0, 0, 0, 0, 0]) ∧
    sinkEnd (bskDrain (ceBits (w [0,0,0,1,1,0]))) = some ([], [0x18]) := by
  repeat' refine And.intro ?_ ?_
  all_goals decide

/-- DE after reset with a given queue. -/
def deBits (q : Bits) : DE := { DE.fresh Sink.accepting 0 with bitSource := q }

/-- V-BSR-2 to V-BSR-9. -/
theorem test_bit_source :
    (bsrPush [0x80] (deBits (w [0,1,1,0,0,0,0]))).bitSource = w [0,1,1,0,0,0,0,1,0,0,0,0,0,0,0] ∧
    bsrTake 0 (deBits []) = (.value 0, deBits []) ∧
    bsrTake 1 (deBits (w [1,0,1,1,0,0,0,0])) = (.value 1, deBits (w [0,1,1,0,0,0,0])) ∧
    bsrTake 8 (deBits (w [0,1,1,0,0,0,0])) = (.incomplete 8, deBits (w [0,1,1,0,0,0,0])) ∧
    bsrTake 8 (deBits (w [0,1,1,0,0,0,0,1,0,0,0,0,0,0,0])) = (.value 0x61, deBits (w [0,0,0,0,0,0,0])) ∧
    bsrTake 16 (deBits (zeros 15)) = (.incomplete 16, deBits (zeros 15)) ∧
    bsrTake 16 (deBits (w [1,0,0,0,0,0,0,0,0,0,0,0,0,0,0,1])) = (.value 0x8001, deBits []) := by
  repeat' refine And.intro ?_ ?_
  all_goals decide

/-! ### States of the programs P1 to P7 (95_test_vectors.md 4) -/

/-- CE after the byte `61` (P1 row 1). -/
def ceA (k : Sink) : CE :=
  { CE.fresh k 0 with encDict := [([0x61], 1)], maxCode := 1, bitSink := w [0,1,1,0,0,0,0,1] }

/-- CE after `61 61`: a match is pending (P1 row 3). -/
def ceAA (k : Sink) : CE := { ceA k with pending := [0x61] }

/-- CE after `00 01 02 03 04 05` (P2 row 6): 59 bits are buffered. -/
def ceSix (k : Sink) : CE :=
  { CE.fresh k 0 with
    encDict := [([0], 1), ([1], 2), ([2], 3), ([3], 4), ([4], 5), ([5], 6)], maxCode := 6,
    bitSink := zeros 16 ++ w [1] ++ zeros 8 ++ w [1,0] ++ zeros 8 ++ w [1,1] ++ zeros 8 ++ w [1,0,0] ++ zeros 8 ++
      w [1,0,1] }

/-- DE after the stream byte `61` (P3 row 1). -/
def deA (k : Sink) : DE :=
  { DE.fresh k 0 with
    decDict := [(0, []), (1, [0x61])], maxCode := 1,
    session := { Session.fresh k 0 with out := [0x61], callCount := 1 } }

/-- DE after `61 B0` (P3 row 3): code 1 is expanded, seven bits of a literal are there. -/
def deAB (k : Sink) : DE :=
  { deA k with
    lastCode := 1, dstate := .expectingByte, bitSource := w [0,1,1,0,0,0,0],
    session := { (deA k).session with out := [0x61, 0x61], callCount := 2 } }

/-- DE after `00 28` decoded (P4, inside row 3): `max_code = 2`. -/
def deTwo (k : Sink) : DE :=
  { DE.fresh k 0 with
    decDict := [(0, []), (1, [0x00]), (2, [0x28])], maxCode := 2,
    session := { Session.fresh k 0 with out := [0x00, 0x28], callCount := 2 } }

/-- A machine of these engines and these host events. -/
def st (c : CE) (d : DE) (h : List HostEvent) : State := { ce := c, de := d, host := h }

/-- The machine in which CE has seen `61` and DE the stream `61`. -/
def stA : State := st (ceA Sink.accepting) (deA Sink.accepting) []

/-! ### Single steps of CE -/

/-- P1 row 1. -/
theorem test_cData_first_byte :
    ceSees (fun e => e) (exec (.cData 0x61) State.reset) = some (ceA Sink.accepting) := by
  decide

/-- P2 row 7: the 62 bits of the code do not flush, the 70 of the literal do. -/
theorem test_cData_flush :
    ceSees (fun e => (e.maxCode, e.bitSink, e.session.callCount, e.session.out))
      (exec (.cData 6) (st (ceSix Sink.accepting) (DE.fresh Sink.accepting 0) [])) =
    some (7, w [0,0,0,1,1,0], 8, [0x00, 0x00, 0x80, 0x40, 0x18, 0x04, 0x00, 0xA0]) := by
  decide

/-- P1 rows 2 and 5, with bytes in the count as P2 row 8. -/
theorem test_cEndcall :
    ceSees (fun e => (e.bitSink, e.session.callCount, e.session.responses)) (exec .cEndcall stA) =
      some (w [0,1,1,0,0,0,0,1], 0, [.ok 0]) ∧
    ceSees (fun e => e.session.responses) (exec .cEndcall (st { ceA Sink.accepting with session :=
      { Session.fresh Sink.accepting 0 with callCount := 8 } } stA.de [])) = some [.ok 8] := by
  repeat' refine And.intro ?_ ?_
  all_goals decide

/-- S6: the tail code of a pending match. -/
theorem test_cFinalize_tail :
    ceSees (fun e => (e.session.out, e.bitSink, e.pending, e.session.closed, e.session.responses))
      (exec .cFinalize (st (ceAA Sink.accepting) stA.de [])) =
    some ([0x61, 0x80], [], [0x61], true, [.ok 2]) := by
  decide

/-- S5 and V-CE-1: no tail code, and nothing at all. -/
theorem test_cFinalize_no_tail :
    ceSees (fun e => (e.session.out, e.session.responses)) (exec .cFinalize stA) = some ([0x61], [.ok 1]) ∧
    ceSees (fun e => (e.session.out, e.session.responses)) (exec .cFinalize State.reset) = some ([], [.ok 0]) := by
  repeat' refine And.intro ?_ ?_
  all_goals decide

/-- P7 row 7: the third byte of the flush fails. -/
theorem test_ce_sink_fails :
    ceSees (fun e => faultOf e.session)
      (exec (.cData 6) (st (ceSix { answers := [.accept, .accept], thereafter := .fail }) stA.de [])) =
    some (.ioFailure, 0, [0, 0], []) := by
  decide

/-- V-EXC-3 and V-EXC-4, at the edges of each range; nothing else changes. -/
theorem test_ce_reserved :
    ceSees (fun e => faultOf e.session) (exec (.cRsvdEndcallNz 1) stA) =
      some (.reservedCommand, 0, [], [.err .reservedCommand 0]) ∧
    ceSees (fun e => (e.bitSink, e.maxCode, e.encDict)) (exec (.cRsvdEndcallNz 1) stA) =
      some (w [0,1,1,0,0,0,0,1], 1, [([0x61], 1)]) ∧
    ceSees (fun e => faultOf e.session) (exec (.cRsvdFinalizeNz 255) stA) =
      some (.reservedCommand, 0, [], [.err .reservedCommand 0]) ∧
    ceSees (fun e => faultOf e.session) (exec (.cRsvdOp3 255) stA) =
      some (.reservedCommand, 0, [], [.err .reservedCommand 0]) := by
  repeat' refine And.intro ?_ ?_
  all_goals decide

/-- CE closed (P6 row 2). -/
def ceClosed : CE := { CE.fresh Sink.accepting 0 with session := { Session.fresh Sink.accepting 0 with closed := true } }

/-- P6 rows 3 and 4, V-EXC-2. -/
theorem test_ce_closed :
    ceSees (fun e => faultOf e.session) (exec (.cData 0x61) (st ceClosed stA.de [])) = some (.sessionClosed, 0, [], []) ∧
    ceSees (fun e => faultOf e.session) (exec .cFinalize (st ceClosed stA.de [])) =
      some (.sessionClosed, 0, [], [.err .sessionClosed 0]) := by
  repeat' refine And.intro ?_ ?_
  all_goals decide

/-- CE faulted (P6 row 6, its response taken). -/
def ceFaulted : CE :=
  { CE.fresh Sink.accepting 0 with session := { Session.fresh Sink.accepting 0 with fault := .reservedCommand } }

/-- P6 rows 7 to 10: ignored, repeated, and reset brings CE back. -/
theorem test_ce_faulted :
    ceSees (fun e => e) (exec (.cData 0x61) (st ceFaulted stA.de [])) = some ceFaulted ∧
    ceSees (fun e => faultOf e.session) (exec .cFinalize (st ceFaulted stA.de [])) =
      some (.reservedCommand, 0, [], [.err .reservedCommand 0]) ∧
    ceSees (fun e => e) (step (st ceFaulted stA.de [.reset .ce])) = some (CE.fresh Sink.accepting 0) := by
  repeat' refine And.intro ?_ ?_
  all_goals decide

/-! ### Single steps of DE -/

/-- P3 row 1. -/
theorem test_dData_first_byte :
    deSees (fun e => e) (exec (.dData 0x61) State.reset) = some (deA Sink.accepting) := by
  decide

/-- P3 rows 3 and 4. -/
theorem test_dData_two_steps :
    deSees (fun e => e) (exec (.dData 0xB0) stA) = some (deAB Sink.accepting) ∧
    deSees (fun e => (e.maxCode, e.lastCode, e.dstate, e.bitSource, e.session.out))
      (exec (.dData 0x80) (st stA.ce (deAB Sink.accepting) [])) =
    some (2, 0, .expectingByte, zeros 5, [0x61, 0x61, 0x61]) := by
  repeat' refine And.intro ?_ ?_
  all_goals decide

/-- P3 rows 2 and 6. -/
theorem test_de_calls :
    deSees (fun e => (e.session.callCount, e.session.responses, e.session.closed)) (exec .dEndcall stA) =
      some (0, [.ok 1], false) ∧
    deSees (fun e => (e.session.callCount, e.session.responses, e.session.closed, e.bitSource))
      (exec .dFinalize (st stA.ce (deAB Sink.accepting) [])) =
      some (0, [.ok 2], true, w [0,1,1,0,0,0,0]) := by
  repeat' refine And.intro ?_ ?_
  all_goals decide

/-- V-EXC-5 and the other ranges. -/
theorem test_de_reserved :
    deSees (fun e => faultOf e.session) (exec (.dRsvdFinalizeNz 255) State.reset) =
      some (.reservedCommand, 0, [], [.err .reservedCommand 0]) ∧
    deSees (fun e => faultOf e.session) (exec (.dRsvdEndcallNz 1) State.reset) =
      some (.reservedCommand, 0, [], [.err .reservedCommand 0]) ∧
    deSees (fun e => faultOf e.session) (exec (.dRsvdOp3 0) State.reset) =
      some (.reservedCommand, 0, [], [.err .reservedCommand 0]) := by
  repeat' refine And.intro ?_ ?_
  all_goals decide

/-- P4 row 3, the second field of it: the code `11` with `max_code = 2`. -/
theorem test_codeW2_bad_code :
    deSees (fun e => faultOf e.session) (exec (.codeW2 3) (st stA.ce (deTwo Sink.accepting) [])) =
      some (.badCode, 3, [0x00, 0x28], []) := by
  decide

/-- V-EXC-8: the sink fails the expansion of code 1. -/
theorem test_codeW1_sink_fails :
    deSees (fun e => faultOf e.session) (exec (.codeW1 1) (st stA.ce (deA { answers := [], thereafter := .fail }) [])) =
      some (.ioFailure, 0, [0x61], []) := by
  decide

/-- A decoder whose code fields have width `n`, with the entry `v -> 5A` (R150, R151, worked by hand). -/
def deW (n v : Nat) : DE :=
  { DE.fresh Sink.accepting 0 with maxCode := BitVec.ofNat 16 (2 ^ n - 1), decDict := [(BitVec.ofNat 16 v, [0x5A])] }

/-- What a code field leaves. -/
def codeSeen (i : Instr) (e : DE) : Option (Nat × DState × ByteSeq × Bits) :=
  deSees (fun e => (e.lastCode.toNat, e.dstate, e.session.out, e.bitSource)) (exec i (st stA.ce e []))

/-- R151 at every width. -/
theorem test_code_fields_0_to_8 :
    codeSeen (.codeW0) (deW 0 0x0) = some (0x0, .expectingByte, [0x5A], []) ∧
    codeSeen (.codeW1 0x1) (deW 1 0x1) = some (0x1, .expectingByte, [0x5A], []) ∧
    codeSeen (.codeW2 0x2) (deW 2 0x2) = some (0x2, .expectingByte, [0x5A], []) ∧
    codeSeen (.codeW3 0x6) (deW 3 0x6) = some (0x6, .expectingByte, [0x5A], []) ∧
    codeSeen (.codeW4 0xA) (deW 4 0xA) = some (0xA, .expectingByte, [0x5A], []) ∧
    codeSeen (.codeW5 0x16) (deW 5 0x16) = some (0x16, .expectingByte, [0x5A], []) ∧
    codeSeen (.codeW6 0x2A) (deW 6 0x2A) = some (0x2A, .expectingByte, [0x5A], []) ∧
    codeSeen (.codeW7 0x52) (deW 7 0x52) = some (0x52, .expectingByte, [0x5A], []) ∧
    codeSeen (.codeW8 0xA2) (deW 8 0xA2) = some (0xA2, .expectingByte, [0x5A], []) := by
  repeat' refine And.intro ?_ ?_
  all_goals decide

theorem test_code_fields_9_to_16 :
    codeSeen (.codeW9 0x142) (deW 9 0x142) = some (0x142, .expectingByte, [0x5A], []) ∧
    codeSeen (.codeW10 0x282) (deW 10 0x282) = some (0x282, .expectingByte, [0x5A], []) ∧
    codeSeen (.codeW11 0x502) (deW 11 0x502) = some (0x502, .expectingByte, [0x5A], []) ∧
    codeSeen (.codeW12 0xA02) (deW 12 0xA02) = some (0xA02, .expectingByte, [0x5A], []) ∧
    codeSeen (.codeW13 0x1402) (deW 13 0x1402) = some (0x1402, .expectingByte, [0x5A], []) ∧
    codeSeen (.codeW14 0x2802) (deW 14 0x2802) = some (0x2802, .expectingByte, [0x5A], []) ∧
    codeSeen (.codeW15 0x5002) (deW 15 0x5002) = some (0x5002, .expectingByte, [0x5A], []) ∧
    codeSeen (.codeW16 0xA002) (deW 16 0xA002) = some (0xA002, .expectingByte, [0x5A], []) := by
  repeat' refine And.intro ?_ ?_
  all_goals decide

/-- A tail code is parsed with R151 (R75). -/
theorem test_tail_fields_1_to_8 :
    codeSeen (.tailW1 0x1) (deW 1 0x1) = some (0x1, .expectingByte, [0x5A], []) ∧
    codeSeen (.tailW2 0x2) (deW 2 0x2) = some (0x2, .expectingByte, [0x5A], []) ∧
    codeSeen (.tailW3 0x6) (deW 3 0x6) = some (0x6, .expectingByte, [0x5A], []) ∧
    codeSeen (.tailW4 0xA) (deW 4 0xA) = some (0xA, .expectingByte, [0x5A], []) ∧
    codeSeen (.tailW5 0x16) (deW 5 0x16) = some (0x16, .expectingByte, [0x5A], []) ∧
    codeSeen (.tailW6 0x2A) (deW 6 0x2A) = some (0x2A, .expectingByte, [0x5A], []) ∧
    codeSeen (.tailW7 0x52) (deW 7 0x52) = some (0x52, .expectingByte, [0x5A], []) ∧
    codeSeen (.tailW8 0xA2) (deW 8 0xA2) = some (0xA2, .expectingByte, [0x5A], []) := by
  repeat' refine And.intro ?_ ?_
  all_goals decide

theorem test_tail_fields_9_to_16 :
    codeSeen (.tailW9 0x142) (deW 9 0x142) = some (0x142, .expectingByte, [0x5A], []) ∧
    codeSeen (.tailW10 0x282) (deW 10 0x282) = some (0x282, .expectingByte, [0x5A], []) ∧
    codeSeen (.tailW11 0x502) (deW 11 0x502) = some (0x502, .expectingByte, [0x5A], []) ∧
    codeSeen (.tailW12 0xA02) (deW 12 0xA02) = some (0xA02, .expectingByte, [0x5A], []) ∧
    codeSeen (.tailW13 0x1402) (deW 13 0x1402) = some (0x1402, .expectingByte, [0x5A], []) ∧
    codeSeen (.tailW14 0x2802) (deW 14 0x2802) = some (0x2802, .expectingByte, [0x5A], []) ∧
    codeSeen (.tailW15 0x5002) (deW 15 0x5002) = some (0x5002, .expectingByte, [0x5A], []) ∧
    codeSeen (.tailW16 0xA002) (deW 16 0xA002) = some (0xA002, .expectingByte, [0x5A], []) := by
  repeat' refine And.intro ?_ ?_
  all_goals decide

/-- The literal of P3 row 4, arriving alone. -/
theorem test_literal :
    deSees (fun e => (e.maxCode, e.decDict, e.dstate, e.session.out))
      (exec (.literal 0x61) (st stA.ce { deAB Sink.accepting with bitSource := [] } [])) =
    some (2, [(0, []), (1, [0x61]), (2, [0x61, 0x61])], .expectingCode, [0x61, 0x61, 0x61]) := by
  decide

/-- V-DE-17's fault: the 65536th literal is not written. -/
theorem test_literal_at_the_top :
    deSees (fun e => faultOf e.session)
      (exec (.literal 0) (st stA.ce { deAB Sink.accepting with bitSource := [], maxCode := 65535 } [])) =
    some (.codeSpaceExhausted, 0, [0x61, 0x61], []) := by
  decide

/-- What a pad leaves. -/
def padSeen (i : Instr) (e : DE) : Option (Code × DState × ByteSeq × Bits) :=
  deSees (fun e => (e.lastCode, e.dstate, e.session.out, e.bitSource)) (exec i (st stA.ce e []))

/-- R163: pad bits short of the width stay, enough of them are a code 0 (V-DE-6, width 2), and behind a code they are the
start of a literal (V-DE-3). -/
theorem test_pads :
    padSeen .padW1 (deTwo Sink.accepting) = some (0, .expectingCode, [0x00, 0x28], w [0]) ∧
    padSeen .padW2 (deTwo Sink.accepting) = some (0, .expectingByte, [0x00, 0x28], []) ∧
    padSeen .padW3 (deTwo Sink.accepting) = some (0, .expectingByte, [0x00, 0x28], w [0]) ∧
    padSeen .padW4 (deTwo Sink.accepting) = some (0, .expectingByte, [0x00, 0x28], w [0,0]) ∧
    padSeen .padW5 (deTwo Sink.accepting) = some (0, .expectingByte, [0x00, 0x28], w [0,0,0]) ∧
    padSeen .padW6 (deTwo Sink.accepting) = some (0, .expectingByte, [0x00, 0x28], w [0,0,0,0]) ∧
    padSeen .padW7 (deTwo Sink.accepting) = some (0, .expectingByte, [0x00, 0x28], w [0,0,0,0,0]) ∧
    padSeen .padW7 { deAB Sink.accepting with bitSource := [] } =
      some (1, .expectingByte, [0x61, 0x61], w [0,0,0,0,0,0,0]) := by
  repeat' refine And.intro ?_ ?_
  all_goals decide

/-- R140 against the golden vectors S7 and S9. -/
theorem test_stream_of : streamOf [0x61, 0x61, 0x61] = [0x61, 0xB0, 0x80] ∧ streamOf [0, 40, 40] = [0x00, 0x14, 0x40] := by
  decide

/-! ### Witnesses: for each statement with hypotheses, values that meet them, clause by clause at the edges -/

theorem test_witness_DecodeUndoesEncode :
    (Instr.tailW2 2).wellFormed = true ∧ (Instr.codeW16 65535).wellFormed = true ∧ (Instr.cRsvdEndcallNz 1).wellFormed = true := by
  decide

theorem test_witness_EncodeUndoesDecode :
    decode (.field .tail (w [1,0])) = .ok (.tailW2 2) ∧ decode (.beat .de 0x3FF) = .ok (.dRsvdOp3 0xFF) := by
  repeat' constructor

/-- The edges of every range of R68 and R69. -/
theorem test_witness_BeatsDecodeByRange :
    decode (.beat .ce 0x0FF) = .ok (.cData 0xFF) ∧ decode (.beat .ce 0x100) = .ok .cEndcall ∧
    decode (.beat .ce 0x101) = .ok (.cRsvdEndcallNz 1) ∧ decode (.beat .ce 0x1FF) = .ok (.cRsvdEndcallNz 0xFF) ∧
    decode (.beat .ce 0x200) = .ok .cFinalize ∧ decode (.beat .ce 0x201) = .ok (.cRsvdFinalizeNz 1) ∧
    decode (.beat .ce 0x2FF) = .ok (.cRsvdFinalizeNz 0xFF) ∧ decode (.beat .ce 0x300) = .ok (.cRsvdOp3 0) ∧
    decode (.beat .ce 0x3FF) = .ok (.cRsvdOp3 0xFF) := by
  repeat' constructor

theorem test_witness_StepRunsWhatIsPresented :
    ∃ (s : State) (e : Encoded) (i : Instr) (rest : List HostEvent), s.host = .present e :: rest ∧ decode e = .ok i ∧
      i.wellFormed = true ∧ (s.sessionAt e.port).hung = false ∧ step s = exec i { s with host := rest } :=
  ⟨st stA.ce stA.de [.present (.beat .de 0x0B0)], .beat .de 0x0B0, .dData 0xB0, [], rfl, rfl, rfl, rfl, rfl⟩

/-- CE held in a SinkWrite. -/
def ceHung : CE := { CE.fresh Sink.accepting 0 with session := { Session.fresh Sink.accepting 0 with hung := true } }

theorem test_witness_BusyEngineIsHeldBack :
    ∃ (s : State) (held : HostEvent) (e : Encoded) (i : Instr) (rest : List HostEvent),
      s.host = held :: .present e :: rest ∧ (s.sessionAt held.port).hung = true ∧ decode e = .ok i ∧
      (s.sessionAt e.port).hung = false ∧ step s = exec i { s with host := held :: rest } :=
  ⟨st ceHung stA.de [.present (.beat .ce 0x061), .present (.beat .de 0x0B0)], .present (.beat .ce 0x061), .beat .de 0x0B0,
    .dData 0xB0, [], rfl, rfl, rfl, rfl, rfl⟩

theorem test_witness_NothingPresentedNothingDone : State.reset.host = [] ∧ stA.host = [] := ⟨rfl, rfl⟩

theorem test_witness_ResetStartsANewSession :
    ((st ceFaulted stA.de [.reset .ce]).host = .reset .ce :: [] ∧ ceFaulted.session.hung = false) ∧
    ((st stA.ce stA.de [.reset .de]).host = .reset .de :: [] ∧ stA.de.session.hung = false) := by
  refine ⟨⟨rfl, rfl⟩, rfl, rfl⟩

theorem test_witness_MinBitsIsTheHighestSetBit :
    minBits 0 = 0 ∧ ((65535 : Code) ≠ 0 ∧ minBits 65535 = 16) ∧ ((1 : Code) ≠ 0 ∧ minBits 1 = 1) := by decide

theorem test_witness_MinBitsGrowsAtPowersOfTwo :
    ((0 : Code).toNat + 1 = 2 ^ 0 ∧ minBits (0 + 1) = minBits 0 + 1) ∧
    ((32767 : Code).toNat + 1 = 2 ^ 15 ∧ minBits (32767 + 1) = minBits 32767 + 1) ∧
    ((65534 : Code).toNat < 65535 ∧ (∀ k, k ≤ 15 → (65534 : Code).toNat + 1 ≠ 2 ^ k) ∧ minBits (65534 + 1) = minBits 65534) := by
  refine ⟨by decide, by decide, by decide, ?_, by decide⟩
  intro k hk
  interval_cases k <;> decide

theorem test_witness_CodesNeverWrap :
    ((65534 : Code).toNat < 65535 ∧ codeInc 65534 = some 65535) ∧ ((65535 : Code).toNat = 65535 ∧ codeInc 65535 = none) ∧
    (1 ≤ (1 : Code).toNat ∧ codePrev 1 = some 0) := by decide

theorem test_witness_WireOrderIsMostSignificantFirst :
    (([0x61, 0x80] : ByteSeq)[1]? = some 0x80 ∧ (unpack8 [0x61, 0x80])[8]? = some true ∧
      (unpack8 [0x61, 0x80])[15]? = some false) ∧ (beBits 4 3)[0]? = some true := by decide

theorem test_witness_AppendKeepsTheStream :
    ((ceBits (zeros 53)).bitSink.length ≤ 64 ∧ 0x7FF < 2 ^ 11 ∧ (ceBits (zeros 53)).bitSink.length + 11 ≤ 64 ∧
      ∃ e', bskAppend 0x7FF 11 (ceBits (zeros 53)) = .ok () e') ∧
    ((ceBits (zeros 64)).bitSink.length ≤ 64 ∧ 0xFFFF < 2 ^ 16 ∧ 64 < (ceBits (zeros 64)).bitSink.length + 16 ∧
      (ceBits (zeros 64)).session.sink.acceptsNext 8 = true ∧ ∃ e', bskAppend 0xFFFF 16 (ceBits (zeros 64)) = .ok () e') :=
  ⟨⟨by decide, by decide, by decide, _, rfl⟩, by decide, by decide, by decide, by decide, _, rfl⟩

theorem test_witness_DrainWritesWholeBytes :
    (ceA Sink.accepting).session.sink.acceptsNext (((ceA Sink.accepting).bitSink.length + 7) / 8) = true := by decide

/-- A session whose sink accepts one byte and then answers as given. -/
def oneThen (a : SinkAnswer) : Session := Session.fresh { answers := [.accept], thereafter := a } 0

theorem test_witness_SinkWriteStopsAtTheFirstFailure :
    (oneThen .fail).sink.acceptsNext 1 = true ∧ ((oneThen .fail).sinkWrite [7]).1 = .done ∧
    (((oneThen .fail).sink.after 1).answer = .fail ∧ ((oneThen .fail).sinkWrite [7, 8]).1 = .failed ∧
      ((oneThen .fail).sinkWrite [7, 8]).2.out = [7]) ∧
    (((oneThen .silent).sink.after 1).answer = .silent ∧ ((oneThen .silent).sinkWrite [7, 8]).1 = .silent ∧
      ((oneThen .silent).sinkWrite [7, 8]).2.out = [7]) := by decide

theorem test_witness_TakeRemovesOneWholeField :
    (deBits (zeros 7)).bitSource.length < 8 ∧ 8 ≤ (deBits (zeros 8)).bitSource.length ∧ 0 ≤ (deBits []).bitSource.length := by
  decide

theorem isOpen_of {t : Session} (hf : t.fault = .noFault) (hh : t.hung = false) (hc : t.closed = false) : t.isOpen :=
  ⟨⟨hf, hh⟩, hc⟩

/-- R18 of CE after reset. -/
theorem ceFresh_regular (k : Sink) (n : Nat) : (CE.fresh k n).regular := by
  have hl : ∀ s, edLookup (CE.fresh k n).encDict s = none := fun _ => rfl
  refine ⟨.inl rfl, ⟨?_, ?_, ?_, rfl⟩, ?_, Nat.zero_le _, fun _ => ⟨rfl, rfl⟩, fun _ => rfl⟩
  · intro s c h; rw [hl] at h; cases h
  · intro m h1 h2; exact absurd (Nat.le_trans h1 h2) (by decide : ¬ 1 ≤ 0)
  · intro s t c h; rw [hl] at h; cases h
  · intro s c h; rw [hl] at h; cases h

/-- ED of `ceA`: one key. -/
theorem ceA_lookup (k : Sink) (s : ByteSeq) : edLookup (ceA k).encDict s = if s = [0x61] then some 1 else none := by
  simp [ceA, edLookup, FMap.find, eq_comm]

/-- R18 of CE after the byte `61`, with nothing pending or a match pending. -/
theorem ceA_regular (k : Sink) (p : ByteSeq) (hp : p = [] ∨ p = [0x61]) : ({ ceA k with pending := p } : CE).regular := by
  refine ⟨?_, ⟨?_, ?_, ?_, rfl⟩, ?_, (by decide : 8 ≤ 64), ?_, ?_⟩
  · rcases hp with rfl | rfl
    · exact .inl rfl
    · exact .inr ⟨1, rfl⟩
  · intro s c h
    rw [ceA_lookup] at h
    split at h
    · rename_i hs; subst hs; cases h; exact ⟨by decide, by decide, Nat.le_refl 1⟩
    · cases h
  · intro n h1 h2
    have h2' : n ≤ 1 := h2
    obtain rfl : n = 1 := by omega
    exact ⟨[0x61], rfl⟩
  · intro s t c hs ht
    rw [ceA_lookup] at hs ht
    split at hs <;> split at ht <;> simp_all
  · intro s c h
    rw [ceA_lookup] at h
    split at h
    · rename_i hs; subst hs; cases h; exact ⟨by decide, fun h => absurd h (by decide)⟩
    · cases h
  · intro _
    exact ⟨(by decide : 8 * 0 + 8 = transactionBits 1), rfl⟩
  · intro h
    exact absurd h (by simp [ceA, CE.fresh, Session.fresh])

theorem test_witness_MatchedByteOnlyGrowsPending :
    stA.ce.session.isOpen ∧ edLookup stA.ce.encDict (stA.ce.pending ++ [0x61]) = some 1 ∧
    exec (.cData 0x61) stA = .next (st (ceAA Sink.accepting) stA.de []) := by
  refine ⟨isOpen_of rfl rfl rfl, rfl, rfl⟩

theorem test_witness_NewSequenceEmitsATransaction :
    (State.reset.ce.session.isOpen ∧ State.reset.ce.regular ∧ State.reset.ce.maxCode.toNat < 65535 ∧
      edLookup State.reset.ce.encDict (State.reset.ce.pending ++ [0x61]) = none ∧
      State.reset.ce.session.sink.acceptsNext 8 = true) ∧
    ((ceAA Sink.accepting).session.isOpen ∧ (ceAA Sink.accepting).regular ∧ (ceAA Sink.accepting).maxCode.toNat < 65535 ∧
      edLookup (ceAA Sink.accepting).encDict ((ceAA Sink.accepting).pending ++ [0x61]) = none ∧
      (ceAA Sink.accepting).session.sink.acceptsNext 8 = true) := by
  refine ⟨⟨isOpen_of rfl rfl rfl, ceFresh_regular _ _, by decide, rfl, by decide⟩, isOpen_of rfl rfl rfl,
    ceA_regular _ _ (.inr rfl), by decide, rfl, by decide⟩

/-- CE at the end of the code space. -/
def ceTop : CE := { CE.fresh Sink.accepting 0 with maxCode := 65535 }

theorem test_witness_NewSequenceAtTheTopFaults :
    ceTop.session.isOpen ∧ ceTop.maxCode.toNat = 65535 ∧ edLookup ceTop.encDict (ceTop.pending ++ [0x61]) = none ∧
    ceSees (fun e => faultOf e.session) (exec (.cData 0x61) (st ceTop stA.de [])) = some (.codeSpaceExhausted, 0, [], []) := by
  refine ⟨isOpen_of rfl rfl rfl, rfl, rfl, by decide⟩

theorem test_witness_EndcallAnswersAndFlushesNothing : stA.ce.session.isOpen := isOpen_of rfl rfl rfl

theorem test_witness_FinalizeWritesTailAndPad :
    (stA.ce.session.isOpen ∧ stA.ce.regular ∧ stA.ce.session.sink.acceptsNext 16 = true ∧ stA.ce.pending = []) ∧
    ((ceAA Sink.accepting).session.isOpen ∧ (ceAA Sink.accepting).regular ∧
      (ceAA Sink.accepting).session.sink.acceptsNext 16 = true ∧ (ceAA Sink.accepting).pending ≠ []) := by
  refine ⟨⟨isOpen_of rfl rfl rfl, ceA_regular _ _ (.inl rfl), by decide, rfl⟩, isOpen_of rfl rfl rfl,
    ceA_regular _ _ (.inr rfl), by decide, by decide⟩

/-- A sink that accepts `k` bytes and then gives one answer for ever. -/
def afterK (k : Nat) (a : SinkAnswer) : Sink := { answers := List.replicate k .accept, thereafter := a }

/-- The general part: P7 row 7 (the flush of C.DATA, third byte), a FINALIZE whose second byte fails, and D.DATA in the
beat of P3 row 4 whose only byte fails. -/
theorem test_witness_SinkFailureLatchesIoFailure_any :
    (∃ t, exec (.cData 6) (attachSink .ce Sink.accepting (st (ceSix (afterK 2 .fail)) stA.de [])) = .next t ∧
      (t.sessionAt .ce).out = [] ++ [0x00, 0x00, 0x80, 0x40, 0x18, 0x04, 0x00, 0xA0] ∧ 2 < 8 ∧
      (afterK 2 .fail).acceptsNext 2 = true ∧ ((afterK 2 .fail).after 2).answer = .fail ∧
      ceSees (fun e => faultOf e.session) (exec (.cData 6) (st (ceSix (afterK 2 .fail)) stA.de [])) =
        some (.ioFailure, 0, [0x00, 0x00], [])) ∧
    (∃ t, exec .cFinalize (attachSink .ce Sink.accepting (st (ceAA (afterK 1 .fail)) stA.de [])) = .next t ∧
      (t.sessionAt .ce).out = [] ++ [0x61, 0x80] ∧
      ceSees (fun e => faultOf e.session) (exec .cFinalize (st (ceAA (afterK 1 .fail)) stA.de [])) =
        some (.ioFailure, 0, [0x61], [.err .ioFailure 0])) ∧
    (∃ t, exec (.dData 0x80) (attachSink .de Sink.accepting (st stA.ce (deAB (afterK 0 .fail)) [])) = .next t ∧
      (t.sessionAt .de).out = [0x61, 0x61] ++ [0x61] ∧
      deSees (fun e => faultOf e.session) (exec (.dData 0x80) (st stA.ce (deAB (afterK 0 .fail)) [])) =
        some (.ioFailure, 0, [0x61, 0x61], [])) :=
  ⟨⟨_, rfl, rfl, by decide, by decide, by decide, by decide⟩, ⟨_, rfl, rfl, by decide⟩, _, rfl, rfl, by decide⟩

/-- DD with an expansion of two bytes, as after the stream of `aaa`. -/
def deLong (k : Sink) : DE :=
  { DE.fresh k 0 with decDict := [(0, []), (1, [0x61]), (2, [0x61, 0x61])], maxCode := 2 }

/-- ED of `ceSix`: byte `n` alone has code `n + 1`. -/
theorem ceSix_lookup (k : Sink) (s : ByteSeq) (c : Code) :
    edLookup (ceSix k).encDict s = some c ↔
      ∃ n, n < 6 ∧ s = [BitVec.ofNat 8 n] ∧ c = BitVec.ofNat 16 (n + 1) := by
  constructor
  · intro h
    simp only [ceSix, edLookup, FMap.find] at h
    repeat' split at h
    · exact ⟨0, by decide, by simpa using Eq.symm ‹_›, by simpa using h.symm⟩
    · exact ⟨1, by decide, by simpa using Eq.symm ‹_›, by simpa using h.symm⟩
    · exact ⟨2, by decide, by simpa using Eq.symm ‹_›, by simpa using h.symm⟩
    · exact ⟨3, by decide, by simpa using Eq.symm ‹_›, by simpa using h.symm⟩
    · exact ⟨4, by decide, by simpa using Eq.symm ‹_›, by simpa using h.symm⟩
    · exact ⟨5, by decide, by simpa using Eq.symm ‹_›, by simpa using h.symm⟩
    · cases h
  · rintro ⟨n, hn, rfl, rfl⟩
    interval_cases n <;> rfl

/-- R18 of CE after the bytes `00` to `05`. -/
theorem ceSix_regular (k : Sink) : (ceSix k).regular := by
  refine ⟨.inl rfl, ⟨?_, ?_, ?_, rfl⟩, ?_, (by decide : 59 ≤ 64), fun _ => ⟨(by decide : 8 * 0 + 59 = transactionBits 6), rfl⟩,
    fun h => absurd h (by simp [ceSix, CE.fresh, Session.fresh])⟩
  · intro s c h
    obtain ⟨n, hn, rfl, rfl⟩ := (ceSix_lookup k s c).mp h
    exact ⟨by simp, by simp; omega, by simp [ceSix]; omega⟩
  · intro n h1 h2
    have h2' : n ≤ 6 := h2
    exact ⟨[BitVec.ofNat 8 (n - 1)], (ceSix_lookup k _ _).mpr ⟨n - 1, by omega, rfl, by congr 1; omega⟩⟩
  · intro s t c hs ht
    obtain ⟨n, hn, rfl, rfl⟩ := (ceSix_lookup k _ _).mp hs
    obtain ⟨m, hm, rfl, h⟩ := (ceSix_lookup k _ _).mp ht
    have h' := congrArg BitVec.toNat h
    simp at h'
    obtain rfl : n = m := by omega
    rfl
  · intro s c h
    obtain ⟨n, hn, rfl, rfl⟩ := (ceSix_lookup k s c).mp h
    exact ⟨by simp; omega, fun h => absurd h (by simp)⟩

/-- C.DATA at the last of the eight bytes of its flush (and at the first); C.FINALIZE at its first byte and at its last;
the second byte of an expansion; and a LITERAL. -/
theorem test_witness_SinkFailureLatchesIoFailure_bytes :
    (64 < (ceSix (afterK 7 .fail)).bitSink.length + minBits (ceSix (afterK 7 .fail)).maxCode + 8 ∧
      (ceSix (afterK 7 .fail)).session.isOpen ∧ (ceSix (afterK 7 .fail)).regular ∧ (ceSix (afterK 7 .fail)).maxCode.toNat < 65535 ∧
      edLookup (ceSix (afterK 7 .fail)).encDict ((ceSix (afterK 7 .fail)).pending ++ [6]) = none ∧
      (afterK 7 .fail).acceptsNext 7 = true ∧ ((afterK 7 .fail).after 7).answer = .fail ∧
      (afterK 0 .fail).acceptsNext 0 = true ∧ ((afterK 0 .fail).after 0).answer = .fail) ∧
    ((ceA (afterK 0 .fail)).session.isOpen ∧ (ceA (afterK 0 .fail)).regular ∧
      8 * 0 < (ceA (afterK 0 .fail)).bitSink.length +
        (if (ceA (afterK 0 .fail)).pending = [] then 0 else minBits (ceA (afterK 0 .fail)).maxCode)) ∧
    ((ceAA (afterK 1 .fail)).session.isOpen ∧ (ceAA (afterK 1 .fail)).regular ∧
      8 * 1 < (ceAA (afterK 1 .fail)).bitSink.length +
        (if (ceAA (afterK 1 .fail)).pending = [] then 0 else minBits (ceAA (afterK 1 .fail)).maxCode) ∧
      (afterK 1 .fail).acceptsNext 1 = true ∧ ((afterK 1 .fail).after 1).answer = .fail) ∧
    ((Instr.codeW2 2).codeField = some (2, 2) ∧ (deLong (afterK 1 .fail)).session.isOpen ∧
      (deLong (afterK 1 .fail)).dstate = .expectingCode ∧ (deLong (afterK 1 .fail)).bitSource = [] ∧
      minBits (deLong (afterK 1 .fail)).maxCode = 2 ∧
      ddLookup (deLong (afterK 1 .fail)).decDict (BitVec.ofNat 16 2) = some [0x61, 0x61] ∧ 1 < 2 ∧
      deSees (fun e => faultOf e.session) (exec (.codeW2 2) (st stA.ce (deLong (afterK 1 .fail)) [])) =
        some (.ioFailure, 0, [0x61], [])) ∧
    (({ deA (afterK 0 .fail) with dstate := .expectingByte } : DE).session.isOpen ∧ (deA (afterK 0 .fail)).bitSource = [] ∧
      (deA (afterK 0 .fail)).maxCode.toNat < 65535 ∧ (deA (afterK 0 .fail)).session.sink.answer = .fail) := by
  refine ⟨⟨by decide, isOpen_of rfl rfl rfl, ceSix_regular _, by decide, by decide, by decide, by decide, by decide, by decide⟩,
    ⟨isOpen_of rfl rfl rfl, ceA_regular _ _ (.inl rfl), by decide⟩,
    ⟨isOpen_of rfl rfl rfl, ceA_regular _ _ (.inr rfl), by decide, by decide, by decide⟩,
    ⟨by decide, isOpen_of rfl rfl rfl, rfl, rfl, by decide, by decide, by decide, by decide⟩,
    isOpen_of rfl rfl rfl, rfl, by decide, rfl⟩

/-- C.DATA in its flush after two bytes, D.DATA before its byte, C.FINALIZE at its first byte, and a held engine. -/
theorem test_witness_SilentSinkHoldsTheEngine :
    (∃ t, exec (.cData 6) (attachSink .ce Sink.accepting (st (ceSix (afterK 2 .silent)) stA.de [])) = .next t ∧
      (t.sessionAt .ce).out = [] ++ [0x00, 0x00, 0x80, 0x40, 0x18, 0x04, 0x00, 0xA0] ∧
      (afterK 2 .silent).acceptsNext 2 = true ∧ ((afterK 2 .silent).after 2).answer = .silent ∧
      ceSees (fun e => (e.session.hung, e.session.out, e.session.callCount))
        (exec (.cData 6) (st (ceSix (afterK 2 .silent)) stA.de [])) = some (true, [0x00, 0x00], 2)) ∧
    (∃ t, exec (.dData 0x80) (attachSink .de Sink.accepting (st stA.ce (deAB (afterK 0 .silent)) [])) = .next t ∧
      (t.sessionAt .de).out = [0x61, 0x61] ++ [0x61] ∧
      (afterK 0 .silent).acceptsNext 0 = true ∧ ((afterK 0 .silent).after 0).answer = .silent) ∧
    ((ceA (afterK 0 .silent)).session.isOpen ∧ (ceA (afterK 0 .silent)).regular ∧
      ((ceA (afterK 0 .silent)).pending ≠ [] ∨ (ceA (afterK 0 .silent)).bitSink ≠ []) ∧
      (ceA (afterK 0 .silent)).session.sink.answer = .silent) ∧
    ((st ceHung stA.de []).sessionAt (Instr.cData 7).port).hung = true := by
  refine ⟨⟨_, rfl, rfl, by decide, by decide, by decide⟩, ⟨_, rfl, rfl, by decide, by decide⟩,
    ⟨isOpen_of rfl rfl rfl, ceA_regular _ _ (.inl rfl), .inr (by decide), rfl⟩, rfl⟩

/-- DE with a latched BadCode(3) (P4 row 3). -/
def deFaulted : DE :=
  { DE.fresh Sink.accepting 0 with session :=
      { Session.fresh Sink.accepting 0 with fault := .badCode, faultValue := 3, out := [0x00, 0x28] } }

/-- P4 rows 4 and 5 for DE, P6 for CE. -/
theorem test_witness_FaultedEngineOnlyRepeatsItsFault :
    ((Instr.cData 0x61).port = .ce ∧ ceFaulted.session.hung = false ∧ ceFaulted.session.fault ≠ .noFault) ∧
    (Instr.dEndcall.port = .de ∧ deFaulted.session.hung = false ∧ deFaulted.session.fault ≠ .noFault ∧
      deSees (fun e => e.session.responses) (exec .dEndcall (st stA.ce deFaulted [])) = some [.err .badCode 3]) := by
  refine ⟨⟨rfl, rfl, by decide⟩, rfl, rfl, by decide, by decide⟩

/-- DE closed. -/
def deClosed : DE := { DE.fresh Sink.accepting 0 with session := { Session.fresh Sink.accepting 0 with closed := true } }

theorem test_witness_ClosedEngineRaisesSessionClosed :
    ((Instr.cRsvdOp3 0).port = .ce ∧ ceClosed.session.hung = false ∧ ceClosed.session.fault = .noFault ∧
      ceClosed.session.closed = true) ∧
    (Instr.padW1.port = .de ∧ deClosed.session.hung = false ∧ deClosed.session.fault = .noFault ∧
      deClosed.session.closed = true) := by
  refine ⟨⟨rfl, rfl, rfl, rfl⟩, rfl, rfl, rfl, rfl⟩

theorem test_witness_ReservedBeatsRaiseReservedCommand : stA.ce.session.isOpen ∧ stA.de.session.isOpen :=
  ⟨isOpen_of rfl rfl rfl, isOpen_of rfl rfl rfl⟩

/-- An end that is there stays; an end that comes: FINALIZE's `OK`, and the ERR after a fault that DATA latched. -/
theorem test_witness_ClosedAndTheEndOfARunAreSticky :
    (∃ t, exec .cEndcall (st ceClosed deClosed []) = .next t ∧ t.ce.session.closed = true ∧
      ceClosed.session.errsFaulted ∧ ceClosed.session.runEnd = some .final ∧ t.ce.session.runEnd = some .final) ∧
    (∃ t, exec .dEndcall (st ceClosed deClosed []) = .next t ∧ t.de.session.closed = true) ∧
    (∃ t, exec .cFinalize stA = .next t ∧ stA.ce.session.errsFaulted ∧ stA.ce.session.runEnd = none ∧
      t.ce.session.runEnd = some .final) ∧
    (∃ t, exec .dEndcall (st stA.ce deFaulted []) = .next t ∧ deFaulted.session.errsFaulted ∧
      deFaulted.session.runEnd = none ∧ t.de.session.runEnd = some .faulted) :=
  ⟨⟨_, rfl, rfl, fun _ => rfl, rfl, rfl⟩, ⟨_, rfl, rfl⟩, ⟨_, rfl, fun _ => rfl, rfl, rfl⟩, _, rfl, fun _ => rfl, rfl, rfl⟩

/-- The end of a run and the response it ends with. -/
def endSeen (p : Port) (o : Host.Outcome (Option RunEnd × State) Fault Refusal) : Option (Option RunEnd × List Response) :=
  match o with
  | .next (r, s) => some (r, (s.sessionAt p).responses)
  | _ => none

/-- R203 on the programs: P1 ends final; P4's beats end at the first ERR, one beat before the last; P6 rows 2 to 4 end at
FINALIZE's `OK`, before the ERR; and a session without FINALIZE has not ended. -/
theorem test_run_end :
    endSeen .ce (ceSession [[0x61], [0x61, 0x61]] State.reset) = some (some .final, [.ok 0, .ok 0, .ok 3]) ∧
    endSeen .de (runToEnd .de [.dData 0x00, .dData 0x14, .dData 0x60, .dData 0x33, .dEndcall, .dFinalize] State.reset) =
      some (some .faulted, [.err .badCode 3]) ∧
    endSeen .ce (runToEnd .ce [.cFinalize, .cData 0x61, .cEndcall] State.reset) = some (some .final, [.ok 0]) ∧
    endSeen .ce (runToEnd .ce [.cData 0x61, .cEndcall] State.reset) = some (none, [.ok 0]) := by
  repeat' refine And.intro ?_ ?_
  all_goals decide

/-- P6 row 3: a latched SessionClosed leaves the run ended where it was; P4 row 4: an unanswered fault ends nothing. -/
theorem test_run_end_of_a_session :
    (ceSees (fun e => (e.session.fault, e.session.runEnd)) (exec (.cData 0x61) (st ceClosed stA.de [])) =
      some (.sessionClosed, some .final)) ∧
    deSees (fun e => e.session.runEnd) (exec (.dData 0x33) (st stA.ce deFaulted [])) = some none := by
  refine ⟨by decide, by decide⟩

theorem test_witness_OutIsAppendOnly : ∃ t, exec (.dData 0xB0) stA = .next t ∧ t.de.session.out = stA.de.session.out ++ [0x61] :=
  ⟨_, rfl, rfl⟩

theorem test_witness_MaxCodeNeverDecreases :
    (∃ t, exec (.cData 0x62) stA = .next t ∧ t.ce.session.fault = .noFault ∧ t.ce.maxCode = 2) ∧
    (∃ t, exec (.dData 0x61) State.reset = .next t ∧ t.de.session.fault = .noFault ∧ t.de.maxCode = 1) :=
  ⟨⟨_, rfl, rfl, rfl⟩, _, rfl, rfl, rfl⟩

theorem test_witness_EnginesShareNothing :
    (∃ t, exec (.cData 0x62) stA = .next t ∧ (Instr.cData 0x62).port = .ce) ∧
    (∃ t, exec (.dData 0xB0) stA = .next t ∧ (Instr.dData 0xB0).port = .de) :=
  ⟨⟨_, rfl, rfl⟩, _, rfl, rfl⟩

theorem test_witness_EngineSeesOnlyItself :
    (∃ t, exec (.cData 0x62) stA = .next t ∧ (Instr.cData 0x62).port = .ce ∧ (st stA.ce deClosed []).ce = stA.ce) ∧
    (∃ t, exec (.dData 0xB0) stA = .next t ∧ (Instr.dData 0xB0).port = .de ∧ (st ceClosed stA.de []).de = stA.de) :=
  ⟨⟨_, rfl, rfl, rfl⟩, _, rfl, rfl, rfl⟩

theorem test_witness_StepKeepsMemoryCanonical :
    Memory.wf (st stA.ce stA.de [.present (.beat .ce 0x062)]) = true ∧
    ∃ t, step (st stA.ce stA.de [.present (.beat .ce 0x062)]) = .next t ∧ t.ce.encDict = [([0x61], 1), ([0x62], 2)] :=
  ⟨rfl, _, rfl, rfl⟩

theorem test_witness_StepKeepsTheCompressorInvariant :
    stA.ce.Inv ∧ ∃ t, step (st stA.ce stA.de [.present (.beat .ce 0x062)]) = .next t ∧ t.ce.maxCode = 2 :=
  ⟨⟨rfl, fun _ => ceA_regular _ _ (.inl rfl)⟩, _, rfl, rfl⟩

/-- DD of `deA`: two entries. -/
theorem deA_lookup (k : Sink) (c : Code) :
    ddLookup (deA k).decDict c = if c = 0 then some [] else if c = 1 then some [0x61] else none := by
  simp only [deA, ddLookup, FMap.find, eq_comm (b := c)]

theorem code_le_one {c : Code} (h : c.toNat ≤ 1) : c = 0 ∨ c = 1 := by
  rcases (by omega : c.toNat = 0 ∨ c.toNat = 1) with h | h
  · exact .inl (BitVec.eq_of_toNat_eq h)
  · exact .inr (BitVec.eq_of_toNat_eq h)

theorem deA_keysExact (k : Sink) : (deA k).keysExact := by
  intro c
  rw [deA_lookup]
  constructor
  · rintro ⟨s, h⟩
    split at h
    · rename_i hc; subst hc; exact Nat.zero_le _
    · split at h
      · rename_i hc; subst hc; exact Nat.le_refl 1
      · cases h
  · intro h
    rcases code_le_one h with rfl | rfl
    · exact ⟨[], rfl⟩
    · exact ⟨[0x61], rfl⟩

/-- R29 of DE after the stream byte `61`. -/
theorem deA_regular (k : Sink) : (deA k).regular := by
  refine ⟨deA_keysExact k, ⟨rfl, ?_⟩, Nat.zero_le _, .inl (by decide : 0 < minBits 1), rfl⟩
  intro c s h1 h
  rw [deA_lookup] at h
  split at h
  · rename_i hc; subst hc; exact absurd h1 (by decide)
  · split at h
    · rename_i hc; subst hc; cases h
      exact ⟨by decide, by decide, 0, 0x61, [], by decide, rfl, rfl⟩
    · cases h

theorem test_witness_StepKeepsTheDecompressorInvariant :
    stA.de.Inv ∧ ∃ t, step (st stA.ce stA.de [.present (.beat .de 0x0B0)]) = .next t ∧ t.de.lastCode = 1 :=
  ⟨⟨rfl, fun _ => deA_regular _⟩, _, rfl, rfl⟩

theorem test_witness_StepKeepsTheCountsAddingUp :
    stA.ce.session.counted ∧ stA.de.session.counted ∧
    ∃ t, step (st stA.ce stA.de [.present (.beat .de 0x0B0)]) = .next t ∧ t.de.session.callCount = 2 :=
  ⟨fun _ => rfl, fun _ => rfl, _, rfl, rfl⟩

theorem test_witness_DecoderCallsEndWithTheCount : stA.de.session.isOpen := isOpen_of rfl rfl rfl

/-- The first code field of a stream (width 0), one of width 1, a tail code, and one of width 16. -/
theorem test_witness_CodeFieldWritesItsExpansion :
    (Instr.codeW0.codeField = some (0, 0) ∧ State.reset.de.session.isOpen ∧ State.reset.de.dstate = .expectingCode ∧
      State.reset.de.bitSource = [] ∧ minBits State.reset.de.maxCode = 0 ∧
      ddLookup State.reset.de.decDict (BitVec.ofNat 16 0) = some [] ∧ State.reset.de.session.sink.acceptsNext 0 = true) ∧
    ((Instr.codeW1 1).codeField = some (1, 1) ∧ (Instr.tailW1 1).codeField = some (1, 1) ∧ stA.de.session.isOpen ∧
      stA.de.dstate = .expectingCode ∧ stA.de.bitSource = [] ∧ minBits stA.de.maxCode = 1 ∧
      ddLookup stA.de.decDict (BitVec.ofNat 16 1) = some [0x61] ∧ stA.de.session.sink.acceptsNext 1 = true) ∧
    ((Instr.codeW16 0x8001).codeField = some (16, 0x8001) ∧ minBits (deW 16 0x8001).maxCode = 16 ∧
      ddLookup (deW 16 0x8001).decDict (BitVec.ofNat 16 0x8001) = some [0x5A]) := by
  refine ⟨⟨rfl, isOpen_of rfl rfl rfl, rfl, rfl, by decide, rfl, rfl⟩,
    ⟨by decide, by decide, isOpen_of rfl rfl rfl, rfl, rfl, by decide, rfl, by decide⟩, by decide, by decide, by decide⟩

theorem test_witness_CodeFieldWithoutEntryIsBadCode :
    (Instr.codeW2 3).codeField = some (2, 3) ∧ (deTwo Sink.accepting).session.isOpen ∧
    (deTwo Sink.accepting).dstate = .expectingCode ∧ (deTwo Sink.accepting).bitSource = [] ∧
    minBits (deTwo Sink.accepting).maxCode = 2 ∧ ddLookup (deTwo Sink.accepting).decDict (BitVec.ofNat 16 3) = none := by
  refine ⟨by decide, isOpen_of rfl rfl rfl, rfl, rfl, by decide, by decide⟩

theorem test_witness_BadCodeConsumesOnlyItsBits :
    ∃ e', dCode { deTwo Sink.accepting with bitSource := w [1,1,0,0,0,0,0] } = .raise .badCode 3 e' ∧
      e'.bitSource = w [0,0,0,0,0] := ⟨_, rfl, rfl⟩

theorem deTwo_lookup (k : Sink) (c : Code) :
    ddLookup (deTwo k).decDict c =
      if c = 0 then some [] else if c = 1 then some [0x00] else if c = 2 then some [0x28] else none := by
  simp only [deTwo, ddLookup, FMap.find, eq_comm (b := c)]

theorem deTwo_keysExact (k : Sink) (q : Bits) : ({ deTwo k with bitSource := q } : DE).keysExact := by
  intro c
  rw [deTwo_lookup]
  constructor
  · rintro ⟨s, h⟩
    show c.toNat ≤ 2
    split at h
    · rename_i hc; subst hc; decide
    · split at h
      · rename_i hc; subst hc; decide
      · split at h
        · rename_i hc; subst hc; decide
        · cases h
  · intro h
    have h' : c.toNat ≤ 2 := h
    rcases (by omega : c.toNat = 0 ∨ c.toNat = 1 ∨ c.toNat = 2) with h | h | h
    · obtain rfl : c = 0 := BitVec.eq_of_toNat_eq h
      exact ⟨[], rfl⟩
    · obtain rfl : c = 1 := BitVec.eq_of_toNat_eq h
      exact ⟨[0x00], rfl⟩
    · obtain rfl : c = 2 := BitVec.eq_of_toNat_eq h
      exact ⟨[0x28], rfl⟩

/-- `max_code = 2` with the fields 3 (above) and 2 (not above), and `max_code = 1`, one below a power of two. -/
theorem test_witness_BadCodeExactlyAboveMaxCode :
    (({ deTwo Sink.accepting with bitSource := w [1,1] } : DE).keysExact ∧
      minBits (deTwo Sink.accepting).maxCode ≤ (w [1,1]).length ∧ 2 < beVal (w [1,1]) ∧ ¬ 2 < beVal (w [1,0])) ∧
    ((deA Sink.accepting).keysExact ∧ (deA Sink.accepting).maxCode.toNat + 1 = 2 ^ 1) :=
  ⟨⟨deTwo_keysExact _ _, by decide, by decide, by decide⟩, deA_keysExact _, by decide⟩

/-- DE that awaits a literal after code 1. -/
def deLit (k : Sink) : DE := { deAB k with bitSource := [] }

theorem test_witness_LiteralMintsTheNextEntry :
    (deLit Sink.accepting).session.isOpen ∧ (deLit Sink.accepting).dstate = .expectingByte ∧
    (deLit Sink.accepting).bitSource = [] ∧ (deLit Sink.accepting).maxCode.toNat < 65535 ∧
    ddLookup (deLit Sink.accepting).decDict (deLit Sink.accepting).lastCode = some [0x61] ∧
    (deLit Sink.accepting).session.sink.acceptsNext 1 = true := by
  refine ⟨isOpen_of rfl rfl rfl, rfl, rfl, by decide, rfl, by decide⟩

theorem test_witness_LiteralAtTheTopFaults :
    ({ deLit Sink.accepting with maxCode := 65535 } : DE).session.isOpen ∧
    ({ deLit Sink.accepting with maxCode := 65535 } : DE).dstate = .expectingByte ∧
    ({ deLit Sink.accepting with maxCode := 65535 } : DE).bitSource = [] ∧
    ({ deLit Sink.accepting with maxCode := 65535 } : DE).maxCode.toNat = 65535 := by
  refine ⟨isOpen_of rfl rfl rfl, rfl, rfl, rfl⟩

/-- Both clauses: behind a code; one bit short of the width; exactly the width. -/
theorem test_witness_PadWritesNothing :
    (encode .padW7 = .field .pad (w [0,0,0,0,0,0,0]) ∧ (deLit Sink.accepting).session.isOpen ∧
      (deLit Sink.accepting).bitSource = [] ∧ ddLookup (deLit Sink.accepting).decDict 0 = some [] ∧
      (deLit Sink.accepting).dstate = .expectingByte) ∧
    (encode .padW1 = .field .pad (w [0]) ∧ (w [0]).length < minBits (deTwo Sink.accepting).maxCode) ∧
    (encode .padW2 = .field .pad (w [0,0]) ∧ (deTwo Sink.accepting).session.isOpen ∧ (deTwo Sink.accepting).bitSource = [] ∧
      ddLookup (deTwo Sink.accepting).decDict 0 = some [] ∧ (deTwo Sink.accepting).dstate = .expectingCode ∧
      minBits (deTwo Sink.accepting).maxCode ≤ (w [0,0]).length) := by
  refine ⟨⟨rfl, isOpen_of rfl rfl rfl, rfl, rfl, rfl⟩, ⟨rfl, by decide⟩, rfl, isOpen_of rfl rfl rfl, rfl, rfl, rfl, by decide⟩

/-- Code fields of 9 bits. -/
theorem test_witness_DataShortOfAFieldOnlyBuffers :
    (deW 9 0).session.isOpen ∧ (deW 9 0).bitSource.length + 8 < (deW 9 0).awaitedWidth := by
  refine ⟨isOpen_of rfl rfl rfl, by decide⟩

/-- The literal is the byte itself, and one bit of it is there already; a code field alone (P3 row 3); a literal, then the
code 0 (P3 row 4), and then the code just minted. -/
theorem test_witness_DataCompletesALiteralOrACode :
    ((deLit Sink.accepting).session.isOpen ∧ (deLit Sink.accepting).dstate = .expectingByte ∧
      (deLit Sink.accepting).bitSource = [] ∧ [] ++ beBits (0x61 : Byte).toNat 8 = beBits (0x61 : Byte).toNat 8 ++ [] ∧
      (deLit Sink.accepting).maxCode.toNat < 65535 ∧ ([] : Bits).length < minBits ((deLit Sink.accepting).maxCode + 1) ∧
      ddLookup (deLit Sink.accepting).decDict (deLit Sink.accepting).lastCode = some [0x61] ∧
      (deLit Sink.accepting).session.sink.acceptsNext 1 = true) ∧
    (w [0] ++ beBits (0xC3 : Byte).toNat 8 = beBits (0x61 : Byte).toNat 8 ++ w [1] ∧
      (w [1]).length < minBits ((deLit Sink.accepting).maxCode + 1)) ∧
    ((deA Sink.accepting).session.isOpen ∧ (deA Sink.accepting).dstate = .expectingCode ∧
      (1 : Code).toNat < 2 ^ minBits (deA Sink.accepting).maxCode ∧
      (deA Sink.accepting).bitSource ++ beBits (0xB0 : Byte).toNat 8 =
        beBits (1 : Code).toNat (minBits (deA Sink.accepting).maxCode) ++ w [0,1,1,0,0,0,0] ∧
      ddLookup (deA Sink.accepting).decDict 1 = some [0x61] ∧ (deA Sink.accepting).session.sink.acceptsNext 1 = true) ∧
    ((deAB Sink.accepting).session.isOpen ∧ (deAB Sink.accepting).dstate = .expectingByte ∧
      (deAB Sink.accepting).maxCode.toNat < 65535 ∧ (0 : Code).toNat < 2 ^ minBits ((deAB Sink.accepting).maxCode + 1) ∧
      (deAB Sink.accepting).bitSource ++ beBits (0x80 : Byte).toNat 8 =
        beBits (0x61 : Byte).toNat 8 ++ beBits (0 : Code).toNat (minBits ((deAB Sink.accepting).maxCode + 1)) ++ w [0,0,0,0,0] ∧
      ddLookup (deAB Sink.accepting).decDict (deAB Sink.accepting).lastCode = some [0x61] ∧
      (if (0 : Code) = (deAB Sink.accepting).maxCode + 1 then some ([0x61] ++ [0x61])
        else ddLookup (deAB Sink.accepting).decDict 0) = some [] ∧
      (deAB Sink.accepting).session.sink.acceptsNext (1 + 0) = true) ∧
    ((deAB Sink.accepting).bitSource ++ beBits (0xC0 : Byte).toNat 8 =
        beBits (0x61 : Byte).toNat 8 ++ beBits (2 : Code).toNat (minBits ((deAB Sink.accepting).maxCode + 1)) ++ w [0,0,0,0,0] ∧
      deSees (fun e => (e.lastCode, e.session.out)) (exec (.dData 0xC0) (st stA.ce (deAB Sink.accepting) [])) =
        some (2, [0x61, 0x61, 0x61, 0x61, 0x61])) := by
  refine ⟨⟨isOpen_of rfl rfl rfl, rfl, rfl, rfl, by decide, by decide, rfl, by decide⟩, ⟨by decide, by decide⟩,
    ⟨isOpen_of rfl rfl rfl, rfl, by decide, by decide, by decide, by decide⟩,
    ⟨isOpen_of rfl rfl rfl, rfl, by decide, by decide, by decide, by decide, by decide, by decide⟩, by decide, by decide⟩

theorem test_witness_FirstDataByteIsTheFirstLiteral :
    State.reset.de = DE.fresh Sink.accepting 0 ∧ Sink.accepting.acceptsNext 1 = true := ⟨rfl, by decide⟩

theorem test_witness_DriveAlwaysEnds :
    ((Instr.dData 0xB0).port = .de ∧ (Instr.dData 0xB0).answered = false ∧ Instr.padW7.port = .de ∧
      Instr.padW7.answered = false ∧ stA.de.session.hung = false) ∧
    ∃ t, exec (.dData 0xB0) stA = .next t ∧ t.de.session.sound := by
  refine ⟨⟨rfl, by decide, rfl, by decide, rfl⟩, _, rfl, rfl, rfl⟩

theorem test_witness_OneByteAtMostTwoSteps :
    (deA Sink.accepting).session.sound ∧ (deA Sink.accepting).regular ∧
    driveSteps 10 (bsrPush [0x80] (deAB Sink.accepting)) = 2 :=
  ⟨⟨rfl, rfl⟩, deA_regular _, by decide⟩

theorem test_witness_SubchunkSizeIsUnobservable :
    1 ≤ 1 ∧ 1 ≤ 4 ∧ ∃ e, readChunks 4 [0x61, 0xB0, 0x80] [] (DE.fresh Sink.accepting 0) = .ok () e ∧
      e.session.out = [0x61, 0x61, 0x61] := ⟨by decide, by decide, _, rfl, rfl⟩

/-- P3 without its finalize. -/
theorem test_witness_ReadPartitionIsUnobservable :
    State.reset.de.session.isOpen ∧
    ∃ t, execAll (readsBeats [[0x61], [0xB0, 0x80]]) State.reset = .next t ∧ t.de.session.fault = .noFault :=
  ⟨isOpen_of rfl rfl rfl, _, rfl, rfl⟩

/-- P1. -/
theorem test_witness_WritePartitionIsUnobservable :
    State.reset.ce.session.isOpen ∧
    ∃ t, execAll (writesBeats [[0x61], [0x61, 0x61]] ++ [.cFinalize]) State.reset = .next t ∧
      t.ce.session.fault = .noFault ∧ t.ce.session.out = [0x61, 0xB0, 0x80] :=
  ⟨isOpen_of rfl rfl rfl, _, rfl, rfl, rfl⟩

theorem test_witness_EncoderWritesThePhraseParse :
    State.reset.ce.session.sink = Sink.accepting ∧ (parsePhrases [0x61, 0x61, 0x61]).1 = [[0x61], [0x61, 0x61]] ∧
    (parsePhrases [0x61, 0x61, 0x61]).1.length ≤ 65535 := by
  refine ⟨rfl, by decide, by decide⟩

theorem test_witness_DecodeUndoesEncodeOfEveryInput :
    State.reset.ce.session.sink = Sink.accepting ∧ State.reset.de.session.sink = Sink.accepting ∧
    (parsePhrases [0x61, 0x61]).1.length ≤ 65535 ∧ (parsePhrases []).1.length ≤ 65535 := by
  refine ⟨rfl, rfl, by decide, by decide⟩

theorem test_witness_DictionariesGrowInLockstep :
    ∃ t u, encodeRun [0x61, 0x61, 0x61] State.reset = .next t ∧ decodeRun t.ce.session.out t = .next u ∧
      u.de.maxCode = 2 ∧ (parsePhrases [0x61, 0x61, 0x61]).1.length ≤ 65535 :=
  ⟨_, _, rfl, rfl, rfl, by decide⟩

/-- The trie of `ceA`: one edge from the root. -/
def trieA (k : Sink) (cur : Code) : TrieCE := { child := [((0, 0x61), 1)], cur := cur, base := ceA k }

/-- A pending match at the node of `61` (then a byte makes a new edge, or the tail is emitted), and the reset state. -/
theorem test_witness_TrieWalkRefinesTheMap :
    (trieRefines { child := [], cur := 0, base := CE.fresh Sink.accepting 0 } (CE.fresh Sink.accepting 0) ∧
      (CE.fresh Sink.accepting 0).regular) ∧
    (trieRefines (trieA Sink.accepting 1) (ceAA Sink.accepting) ∧ (ceAA Sink.accepting).regular) := by
  refine ⟨⟨⟨?_, rfl, .inl ⟨rfl, rfl⟩, rfl, rfl, rfl⟩, ceFresh_regular _ _⟩,
    ⟨?_, rfl, .inr ⟨by decide, rfl⟩, rfl, rfl, rfl⟩, ceA_regular _ _ (.inr rfl)⟩
  · intro p b c
    constructor
    · intro h; cases h
    · rintro ⟨s, -, h⟩; cases h
  · intro p b c
    have hl : ∀ s, edLookup (ceAA Sink.accepting).encDict s = if s = [0x61] then some 1 else none :=
      ceA_lookup Sink.accepting
    show FMap.find [((0, 0x61), 1)] (p, b) = some c ↔ _
    simp only [FMap.find, nodeSeq, hl]
    constructor
    · intro h
      split at h
      · rename_i hp
        cases hp; cases h
        exact ⟨[], .inl ⟨rfl, rfl⟩, rfl⟩
      · cases h
    · rintro ⟨s, hs, h⟩
      split at h
      · rename_i hsb
        cases h
        cases s with
        | nil =>
          rcases hs with ⟨rfl, -⟩ | ⟨h, -⟩
          · simp only [List.nil_append, List.cons.injEq, and_true] at hsb
            subst hsb; rfl
          · exact absurd rfl h
        | cons a l => exact absurd (congrArg List.length hsb) (by simp)
      · cases h

/-- Entry 1 is (parent 0, `61`) (V-DD-2); the mint of code 2 below `last_code`. -/
theorem test_witness_ParentPointersReadAsTheArray :
    (deA Sink.accepting).keysExact ∧ parentHolds [(1, (0, 0x61))] (deA Sink.accepting).decDict (deA Sink.accepting).maxCode ∧
    codeInc (deA Sink.accepting).maxCode = some 2 ∧
    (deA Sink.accepting).lastCode.toNat ≤ (deA Sink.accepting).maxCode.toNat := by
  refine ⟨deA_keysExact _, ⟨rfl, ?_⟩, by decide, by decide⟩
  intro c h1 h2
  rcases code_le_one h2 with rfl | rfl
  · exact absurd h1 (by decide)
  · exact ⟨0, 0x61, [], rfl, by decide, rfl, rfl⟩

end Sys2Proof.Tests
end

section
/-! Scope and the step: which pending event the fetch takes, and what a step then does. -/

namespace Sys2Proof.Machine

open Sys2Proof

/-- An event whose engine is not inside a beat is taken (R67). -/
theorem pickEvent_cons_of_not_hung {s : State} {ev : HostEvent} (rest : List HostEvent)
    (h : (s.sessionAt ev.port).hung = false) : pickEvent s (ev :: rest) = some (ev, rest) := by
  simp [pickEvent, h]

/-- An event whose engine is held inside a beat stays at its place, and the pick goes on behind it (R207). -/
theorem pickEvent_cons_of_hung {s : State} {held ev : HostEvent} {rest rest' : List HostEvent}
    (hheld : (s.sessionAt held.port).hung = true) (hpick : pickEvent s rest = some (ev, rest')) :
    pickEvent s (held :: rest) = some (ev, held :: rest') := by
  simp [pickEvent, hheld, hpick]

/-- A step that picks a word runs the instruction the word decodes to. -/
theorem step_of_pickEvent_present {s : State} {e : Encoded} {i : Instr} {rest : List HostEvent}
    (hpick : pickEvent s s.host = some (.present e, rest)) (hdec : decode e = .ok i) :
    step s = exec i { s with host := rest } := by
  simp [step, fetch, hpick, hdec]

/-- Settles O6: the pick passes over the held event and takes the word behind it. -/
theorem busyEngineIsHeldBack : Obligations.BusyEngineIsHeldBack := by
  intro s held e i rest hhost hheld hdec hfree
  have hword : pickEvent s (.present e :: rest) = some (.present e, rest) := pickEvent_cons_of_not_hung rest hfree
  have hpick : pickEvent s s.host = some (.present e, held :: rest) := by
    rw [hhost]
    exact pickEvent_cons_of_hung hheld hword
  exact step_of_pickEvent_present hpick hdec

end Sys2Proof.Machine
end

section
/-! What an instruction can do to one engine: which engine it addresses, what a beat's body leaves, and what that says of
every property that the engine's own operations keep (10_state.md R31, 60_exceptions.md R178 to R180). -/

namespace Sys2Proof.Machine

open Sys2Proof

/-! ### An instruction is a function of its own engine (R31) -/

/-- The engine an instruction acts on, and that the same function acts on it in every state. -/
theorem exec_local (i : Instr) :
    (i.port = .ce ∧ ∃ f, ∀ s, exec i s = onCE f s) ∨ (i.port = .de ∧ ∃ f, ∀ s, exec i s = onDE f s) := by
  cases i with
  | cData | cEndcall | cFinalize | cRsvdEndcallNz | cRsvdFinalizeNz | cRsvdOp3 => exact .inl ⟨rfl, _, fun _ => rfl⟩
  | _ => exact .inr ⟨rfl, _, fun _ => rfl⟩

/-- Settles O33: the function of one engine is all that an instruction runs. -/
theorem enginesShareNothing : Obligations.EnginesShareNothing := by
  intro i s t h
  rcases exec_local i with ⟨hp, f, hf⟩ | ⟨hp, f, hf⟩
  · obtain ⟨e, _, rfl⟩ := onCE_next.mp (hf s ▸ h)
    simp [hp]
  · obtain ⟨e, _, rfl⟩ := onDE_next.mp (hf s ▸ h)
    simp [hp]

/-- Settles O34: the same function of the engine, at the same engine, answers the same. -/
theorem engineSeesOnlyItself : Obligations.EngineSeesOnlyItself := by
  intro i s s' t h
  rcases exec_local i with ⟨hp, f, hf⟩ | ⟨hp, f, hf⟩
  · obtain ⟨e, he, rfl⟩ := onCE_next.mp (hf s ▸ h)
    refine ⟨fun _ hs => ⟨{ s' with ce := e }, ?_, rfl⟩, by simp [hp]⟩
    rw [hf]
    exact onCE_next.mpr ⟨e, by rw [hs, he], rfl⟩
  · obtain ⟨e, he, rfl⟩ := onDE_next.mp (hf s ▸ h)
    refine ⟨by simp [hp], fun _ hs => ⟨{ s' with de := e }, ?_, rfl⟩⟩
    rw [hf]
    exact onDE_next.mpr ⟨e, by rw [hs, he], rfl⟩

/-- CE across an instruction: untouched, or one beat of its own. -/
theorem exec_ce {i : Instr} {s t : State} (h : exec i s = .next t) :
    t.ce = s.ce ∨ ∃ a body, CEBody a body ∧ s.ce.beat a body = .next t.ce := by
  rcases exec_shape i s with ⟨_, body, hb, he⟩ | ⟨_, body, _, he⟩
  · obtain ⟨e, h1, rfl⟩ := onCE_next.mp (he ▸ h)
    exact .inr ⟨_, body, hb, h1⟩
  · obtain ⟨e, _, rfl⟩ := onDE_next.mp (he ▸ h)
    exact .inl rfl

/-- DE across an instruction: untouched, or one beat of its own. -/
theorem exec_de {i : Instr} {s t : State} (h : exec i s = .next t) :
    t.de = s.de ∨ ∃ a body, DEBody a body ∧ s.de.beat a body = .next t.de := by
  rcases exec_shape i s with ⟨_, body, _, he⟩ | ⟨_, body, hb, he⟩
  · obtain ⟨e, _, rfl⟩ := onCE_next.mp (he ▸ h)
    exact .inl rfl
  · obtain ⟨e, h1, rfl⟩ := onDE_next.mp (he ▸ h)
    exact .inr ⟨_, body, hb, h1⟩

/-- The induction step of every invariant of CE: a reset makes it hold, an attached sink and each beat keep it. -/
theorem step_keeps_ce {P : CE → Prop} (fresh : ∀ k n, P (CE.fresh k n))
    (attach : ∀ e k, P e → P { e with session := { e.session with sink := k } })
    (beat : ∀ a body e e', CEBody a body → P e → e.beat a body = .next e' → P e')
    {s t : State} (hs : P s.ce) (h : step s = .next t) : P t.ce := by
  rcases step_next h with rfl | ⟨rest, ⟨p, rfl⟩ | ⟨p, k, rfl⟩ | ⟨i, hi⟩⟩
  · exact hs
  · cases p with
    | ce => exact fresh _ _
    | de => exact hs
  · cases p with
    | ce => exact attach _ k hs
    | de => exact hs
  · rcases exec_ce hi with he | ⟨a, body, hb, he⟩
    · rwa [he]
    · exact beat a body _ _ hb hs he

/-- The induction step of every invariant of DE: a reset makes it hold, an attached sink and each beat keep it. -/
theorem step_keeps_de {P : DE → Prop} (fresh : ∀ k n, P (DE.fresh k n))
    (attach : ∀ e k, P e → P { e with session := { e.session with sink := k } })
    (beat : ∀ a body e e', DEBody a body → P e → e.beat a body = .next e' → P e')
    {s t : State} (hs : P s.de) (h : step s = .next t) : P t.de := by
  rcases step_next h with rfl | ⟨rest, ⟨p, rfl⟩ | ⟨p, k, rfl⟩ | ⟨i, hi⟩⟩
  · exact hs
  · cases p with
    | ce => exact hs
    | de => exact fresh _ _
  · cases p with
    | ce => exact hs
    | de => exact attach _ k hs
  · rcases exec_de hi with he | ⟨a, body, hb, he⟩
    · rwa [he]
    · exact beat a body _ _ hb hs he

/-! ### What a rule of an engine leaves -/

/-- `P` holds of the state a rule leaves, however it ends, and what it raises is a fault (R170: cause 0 is none). -/
def Res.Leaves {σ α : Type} (P : σ → Prop) : Res σ α → Prop
  | .ok _ e => P e
  | .raise c _ e => c ≠ .noFault ∧ P e
  | .hang e => P e
  | .refuse _ => True
  | .fault _ => True

theorem Res.Leaves.andThen {σ α β : Type} {P : σ → Prop} {r : Res σ α} {f : α → σ → Res σ β} (hr : r.Leaves P)
    (hf : ∀ a e, P e → (f a e).Leaves P) : (r.andThen f).Leaves P := by
  cases r with
  | ok a e => exact hf a e hr
  | _ => exact hr

/-- Statements in sequence end with a value exactly when each of them does. -/
theorem Res.andThen_eq_ok {σ α β : Type} {r : Res σ α} {f : α → σ → Res σ β} {b : β} {e' : σ} :
    r.andThen f = .ok b e' ↔ ∃ a e, r = .ok a e ∧ f a e = .ok b e' := by
  cases r <;> simp [Res.andThen]

/-- A property of CE that each single operation of its rules keeps (R44, R90 to R92, R130 to R134, R208). -/
structure CE.Stable (P : CE → Prop) : Prop where
  write : ∀ e bs, P e → P { e with session := (e.session.sinkWrite bs).2 }
  queue : ∀ e q, P e → P { e with bitSink := q }
  pend : ∀ e p, P e → P { e with pending := p }
  mint : ∀ e m, codeInc e.maxCode = some m → P e → P (e.mint m)
  answer : ∀ e, P e → P { e with session := e.session.respondCount }
  close : ∀ e, P e → P { e with session := { e.session with closed := true } }
  hold : ∀ e, P e → P { e with session := { e.session with hung := true } }

/-- A property of DE that each single operation of its rules keeps (R44, R100, R101, R151, R152, R155, R156, R208). -/
structure DE.Stable (P : DE → Prop) : Prop where
  write : ∀ e bs, P e → P { e with session := (e.session.sinkWrite bs).2 }
  queue : ∀ e q, P e → P { e with bitSource := q }
  parse : ∀ e c d, P e → P { e with lastCode := c, dstate := d }
  mint : ∀ e m b, codeInc e.maxCode = some m → P e → P (e.mint m b)
  answer : ∀ e, P e → P { e with session := e.session.respondCount }
  close : ∀ e, P e → P { e with session := { e.session with closed := true } }
  hold : ∀ e, P e → P { e with session := { e.session with hung := true } }

section CELeaves

variable {P : CE → Prop} (hP : CE.Stable P) {e : CE}
include hP

theorem CE.Stable.sinkWrite (bs : ByteSeq) (h : P e) : (e.sinkWrite bs).Leaves P := by
  have hw := hP.write e bs h
  rcases CE.sinkWrite_cases bs e with ⟨he, _⟩ | ⟨he, _⟩ | ⟨he, _⟩ <;> rw [he]
  · exact hw
  · exact ⟨by decide, hw⟩
  · exact hw

theorem CE.Stable.bskAppend (v w : Nat) (h : P e) : (bskAppend v w e).Leaves P := by
  by_cases hv : v < 2 ^ w
  · have hq := hP.queue e (e.bitSink ++ beBits v w) h
    rw [bskAppend_eq v w e hv]
    split
    · exact hq
    · exact hP.sinkWrite _ (hP.queue _ _ hq)
  · rw [Machine.bskAppend, if_pos (Nat.not_lt.mp hv)]
    trivial

theorem CE.Stable.cStep (b : Byte) (h : P e) : (cStep b e).Leaves P := by
  have hx : P (e.extend b) := hP.pend e _ h
  unfold Machine.cStep cMiss
  split
  · exact hx
  · split
    · exact ⟨by decide, hx⟩
    · rename_i m hm
      rw [codePrev_codeInc hm]
      refine (hP.bskAppend _ _ (hP.mint _ m hm hx)).andThen fun _ _ h1 => ?_
      exact (hP.bskAppend _ _ h1).andThen fun _ _ h2 => hP.pend _ _ h2

theorem CE.Stable.cFinalizeBody (h : P e) : (cFinalizeBody e).Leaves P := by
  have htail : (cTail e).Leaves P := by
    unfold cTail
    split
    · exact h
    · exact hP.bskAppend _ _ h
  refine htail.andThen fun _ e1 h1 => ?_
  have hdrain : (bskDrain e1).Leaves P := hP.sinkWrite _ (hP.queue e1 [] h1)
  exact hdrain.andThen fun _ _ h2 => hP.answer _ (hP.close _ h2)

/-- Every body of a beat of CE keeps what its operations keep. -/
theorem CE.Stable.body {a : Bool} {body : CE → Res CE Unit} (hb : CEBody a body) (h : P e) : (body e).Leaves P := by
  cases hb with
  | data b => exact hP.cStep b h
  | endcall => exact hP.answer e h
  | finalize => exact hP.cFinalizeBody h
  | reserved => exact ⟨by decide, h⟩

end CELeaves

section DELeaves

variable {P : DE → Prop} (hP : DE.Stable P) {e : DE}
include hP

theorem DE.Stable.sinkWrite (bs : ByteSeq) (h : P e) : (e.sinkWrite bs).Leaves P := by
  have hw := hP.write e bs h
  rcases DE.sinkWrite_cases bs e with ⟨he, _⟩ | ⟨he, _⟩ | ⟨he, _⟩ <;> rw [he]
  · exact hw
  · exact ⟨by decide, hw⟩
  · exact hw

theorem DE.Stable.dCode (h : P e) : (dCode e).Leaves P := by
  by_cases hl : e.bitSource.length < e.codeWidth
  · rw [dCode_stall e hl]
    exact h
  · rw [dCode_take e (Nat.not_lt.mp hl)]
    have hq := hP.queue e (e.bitSource.drop e.codeWidth) h
    unfold dCodeValue
    split
    · exact ⟨by decide, hq⟩
    · exact (hP.sinkWrite _ hq).andThen fun _ _ h1 => hP.parse _ _ _ h1

theorem DE.Stable.dByte (h : P e) : (dByte e).Leaves P := by
  by_cases hl : e.bitSource.length < 8
  · rw [dByte_stall e hl]
    exact h
  · rw [dByte_take e (Nat.not_lt.mp hl)]
    have hq := hP.queue e (e.bitSource.drop 8) h
    unfold dByteValue
    split
    · exact ⟨by decide, hq⟩
    · rename_i m hm
      exact (hP.sinkWrite _ (hP.mint _ m _ hm hq)).andThen fun _ e1 h1 => hP.parse e1 e1.lastCode _ h1

theorem DE.Stable.dStep (h : P e) : (dStep e).Leaves P := by
  unfold Machine.dStep
  split
  · exact hP.dCode h
  · exact hP.dByte h

theorem DE.Stable.dDrive (h : P e) : (dDrive e).Leaves P := by
  induction e using dDrive_induction with
  | stop e hstop =>
    have hl := hP.dStep h
    rw [dDrive_eq]
    rcases dStep_ends e with ⟨e', he⟩ | he | ⟨c, v, e', he⟩ | ⟨e', he⟩
    · exact absurd he (hstop e')
    all_goals
      rw [he] at hl ⊢
      exact hl
  | go e e' he ih =>
    have hl := hP.dStep h
    rw [he] at hl
    rw [dDrive_eq, he]
    exact ih hl

/-- Every body of a beat of DE, or of a field arriving at it, keeps what its operations keep. -/
theorem DE.Stable.body {a : Bool} {body : DE → Res DE Unit} (hb : DEBody a body) (h : P e) : (body e).Leaves P := by
  cases hb with
  | receive bits => exact hP.dDrive (hP.queue e _ h)
  | endcall => exact hP.answer e h
  | finalize => exact hP.answer _ (hP.close e h)
  | reserved => exact ⟨by decide, h⟩

end DELeaves

/-! ### A beat after which no fault is latched -/

section CEUnfaulted

variable {a : Bool} {body : CE → Res CE Unit} {e e' : CE}

/-- What a body raises is a fault. -/
theorem CEBody.raise_ne_noFault (hb : CEBody a body) {c : Cause} {v : BitVec 16} {e1 : CE}
    (h : body e = .raise c v e1) : c ≠ .noFault := by
  have stable : CE.Stable fun _ => True := by constructor <;> simp
  have hl := stable.body hb (e := e) trivial
  rw [h] at hl
  exact hl.1

/-- Without a fault latched after it, a beat of CE ran its body to its end, or is held in it. -/
theorem CE.beat_unfaulted (hb : CEBody a body) (h : e.beat a body = .next e') (hf : e'.session.fault = .noFault) :
    e.session.fault = .noFault ∧ e.session.hung = false ∧ e.session.closed = false ∧
      (body e = .ok () e' ∨ ∃ e1, body e = .hang e1 ∧ e' = { e1 with session := { e1.session with hung := true } }) := by
  obtain ⟨hh, ⟨hne, rfl⟩ | ⟨_, _, rfl⟩ | ⟨hf0, hc, hok | ⟨c, v, e1, hr, rfl⟩ | hhang⟩⟩ := CE.beat_next h
  · exact absurd (by simpa using hf) hne
  · simp at hf
  · exact ⟨hf0, hh, hc, .inl hok⟩
  · exact absurd (by simpa using hf) (hb.raise_ne_noFault hr)
  · exact ⟨hf0, hh, hc, .inr hhang⟩

/-- An engine sound after a beat was open before it, and the beat ran its body to its end. -/
theorem CE.beat_sound (hb : CEBody a body) (h : e.beat a body = .next e') (hs : e'.session.sound) :
    e.session.isOpen ∧ body e = .ok () e' := by
  obtain ⟨hf, hh, hc, hok | ⟨e1, _, rfl⟩⟩ := CE.beat_unfaulted hb h hs.1
  · exact ⟨⟨⟨hf, hh⟩, hc⟩, hok⟩
  · exact absurd hs.2 (by simp)

/-- What the operations of CE keep while no fault is latched, a beat keeps while no fault is latched. -/
theorem CE.Stable.beat {P : CE → Prop} (hP : CE.Stable P) (hb : CEBody a body)
    (hp : e.session.fault = .noFault → P e) (h : e.beat a body = .next e') (hf : e'.session.fault = .noFault) : P e' := by
  obtain ⟨hf0, _, _, hok | ⟨e1, hhang, rfl⟩⟩ := CE.beat_unfaulted hb h hf
  · have hl := hP.body hb (hp hf0)
    rwa [hok] at hl
  · have hl := hP.body hb (hp hf0)
    rw [hhang] at hl
    exact hP.hold e1 hl

end CEUnfaulted

section DEUnfaulted

variable {a : Bool} {body : DE → Res DE Unit} {e e' : DE}

/-- What a body raises is a fault. -/
theorem DEBody.raise_ne_noFault (hb : DEBody a body) {c : Cause} {v : BitVec 16} {e1 : DE}
    (h : body e = .raise c v e1) : c ≠ .noFault := by
  have stable : DE.Stable fun _ => True := by constructor <;> simp
  have hl := stable.body hb (e := e) trivial
  rw [h] at hl
  exact hl.1

/-- Without a fault latched after it, a beat of DE ran its body to its end, or is held in it. -/
theorem DE.beat_unfaulted (hb : DEBody a body) (h : e.beat a body = .next e') (hf : e'.session.fault = .noFault) :
    e.session.fault = .noFault ∧ e.session.hung = false ∧ e.session.closed = false ∧
      (body e = .ok () e' ∨ ∃ e1, body e = .hang e1 ∧ e' = { e1 with session := { e1.session with hung := true } }) := by
  obtain ⟨hh, ⟨hne, rfl⟩ | ⟨_, _, rfl⟩ | ⟨hf0, hc, hok | ⟨c, v, e1, hr, rfl⟩ | hhang⟩⟩ := DE.beat_next h
  · exact absurd (by simpa using hf) hne
  · simp at hf
  · exact ⟨hf0, hh, hc, .inl hok⟩
  · exact absurd (by simpa using hf) (hb.raise_ne_noFault hr)
  · exact ⟨hf0, hh, hc, .inr hhang⟩

/-- An engine sound after a beat was open before it, and the beat ran its body to its end. -/
theorem DE.beat_sound (hb : DEBody a body) (h : e.beat a body = .next e') (hs : e'.session.sound) :
    e.session.isOpen ∧ body e = .ok () e' := by
  obtain ⟨hf, hh, hc, hok | ⟨e1, _, rfl⟩⟩ := DE.beat_unfaulted hb h hs.1
  · exact ⟨⟨⟨hf, hh⟩, hc⟩, hok⟩
  · exact absurd hs.2 (by simp)

/-- What the operations of DE keep while no fault is latched, a beat keeps while no fault is latched. -/
theorem DE.Stable.beat {P : DE → Prop} (hP : DE.Stable P) (hb : DEBody a body)
    (hp : e.session.fault = .noFault → P e) (h : e.beat a body = .next e') (hf : e'.session.fault = .noFault) : P e' := by
  obtain ⟨hf0, _, _, hok | ⟨e1, hhang, rfl⟩⟩ := DE.beat_unfaulted hb h hf
  · have hl := hP.body hb (hp hf0)
    rwa [hok] at hl
  · have hl := hP.body hb (hp hf0)
    rw [hhang] at hl
    exact hP.hold e1 hl

end DEUnfaulted

/-! ### max_code and the counts -/

/-- No operation of CE lowers `max_code` (R11, R82). -/
theorem CE.stable_le_maxCode (n : Nat) : CE.Stable fun e => n ≤ e.maxCode.toNat where
  write _ _ h := h
  queue _ _ h := h
  pend _ _ h := h
  mint e m hm h := by
    have hinc := (codeInc_eq_some hm).1
    show n ≤ m.toNat
    omega
  answer _ h := h
  close _ h := h
  hold _ h := h

/-- No operation of DE lowers `max_code` (R21, R82). -/
theorem DE.stable_le_maxCode (n : Nat) : DE.Stable fun e => n ≤ e.maxCode.toNat where
  write _ _ h := h
  queue _ _ h := h
  parse _ _ _ h := h
  mint e m _ hm h := by
    have hinc := (codeInc_eq_some hm).1
    show n ≤ m.toNat
    omega
  answer _ h := h
  close _ h := h
  hold _ h := h

/-- Settles O32: a beat that latches no fault only did operations that keep `max_code` or mint the next code. -/
theorem maxCodeNeverDecreases : Obligations.MaxCodeNeverDecreases := by
  intro i s t h
  constructor
  · intro hf
    rcases exec_ce h with he | ⟨a, body, hb, he⟩
    · rw [he]
    · exact (CE.stable_le_maxCode _).beat hb (fun _ => le_rfl) he hf
  · intro hf
    rcases exec_de h with he | ⟨a, body, hb, he⟩
    · rw [he]
    · exact (DE.stable_le_maxCode _).beat hb (fun _ => le_rfl) he hf

theorem okTotal_append (l r : List Response) : okTotal (l ++ r) = okTotal l + okTotal r := by
  induction l with
  | nil => simp [okTotal]
  | cons x l ih =>
    cases x with
    | ok n => simp only [List.cons_append, okTotal, ih]; omega
    | err c v => exact ih

/-- `Session.counted` without its premise: the counts answered and the count kept are the length of OUT (R17, R28). -/
def Session.tallied (t : Session) : Prop := okTotal t.responses + t.callCount = t.out.length

theorem Session.counted_iff (t : Session) : t.counted ↔ (t.fault = .noFault → t.tallied) := Iff.rfl

/-- SinkWrite counts the bytes it writes (R44). -/
theorem Session.tallied_sinkWrite {t : Session} (bs : ByteSeq) (h : t.tallied) : (t.sinkWrite bs).2.tallied := by
  obtain ⟨k, hk, _, hout, hcount, _, _, _, hresp, _⟩ := t.sinkWrite_spec bs
  unfold Session.tallied at *
  rw [hout, hcount, hresp, List.length_append, List.length_take]
  omega

/-- An `OK` answers the count it clears (R70, R133, R155). -/
theorem Session.tallied_respondCount {t : Session} (h : t.tallied) : t.respondCount.tallied := by
  unfold Session.tallied at *
  simpa [okTotal_append, okTotal] using h

theorem CE.stable_tallied : CE.Stable fun e => e.session.tallied where
  write _ bs h := Session.tallied_sinkWrite bs h
  queue _ _ h := h
  pend _ _ h := h
  mint _ _ _ h := h
  answer _ h := Session.tallied_respondCount h
  close _ h := h
  hold _ h := h

theorem DE.stable_tallied : DE.Stable fun e => e.session.tallied where
  write _ bs h := Session.tallied_sinkWrite bs h
  queue _ _ h := h
  parse _ _ _ h := h
  mint _ _ _ _ h := h
  answer _ h := Session.tallied_respondCount h
  close _ h := h
  hold _ h := h

/-- Settles O39: every byte written is counted and every answer moves the count into the responses; a reset empties both. -/
theorem stepKeepsTheCountsAddingUp : Obligations.StepKeepsTheCountsAddingUp := by
  intro s t hce hde h
  constructor
  · refine step_keeps_ce (P := fun e => e.session.counted) (fun _ _ _ => rfl) (fun _ _ hp => hp) ?_ hce h
    intro a body e e' hb hp he
    exact (Session.counted_iff _).mpr (CE.stable_tallied.beat hb ((Session.counted_iff _).mp hp) he)
  · refine step_keeps_de (P := fun e => e.session.counted) (fun _ _ _ => rfl) (fun _ _ hp => hp) ?_ hde h
    intro a body e e' hb hp he
    exact (Session.counted_iff _).mpr (DE.stable_tallied.beat hb ((Session.counted_iff _).mp hp) he)

end Sys2Proof.Machine
end

section
/-! The compressor's invariants, R18: the canonical dictionary in every state, and, while CE is sound, what a mint makes of
the dictionary and what an emission makes of the Bit Sink and OUT. -/

namespace Sys2Proof.Machine

open Sys2Proof

/-! ### The canonical form of ED (log 10) -/

theorem CE.stable_wf : CE.Stable fun e => edWf e.encDict = true where
  write _ _ h := h
  queue _ _ h := h
  pend _ _ h := h
  mint e m _ h := e.mint_wf m h
  answer _ h := h
  close _ h := h
  hold _ h := h

theorem CE.takeFault_wf {e : CE} (a : Bool) (c : Cause) (v : BitVec 16) (h : edWf e.encDict = true) :
    edWf (e.takeFault a c v).encDict = true := by
  unfold CE.takeFault
  split
  · exact h
  · exact e.unspecified_wf

/-- Every beat of CE leaves the dictionary canonical, one that takes a fault among them (log 6). -/
theorem CE.beat_wf {a : Bool} {body : CE → Res CE Unit} {e e' : CE} (hb : CEBody a body) (h : edWf e.encDict = true)
    (he : e.beat a body = .next e') : edWf e'.encDict = true := by
  have hl := CE.stable_wf.body hb h
  obtain ⟨_, ⟨_, rfl⟩ | ⟨_, _, rfl⟩ | ⟨_, _, hok | ⟨c, v, e1, hr, rfl⟩ | ⟨e1, hh, rfl⟩⟩⟩ := CE.beat_next he
  · exact h
  · exact h
  · rwa [hok] at hl
  · rw [hr] at hl
    exact CE.takeFault_wf a c v hl.2
  · rwa [hh] at hl

/-! ### The bits emitted (R93) -/

/-- `n` bits more have been emitted, held in the Bit Sink or written as whole flushes, and only the Bit Sink and the
session's OUT, count and sink are touched. -/
def CE.Emits (n : Nat) (e e' : CE) : Prop :=
  ∃ q t, e' = { e with bitSink := q, session := t } ∧ t.closed = e.session.closed ∧
    8 * t.out.length + q.length = 8 * e.session.out.length + e.bitSink.length + n ∧
    t.out.length % 8 = e.session.out.length % 8 ∧
    (e.bitSink.length ≤ Config.flushBits → q.length ≤ Config.flushBits)

theorem CE.Emits.trans {n m : Nat} {e e1 e2 : CE} (h1 : e.Emits n e1) (h2 : e1.Emits m e2) : e.Emits (n + m) e2 := by
  obtain ⟨q1, t1, rfl, hc1, hb1, hm1, hq1⟩ := h1
  obtain ⟨q2, t2, rfl, hc2, hb2, hm2, hq2⟩ := h2
  refine ⟨q2, t2, rfl, hc2.trans hc1, ?_, hm2.trans hm1, fun h => hq2 (hq1 h)⟩
  dsimp only at hb2
  omega

/-- A flush that ends with a value: eight bytes of OUT for the 64 oldest bits (R91). -/
theorem bskFlush64_ok {e e' : CE} (h : bskFlush64 e = .ok () e') (hl : Config.flushBits ≤ e.bitSink.length) :
    ∃ t, e' = { e with bitSink := e.bitSink.drop Config.flushBits, session := t } ∧ t.closed = e.session.closed ∧
      t.out.length = e.session.out.length + 8 := by
  have hpack : (pack8 (e.bitSink.take Config.flushBits)).length = 8 := length_pack8 8 (by simpa using hl)
  unfold bskFlush64 at h
  rcases CE.sinkWrite_cases (pack8 (e.bitSink.take Config.flushBits))
    { e with bitSink := e.bitSink.drop Config.flushBits } with ⟨he, hd⟩ | ⟨he, _⟩ | ⟨he, _⟩ <;> rw [he] at h
  · obtain ⟨k, _, hk, hout, _, hclosed, _⟩ := e.session.sinkWrite_spec (pack8 (e.bitSink.take Config.flushBits))
    injection h with _ h
    refine ⟨_, h.symm, hclosed, ?_⟩
    rw [hout, hk hd, List.take_length, List.length_append, hpack]
  · cases h
  · cases h

/-- An append that ends with a value emits its field (R90). -/
theorem bskAppend_emits {v w : Nat} {e e' : CE} (hw : w ≤ Config.flushBits) (h : bskAppend v w e = .ok () e') :
    e.Emits w e' := by
  have hv : v < 2 ^ w := by
    by_contra hc
    rw [bskAppend, if_pos (Nat.not_lt.mp hc)] at h
    cases h
  rw [bskAppend_eq v w e hv] at h
  have hlen : (e.bitSink ++ beBits v w).length = e.bitSink.length + w := by simp
  split at h
  · rename_i hshort
    injection h with _ h
    subst h
    exact ⟨_, e.session, rfl, rfl, by rw [hlen]; omega, rfl, fun _ => hshort⟩
  · rename_i hlong
    obtain ⟨t, rfl, hclosed, hout⟩ := bskFlush64_ok h (by simp only [Config.flushBits]; omega)
    simp only [Config.flushBits] at hw
    refine ⟨_, t, rfl, hclosed, ?_, by rw [hout]; simp, fun hq => ?_⟩
    · rw [List.length_drop, hlen, hout]
      simp only [Config.flushBits]
      omega
    · rw [List.length_drop, hlen]
      simp only [Config.flushBits] at hq ⊢
      omega

/-- A transaction that ends with a value emits its code and its literal, and clears the pending match (R130, R66). -/
theorem cEmit_ok {w : Nat} {b : Byte} {e e' : CE} (hw : w ≤ Config.flushBits) (h : cEmit w b e = .ok () e') :
    ∃ e2, e.Emits (w + Config.litW) e2 ∧ e' = { e2 with pending := [] } := by
  obtain ⟨_, e1, h1, h⟩ := Res.andThen_eq_ok.mp h
  obtain ⟨_, e2, h2, h⟩ := Res.andThen_eq_ok.mp h
  injection h with _ h
  exact ⟨e2, (bskAppend_emits hw h1).trans (bskAppend_emits (by decide) h2), h.symm⟩

/-- The bits of one more transaction (R66). -/
theorem transactionBits_codeInc {c m : Code} (h : codeInc c = some m) :
    transactionBits m.toNat = transactionBits c.toNat + (minBits c + Config.litW) := by
  rw [(codeInc_eq_some h).1, transactionBits, BitVec.ofNat_toNat, BitVec.setWidth_eq]
  omega

/-! ### A mint in ED (R112, R130) -/

section Mint

variable {e : CE} {m : Code}

@[simp] theorem CE.mint_maxCode (e : CE) (m : Code) : (e.mint m).maxCode = m := rfl

theorem CE.mint_lookup (e : CE) (m : Code) (s : ByteSeq) :
    edLookup (e.mint m).encDict s = if s = e.pending then some m else edLookup e.encDict s :=
  edLookup_insert _ _ _ _

/-- The entries after a mint: the minted one and the ones there were. -/
theorem CE.mint_lookup_some {s : ByteSeq} {c : Code} (h : edLookup (e.mint m).encDict s = some c) :
    (s = e.pending ∧ c = m) ∨ edLookup e.encDict s = some c := by
  rw [CE.mint_lookup] at h
  split at h
  · exact .inl ⟨by assumption, by simpa using h.symm⟩
  · exact .inr h

/-- A mint of a new sequence takes no entry away. -/
theorem CE.mint_lookup_old {s : ByteSeq} {c : Code} (hnew : edLookup e.encDict e.pending = none)
    (h : edLookup e.encDict s = some c) : edLookup (e.mint m).encDict s = some c := by
  rw [CE.mint_lookup, if_neg, h]
  rintro rfl
  simp [hnew] at h

/-- R18(b) across the mint of a new sequence. -/
theorem CE.mint_codesExact (h : e.codesExact) (hm : codeInc e.maxCode = some m) (hne : e.pending ≠ [])
    (hnew : edLookup e.encDict e.pending = none) : (e.mint m).codesExact := by
  obtain ⟨hrange, hall, hinj, hlen⟩ := h
  obtain ⟨hinc, _⟩ := codeInc_eq_some hm
  have hbelow : ∀ {s}, edLookup e.encDict s ≠ some m := fun {s} hs => by
    have := (hrange s m hs).2.2
    omega
  refine ⟨fun s c hs => ?_, fun n h1 hn => ?_, fun s t c hs ht => ?_, ?_⟩
  · rw [CE.mint_maxCode]
    rcases CE.mint_lookup_some hs with ⟨rfl, rfl⟩ | hs
    · exact ⟨hne, by omega, le_rfl⟩
    · obtain ⟨hs0, h1, h2⟩ := hrange s c hs
      exact ⟨hs0, h1, by omega⟩
  · rw [CE.mint_maxCode] at hn
    by_cases hlast : n = m.toNat
    · refine ⟨e.pending, ?_⟩
      rw [CE.mint_lookup, if_pos rfl, hlast, BitVec.ofNat_toNat, BitVec.setWidth_eq]
    · obtain ⟨s, hs⟩ := hall n h1 (by omega)
      exact ⟨s, CE.mint_lookup_old hnew hs⟩
  · rcases CE.mint_lookup_some hs with ⟨rfl, rfl⟩ | hs <;> rcases CE.mint_lookup_some ht with ⟨rfl, hc⟩ | ht
    · rfl
    · exact absurd ht hbelow
    · exact absurd (hc ▸ hs) hbelow
    · exact hinj s t c hs ht
  · show (edInsert e.encDict e.pending m).length = m.toNat
    rw [edInsert_length _ _ _ hnew, hlen, hinc]

/-- R18(c), (d) across the mint of a new sequence whose all-but-last part is known. -/
theorem CE.mint_prefixClosed (h : e.prefixClosed) (hc : e.codesExact) (hm : codeInc e.maxCode = some m)
    (hnew : edLookup e.encDict e.pending = none)
    (hprefix : e.pending.dropLast = [] ∨ ∃ c, edLookup e.encDict e.pending.dropLast = some c) :
    (e.mint m).prefixClosed := by
  obtain ⟨hinc, _⟩ := codeInc_eq_some hm
  intro s c hs
  rcases CE.mint_lookup_some hs with ⟨rfl, rfl⟩ | hs
  · have hdrop : e.pending.dropLast.length = e.pending.length - 1 := List.length_dropLast
    rcases hprefix with hnil | ⟨c', hc'⟩
    · rw [hnil, List.length_nil] at hdrop
      exact ⟨by omega, fun _ => by omega⟩
    · have hlen := (h _ _ hc').1
      have hmax := (hc.1 _ _ hc').2.2
      exact ⟨by omega, fun _ => ⟨c', CE.mint_lookup_old hnew hc', by omega⟩⟩
  · obtain ⟨hlen, hpre⟩ := h s c hs
    refine ⟨hlen, fun h1 => ?_⟩
    obtain ⟨c', hc', hlt⟩ := hpre h1
    exact ⟨c', CE.mint_lookup_old hnew hc', hlt⟩

end Mint

/-! ### The beats of an open CE -/

/-- The miss part of C.STEP keeps R18: the sequence `p ++ [b]` is new and `p` is known (R130). -/
theorem cMiss_regular {b : Byte} {e e' : CE} (hopen : e.session.closed = false) (hr : e.regular)
    (hnew : edLookup e.encDict (e.extend b).pending = none) (h : cMiss b (e.extend b) = .ok () e') : e'.regular := by
  obtain ⟨hpend, hcodes, hprefix, hqueue, hbits, _⟩ := hr
  obtain ⟨hstream, hflush⟩ := hbits hopen
  unfold cMiss at h
  split at h
  · cases h
  · rename_i m hm
    rw [codePrev_codeInc hm] at h
    have hwidth := minBits_le_sixteen (e.extend b).maxCode
    obtain ⟨_, ⟨q, t, rfl, hclosed, hsum, hmod, hbound⟩, rfl⟩ :=
      cEmit_ok (by simp only [Config.flushBits]; omega) h
    have hdrop : (e.extend b).pending.dropLast = e.pending := List.dropLast_concat
    have hcodes' : ((e.extend b).mint m).codesExact :=
      CE.mint_codesExact (e := e.extend b) hcodes hm (by simp [CE.extend]) hnew
    have hprefix' : ((e.extend b).mint m).prefixClosed :=
      CE.mint_prefixClosed (e := e.extend b) hprefix hcodes hm hnew (by rw [hdrop]; exact hpend)
    have hT := transactionBits_codeInc (c := e.maxCode) hm
    have hlen : 8 * t.out.length + q.length =
        8 * e.session.out.length + e.bitSink.length + (minBits e.maxCode + Config.litW) := hsum
    refine ⟨.inl rfl, hcodes', hprefix', hbound hqueue, fun _ => ⟨?_, hmod.trans hflush⟩, fun hc => ?_⟩
    · show 8 * t.out.length + q.length = transactionBits m.toNat
      omega
    · have : e.session.closed = true := hclosed.symm.trans hc
      simp [hopen] at this

/-- C.STEP keeps R18. -/
theorem cStep_regular {b : Byte} {e e' : CE} (hopen : e.session.closed = false) (hr : e.regular)
    (h : cStep b e = .ok () e') : e'.regular := by
  unfold cStep at h
  split at h
  · rename_i c hc
    injection h with _ h
    subst h
    exact ⟨.inr ⟨c, hc⟩, hr.2⟩
  · exact cMiss_regular hopen hr ‹_› h

/-- The tail code leaves the dictionary and the pending match (R134). -/
theorem cTail_emits {e e' : CE} (h : cTail e = .ok () e') : ∃ n, e.Emits n e' := by
  unfold cTail at h
  split at h
  · injection h with _ h
    subst h
    exact ⟨0, _, _, rfl, rfl, rfl, rfl, id⟩
  · have hwidth := minBits_le_sixteen e.maxCode
    exact ⟨_, bskAppend_emits (by simp only [Config.flushBits, CE.tailWidth]; omega) h⟩

/-- The drain empties the Bit Sink (R92). -/
theorem bskDrain_ok {e e' : CE} (h : bskDrain e = .ok () e') : ∃ t, e' = { e with bitSink := [], session := t } := by
  unfold bskDrain at h
  rcases CE.sinkWrite_cases (pack8 (e.bitSink ++ zeros (padLength e.bitSink.length))) { e with bitSink := [] }
    with ⟨he, _⟩ | ⟨he, _⟩ | ⟨he, _⟩ <;> rw [he] at h
  · injection h with _ h
    exact ⟨_, h.symm⟩
  · cases h
  · cases h

/-- C.FINALIZE keeps R18: the dictionary and the pending match stay, the Bit Sink is empty in a closed engine (R134). -/
theorem cFinalizeBody_regular {e e' : CE} (hr : e.regular) (h : cFinalizeBody e = .ok () e') : e'.regular := by
  obtain ⟨_, e1, h1, h⟩ := Res.andThen_eq_ok.mp h
  obtain ⟨_, e2, h2, h⟩ := Res.andThen_eq_ok.mp h
  injection h with _ h
  subst h
  obtain ⟨n, q, t, rfl, _⟩ := cTail_emits h1
  obtain ⟨u, rfl⟩ := bskDrain_ok h2
  obtain ⟨hpend, hcodes, hprefix, _⟩ := hr
  exact ⟨hpend, hcodes, hprefix, Nat.zero_le _, fun hc => by simp at hc, fun _ => rfl⟩

/-- Every body of a beat of CE that runs to its end in an open engine keeps R18. -/
theorem CEBody.regular {a : Bool} {body : CE → Res CE Unit} {e e' : CE} (hb : CEBody a body)
    (hopen : e.session.closed = false) (hr : e.regular) (h : body e = .ok () e') : e'.regular := by
  cases hb with
  | data b => exact cStep_regular hopen hr h
  | endcall =>
    injection h with _ h
    subst h
    exact hr
  | finalize => exact cFinalizeBody_regular hr h
  | reserved => cases h

/-! ### The invariant of CE -/

theorem CE.fresh_inv (k : Sink) (n : Nat) : (CE.fresh k n).Inv := by
  have hcodes : (CE.fresh k n).codesExact :=
    ⟨fun _ _ h => (nomatch h), fun n h1 h0 => absurd (h1.trans h0) (by simp), fun _ _ _ h => (nomatch h), rfl⟩
  exact ⟨rfl, fun _ => ⟨.inl rfl, hcodes, fun _ _ h => (nomatch h), Nat.zero_le _, fun _ => ⟨rfl, rfl⟩, fun _ => rfl⟩⟩

theorem CE.beat_inv {a : Bool} {body : CE → Res CE Unit} {e e' : CE} (hb : CEBody a body) (h : e.Inv)
    (he : e.beat a body = .next e') : e'.Inv := by
  refine ⟨CE.beat_wf hb h.1 he, fun hs => ?_⟩
  obtain ⟨⟨hsound, hopen⟩, hok⟩ := CE.beat_sound hb he hs
  exact hb.regular hopen (h.2 hsound) hok

/-- Settles O36: a reset starts with R18, an attached sink leaves it, and every beat keeps it. -/
theorem stepKeepsTheCompressorInvariant : Obligations.StepKeepsTheCompressorInvariant := by
  intro s t hs h
  exact step_keeps_ce CE.fresh_inv (fun _ _ hp => hp) (fun _ _ _ _ hb hp he => CE.beat_inv hb hp he) hs h

end Sys2Proof.Machine
end

section
/-! The decompressor's invariants, R29: the canonical dictionary in every state, and, while DE is sound, what each step of
the state machine makes of the dictionary and of OUT, and where D.DRIVE stops. -/

namespace Sys2Proof.Machine

open Sys2Proof

/-! ### The canonical form of DD (log 10) -/

theorem DE.stable_wf : DE.Stable fun e => ddWf e.decDict = true where
  write _ _ h := h
  queue _ _ h := h
  parse _ _ _ h := h
  mint e m b _ h := e.mint_wf m b h
  answer _ h := h
  close _ h := h
  hold _ h := h

theorem DE.takeFault_wf {e : DE} (a : Bool) (c : Cause) (v : BitVec 16) (h : ddWf e.decDict = true) :
    ddWf (e.takeFault a c v).decDict = true := by
  unfold DE.takeFault
  split
  · exact h
  · exact e.unspecified_wf

/-- Every beat of DE leaves the dictionary canonical, one that takes a fault among them (log 6). -/
theorem DE.beat_wf {a : Bool} {body : DE → Res DE Unit} {e e' : DE} (hb : DEBody a body) (h : ddWf e.decDict = true)
    (he : e.beat a body = .next e') : ddWf e'.decDict = true := by
  have hl := DE.stable_wf.body hb h
  obtain ⟨_, ⟨_, rfl⟩ | ⟨_, _, rfl⟩ | ⟨_, _, hok | ⟨c, v, e1, hr, rfl⟩ | ⟨e1, hh, rfl⟩⟩⟩ := DE.beat_next he
  · exact h
  · exact h
  · rwa [hok] at hl
  · rw [hr] at hl
    exact DE.takeFault_wf a c v hl.2
  · rwa [hh] at hl

/-! ### A mint in DD (R122, R152) -/

section Mint

variable {e : DE} {m : Code} {b : Byte}

@[simp] theorem DE.mint_maxCode (e : DE) (m : Code) (b : Byte) : (e.mint m b).maxCode = m := rfl

theorem DE.mint_lookup (e : DE) (m : Code) (b : Byte) (c : Code) :
    ddLookup (e.mint m b).decDict c =
      if c = m then some (ddExpansion e.decDict e.lastCode ++ [b]) else ddLookup e.decDict c :=
  ddLookup_insert _ _ _ _

theorem DE.mint_lookup_same (e : DE) (m : Code) (b : Byte) :
    ddLookup (e.mint m b).decDict m = some (ddExpansion e.decDict e.lastCode ++ [b]) := by
  rw [DE.mint_lookup, if_pos rfl]

/-- The mint of the next code alters no entry up to `max_code`. -/
theorem DE.mint_lookup_old (hm : codeInc e.maxCode = some m) {c : Code} (hc : c.toNat ≤ e.maxCode.toNat) :
    ddLookup (e.mint m b).decDict c = ddLookup e.decDict c := by
  rw [DE.mint_lookup, if_neg]
  rintro rfl
  have := (codeInc_eq_some hm).1
  omega

/-- `last_code` is present (R29(c)): its expansion is its entry. -/
theorem DE.lookup_lastCode (hkeys : e.keysExact) (hlast : e.lastCode.toNat ≤ e.maxCode.toNat) :
    ddLookup e.decDict e.lastCode = some (ddExpansion e.decDict e.lastCode) := by
  obtain ⟨s, hs⟩ := (hkeys e.lastCode).mpr hlast
  simp [ddExpansion, hs]

/-- An entry is no longer than its code (R29(b)). -/
theorem DE.entriesGrown.length_le (h : e.entriesGrown) {c : Code} {s : ByteSeq} (hs : ddLookup e.decDict c = some s) :
    s.length ≤ c.toNat := by
  by_cases hc : c = 0
  · subst hc
    rw [h.1, Option.some.injEq] at hs
    simp [← hs]
  · have hpos : c.toNat ≠ 0 := fun h0 => hc (BitVec.eq_of_toNat_eq h0)
    exact (h.2 c s (by omega) hs).2.1

/-- R29(a) across a mint. -/
theorem DE.mint_keysExact (h : e.keysExact) (hm : codeInc e.maxCode = some m) : (e.mint m b).keysExact := by
  obtain ⟨hinc, _⟩ := codeInc_eq_some hm
  intro c
  rw [DE.mint_maxCode, DE.mint_lookup]
  split
  · rename_i hc
    simp [hc]
  · rename_i hc
    have hne : c.toNat ≠ m.toNat := fun h0 => hc (BitVec.eq_of_toNat_eq h0)
    rw [h c]
    omega

/-- R29(b) across a mint: the new entry is that of `last_code` with one byte more. -/
theorem DE.mint_entriesGrown (h : e.entriesGrown) (hkeys : e.keysExact) (hlast : e.lastCode.toNat ≤ e.maxCode.toNat)
    (hm : codeInc e.maxCode = some m) : (e.mint m b).entriesGrown := by
  obtain ⟨hinc, _⟩ := codeInc_eq_some hm
  have hl := DE.lookup_lastCode hkeys hlast
  have hlen := h.length_le hl
  refine ⟨(DE.mint_lookup_old hm (Nat.zero_le _)).trans h.1, fun c s h1 hs => ?_⟩
  by_cases hc : c = m
  · subst hc
    rw [DE.mint_lookup_same, Option.some.injEq] at hs
    subst hs
    rw [List.length_append, List.length_singleton]
    exact ⟨by omega, by omega, e.lastCode, b, _, by omega, (DE.mint_lookup_old hm hlast).trans hl, rfl⟩
  · rw [DE.mint_lookup, if_neg hc] at hs
    obtain ⟨hpos, hle, p, b', t, hp, ht, rfl⟩ := h.2 c s h1 hs
    have hpmax := (hkeys p).mp ⟨t, ht⟩
    exact ⟨hpos, hle, p, b', t, hp, (DE.mint_lookup_old hm hpmax).trans ht, rfl⟩

/-- A mint leaves the expansions of the codes there were. -/
theorem DE.mint_expansionsTo (hm : codeInc e.maxCode = some m) (n : Nat) (hn : n ≤ e.maxCode.toNat) :
    expansionsTo (e.mint m b).decDict n = expansionsTo e.decDict n := by
  induction n with
  | zero => rfl
  | succ n ih =>
    have hcode : (BitVec.ofNat 16 (n + 1)).toNat ≤ e.maxCode.toNat := by
      rw [BitVec.toNat_ofNat]
      exact (Nat.mod_le _ _).trans hn
    rw [expansionsTo, expansionsTo, ih (by omega), ddExpansion, ddExpansion, DE.mint_lookup_old hm hcode]

/-- The expansions after a mint: those there were, then the new entry. -/
theorem DE.mint_expansionsTo_maxCode (hm : codeInc e.maxCode = some m) :
    expansionsTo (e.mint m b).decDict m.toNat =
      expansionsTo e.decDict e.maxCode.toNat ++ (ddExpansion e.decDict e.lastCode ++ [b]) := by
  obtain ⟨hinc, _⟩ := codeInc_eq_some hm
  rw [hinc, expansionsTo, DE.mint_expansionsTo hm _ le_rfl, ← hinc, BitVec.ofNat_toNat, BitVec.setWidth_eq, ddExpansion,
    DE.mint_lookup_same, Option.getD_some]

end Mint

/-! ### The steps of the state machine -/

/-- R29 without (d), which does not hold between the steps of D.DRIVE. -/
def DE.consistent (e : DE) : Prop :=
  e.keysExact ∧ e.entriesGrown ∧ e.lastCode.toNat ≤ e.maxCode.toNat ∧ e.outExact

theorem DE.regular_iff (e : DE) : e.regular ↔ e.consistent ∧ e.atRest := by
  unfold DE.regular DE.consistent
  tauto

/-- A SinkWrite that is done has appended all its bytes (R44). -/
theorem Session.sinkWrite_done_out {t : Session} {bs : ByteSeq} (h : (t.sinkWrite bs).1 = .done) :
    (t.sinkWrite bs).2.out = t.out ++ bs := by
  obtain ⟨k, _, hk, hout, _⟩ := t.sinkWrite_spec bs
  rw [hout, hk h, List.take_length]

/-- R29(e) where a code is awaited: OUT is the expansions of the codes minted. -/
theorem DE.outExact_code {e : DE} (hd : e.dstate = .expectingCode) :
    e.outExact ↔ e.session.out = expansionsTo e.decDict e.maxCode.toNat := by
  simp [DE.outExact, hd]

/-- R29(e) where a literal is awaited: the expansion of the code read stands behind them. -/
theorem DE.outExact_byte {e : DE} (hd : e.dstate = .expectingByte) :
    e.outExact ↔ e.session.out = expansionsTo e.decDict e.maxCode.toNat ++ ddExpansion e.decDict e.lastCode := by
  simp [DE.outExact, hd]

/-- A code read writes its expansion, and its code is present (R151). -/
theorem dCodeValue_consistent {v : Nat} {e e' : DE} {p : Progress} (hd : e.dstate = .expectingCode) (h : e.consistent)
    (hok : dCodeValue v e = .ok p e') : e'.consistent := by
  obtain ⟨hkeys, hgrown, _, hout⟩ := h
  obtain ⟨dict', max', last', source', dstate', session'⟩ := e'
  obtain ⟨_, hq, hd', hmax, hdict, hlast, seq, hseq, hsess, hdone⟩ := dCodeValue_ok hok
  dsimp only at hq hd' hmax hdict hlast hsess
  subst hq hd' hmax hdict hlast hsess
  refine ⟨hkeys, hgrown, (hkeys _).mp ⟨seq, hseq⟩, (DE.outExact_byte rfl).mpr ?_⟩
  rw [Session.sinkWrite_done_out hdone, (DE.outExact_code hd).mp hout]
  simp [ddExpansion, hseq]

/-- A literal read is written behind the expansion of the last code, and the two are the entry it mints (R152). -/
theorem dByteValue_consistent {b : Byte} {e e' : DE} {p : Progress} (hd : e.dstate = .expectingByte) (h : e.consistent)
    (hok : dByteValue b e = .ok p e') : e'.consistent := by
  obtain ⟨hkeys, hgrown, hle, hout⟩ := h
  obtain ⟨dict', m, last', source', dstate', session'⟩ := e'
  obtain ⟨_, hq, hd', hlast, hm, hdict, hsess, hdone⟩ := dByteValue_ok hok
  dsimp only at hq hd' hlast hm hdict hsess
  subst hq hd' hlast hdict hsess
  have hinc := (codeInc_eq_some hm).1
  refine ⟨DE.mint_keysExact (b := b) hkeys hm, DE.mint_entriesGrown (b := b) hgrown hkeys hle hm, ?_,
    (DE.outExact_code rfl).mpr ?_⟩
  · show e.lastCode.toNat ≤ m.toNat
    omega
  · rw [Session.sinkWrite_done_out hdone, (DE.outExact_byte hd).mp hout, List.append_assoc]
    exact (DE.mint_expansionsTo_maxCode hm).symm

/-- Every progress step keeps R29 but for (d). -/
theorem dStep_consistent {e e' : DE} (h : e.consistent) (hok : dStep e = .ok .progress e') : e'.consistent := by
  unfold dStep at hok
  split at hok
  · rename_i hd
    by_cases hl : e.bitSource.length < e.codeWidth
    · rw [dCode_stall e hl] at hok
      cases hok
    · rw [dCode_take e (Nat.not_lt.mp hl)] at hok
      exact dCodeValue_consistent (e := { e with bitSource := e.bitSource.drop e.codeWidth }) hd h hok
  · rename_i hd
    by_cases hl : e.bitSource.length < 8
    · rw [dByte_stall e hl] at hok
      cases hok
    · rw [dByte_take e (Nat.not_lt.mp hl)] at hok
      exact dByteValue_consistent (e := { e with bitSource := e.bitSource.drop 8 }) hd h hok

/-- The state machine stalls only where the Bit Source is shorter than the field it awaits (R151, R152). -/
theorem dStep_stall_short {e e' : DE} (h : dStep e = .ok .stall e') : e.bitSource.length < e.awaitedWidth := by
  by_contra hl
  unfold dStep at h
  unfold DE.awaitedWidth at hl
  split at h
  · rename_i hd
    rw [hd] at hl
    rw [dCode_take e (Nat.not_lt.mp hl)] at h
    exact absurd (dCodeValue_ok h).1 (by decide)
  · rename_i hd
    rw [hd] at hl
    rw [dByte_take e (Nat.not_lt.mp hl)] at h
    exact absurd (dByteValue_ok h).1 (by decide)

/-- D.DRIVE that runs to its end keeps R29 but for (d). -/
theorem dDrive_consistent {e e' : DE} (h : e.consistent) (hok : dDrive e = .ok () e') : e'.consistent := by
  induction e using dDrive_induction with
  | stop e hstop =>
    rw [dDrive_eq] at hok
    rcases dStep_ends e with ⟨e1, he⟩ | he | ⟨c, v, e1, he⟩ | ⟨e1, he⟩
    · exact absurd he (hstop e1)
    all_goals rw [he] at hok
    · injection hok with _ hok
      exact hok ▸ h
    · cases hok
    · cases hok
  | go e e1 he ih =>
    rw [dDrive_eq, he] at hok
    exact ih (dStep_consistent h he) hok

/-- D.DRIVE that runs to its end leaves DE at rest (R29(d), R153). -/
theorem dDrive_atRest {e e' : DE} (hok : dDrive e = .ok () e') : e'.atRest := by
  rcases dDrive_ends e with ⟨e1, he, hs⟩ | ⟨c, v, e1, he⟩ | ⟨e1, he⟩ <;> rw [he] at hok
  · injection hok with _ hok
    subst hok
    exact .inl (dStep_stall_short hs)
  · cases hok
  · cases hok

/-- Every body of a beat of DE, or of a field arriving at it, that runs to its end keeps R29. -/
theorem DEBody.regular {a : Bool} {body : DE → Res DE Unit} {e e' : DE} (hb : DEBody a body) (hr : e.regular)
    (h : body e = .ok () e') : e'.regular := by
  cases hb with
  | receive bits =>
    have hpush : (bsrPushBits bits e).consistent := (e.regular_iff.mp hr).1
    exact e'.regular_iff.mpr ⟨dDrive_consistent hpush h, dDrive_atRest h⟩
  | endcall =>
    injection h with _ h
    subst h
    exact hr
  | finalize =>
    injection h with _ h
    subst h
    exact hr
  | reserved => cases h

/-! ### The invariant of DE -/

/-- The dictionary after reset has the seed entry alone (R24, R201). -/
theorem DE.fresh_lookup (k : Sink) (n : Nat) (c : Code) :
    ddLookup (DE.fresh k n).decDict c = if c = 0 then some [] else none := by
  simp only [DE.fresh_decDict, ddLookup, FMap.find, eq_comm (a := c)]

theorem DE.fresh_inv (k : Sink) (n : Nat) : (DE.fresh k n).Inv := by
  have hkeys : (DE.fresh k n).keysExact := by
    intro c
    rw [DE.fresh_lookup, DE.fresh_maxCode]
    split
    · rename_i hc
      simp [hc]
    · rename_i hc
      have hpos : c.toNat ≠ 0 := fun h0 => hc (BitVec.eq_of_toNat_eq h0)
      simp [hpos]
  have hgrown : (DE.fresh k n).entriesGrown := by
    refine ⟨rfl, fun c s h1 hs => ?_⟩
    rw [DE.fresh_lookup, if_neg] at hs
    · cases hs
    · rintro rfl
      simp at h1
  exact ⟨rfl, fun _ => ⟨hkeys, hgrown, le_rfl, .inr ⟨rfl, rfl, rfl⟩, rfl⟩⟩

theorem DE.beat_inv {a : Bool} {body : DE → Res DE Unit} {e e' : DE} (hb : DEBody a body) (h : e.Inv)
    (he : e.beat a body = .next e') : e'.Inv := by
  refine ⟨DE.beat_wf hb h.1 he, fun hs => ?_⟩
  obtain ⟨⟨hsound, _⟩, hok⟩ := DE.beat_sound hb he hs
  exact hb.regular (h.2 hsound) hok

/-- Settles O37: a reset starts with R29, an attached sink leaves it, and every beat keeps it. -/
theorem stepKeepsTheDecompressorInvariant : Obligations.StepKeepsTheDecompressorInvariant := by
  intro s t hs h
  exact step_keeps_de DE.fresh_inv (fun _ _ hp => hp) (fun _ _ _ _ hb hp he => DE.beat_inv hb hp he) hs h

/-- Settles O38: both engines of the reset state are as an engine's reset leaves them. -/
theorem resetMeetsTheInvariants : Obligations.ResetMeetsTheInvariants :=
  ⟨CE.fresh_inv _ _, DE.fresh_inv _ _⟩

end Sys2Proof.Machine
end

section
/-! Memory (20_memory.md): the wire order of bits, the prefix of the bytes offered that SinkWrite writes, OUT as an
append-only stream, and the canonical form of the two dictionaries. -/

namespace Sys2Proof.Machine

open Sys2Proof

/-! ### The canonical form of both dictionaries (log 10) -/

theorem Memory.wf_iff (s : State) : Memory.wf s = true ↔ edWf s.ce.encDict = true ∧ ddWf s.de.decDict = true := by
  rw [Memory.wf, Bool.and_eq_true]

/-- Settles O35: a reset leaves a canonical dictionary, an attached sink does not touch it, and every beat keeps it
canonical, one that takes a fault among them. -/
theorem stepKeepsMemoryCanonical : Obligations.StepKeepsMemoryCanonical := by
  intro s t hs h
  obtain ⟨hce, hde⟩ := (Memory.wf_iff s).mp hs
  have hce' : edWf t.ce.encDict = true :=
    step_keeps_ce (P := fun e => edWf e.encDict = true) (fun _ _ => rfl) (fun _ _ hp => hp)
      (fun _ _ _ _ hb hp he => CE.beat_wf hb hp he) hce h
  have hde' : ddWf t.de.decDict = true :=
    step_keeps_de (P := fun e => ddWf e.decDict = true) (fun _ _ => rfl) (fun _ _ hp => hp)
      (fun _ _ _ _ hb hp he => DE.beat_wf hb hp he) hde h
  exact (Memory.wf_iff t).mpr ⟨hce', hde'⟩

/-! ### The order of bits on the wire (R46) -/

/-- A field's bits stand most significant first (R46(b), (c)). -/
theorem getElem?_beBits {v w i : Nat} (h : i < w) : (beBits v w)[i]? = some (v.testBit (w - 1 - i)) := by
  induction w generalizing i with
  | zero => exact absurd h (Nat.not_lt_zero i)
  | succ w ih =>
    cases i with
    | zero => rfl
    | succ i =>
      rw [beBits, List.getElem?_cons_succ, ih (by omega), show w + 1 - 1 - (i + 1) = w - 1 - i by omega]

/-- Byte `k` is the eight bits from `8k` on, most significant first (R46(a)). -/
theorem getElem?_unpack8 {bs : ByteSeq} {k j : Nat} {b : Byte} (hb : bs[k]? = some b) (hj : j < 8) :
    (unpack8 bs)[8 * k + j]? = some (b.getLsbD (7 - j)) := by
  induction bs generalizing k with
  | nil => simp at hb
  | cons c bs ih =>
    cases k with
    | zero =>
      obtain rfl : c = b := by simpa using hb
      rw [unpack8, List.getElem?_append_left (by simpa using hj), Nat.mul_zero, Nat.zero_add, getElem?_beBits hj]
      rfl
    | succ k =>
      rw [unpack8, List.getElem?_append_right (by simp; omega), length_beBits,
        show 8 * (k + 1) + j - 8 = 8 * k + j by omega]
      exact ih hb

/-- Settles O13: by induction on the field's width, then on the bytes. -/
theorem wireOrderIsMostSignificantFirst : Obligations.WireOrderIsMostSignificantFirst :=
  ⟨fun _ _ _ _ => getElem?_unpack8, fun _ _ _ => getElem?_beBits⟩

/-! ### The prefix that SinkWrite writes (R44) -/

/-- Bytes the sink accepts are written first, and the write goes on behind them. -/
theorem Session.sinkWrite_append (as bs : ByteSeq) (t : Session) (h : t.sink.acceptsNext as.length = true) :
    t.sinkWrite (as ++ bs) = (t.acceptAll as).sinkWrite bs := by
  induction as generalizing t with
  | nil => rw [List.nil_append, Session.acceptAll_nil]
  | cons a as ih =>
    simp only [List.length_cons, Sink.acceptsNext, Bool.and_eq_true, decide_eq_true_eq] at h
    obtain ⟨haccept, hrest⟩ := h
    rw [List.cons_append, Session.sinkWrite, haccept, Session.acceptAll_cons]
    exact ih (t.accept a) hrest

/-- After `k` accepted bytes the write stands at byte `k + 1`. -/
theorem Session.sinkWrite_at {bs : ByteSeq} {t : Session} {k : Nat} (hk : k < bs.length)
    (h : t.sink.acceptsNext k = true) :
    t.sinkWrite bs = (t.acceptAll (bs.take k)).sinkWrite (bs[k] :: bs.drop (k + 1)) := by
  have hlen : (bs.take k).length = k := List.length_take_of_le hk.le
  rw [← Session.sinkWrite_append _ _ _ (by rwa [hlen]), ← List.drop_eq_getElem_cons hk, List.take_append_drop]

theorem Session.acceptAll_take_sink {bs : ByteSeq} {k : Nat} (hk : k ≤ bs.length) (t : Session) :
    (t.acceptAll (bs.take k)).sink = t.sink.after k := by
  rw [Session.acceptAll_sink, List.length_take_of_le hk]

/-- A byte failed after `k` accepted ones ends the write with those in OUT (R44, R171). -/
theorem Session.sinkWrite_failed {bs : ByteSeq} {t : Session} {k : Nat} (hk : k < bs.length)
    (h : t.sink.acceptsNext k = true) (hans : (t.sink.after k).answer = .fail) :
    t.sinkWrite bs = (.failed, { t.acceptAll (bs.take k) with sink := (t.sink.after k).advance }) := by
  rw [Session.sinkWrite_at hk h, Session.sinkWrite, Session.acceptAll_take_sink hk.le, hans]

/-- A byte never answered after `k` accepted ones leaves the write there, with those in OUT (R44, R208). -/
theorem Session.sinkWrite_silent {bs : ByteSeq} {t : Session} {k : Nat} (hk : k < bs.length)
    (h : t.sink.acceptsNext k = true) (hans : (t.sink.after k).answer = .silent) :
    t.sinkWrite bs = (.silent, t.acceptAll (bs.take k)) := by
  rw [Session.sinkWrite_at hk h, Session.sinkWrite, Session.acceptAll_take_sink hk.le, hans]

/-- Settles O16: the accepted bytes are written, and the sink's answer to the next one decides how the write ends. -/
theorem sinkWriteStopsAtTheFirstFailure : Obligations.SinkWriteStopsAtTheFirstFailure := by
  intro bs t k h
  refine ⟨?_, fun hk hans => ?_, fun hk hans => ?_⟩
  · rintro rfl
    exact ⟨_, Session.sinkWrite_accepted bs t h, rfl⟩
  all_goals have hcount : t.callCount + (bs.take k).length = t.callCount + k := by rw [List.length_take_of_le hk.le]
  · exact ⟨_, Session.sinkWrite_failed hk h hans, rfl, hcount, rfl, rfl, rfl⟩
  · exact ⟨_, Session.sinkWrite_silent hk h hans, rfl, hcount, rfl, rfl, rfl⟩

/-! ### OUT as an append-only stream (R44, R179) -/

theorem Session.out_prefix_sinkWrite (t : Session) (bs : ByteSeq) : t.out <+: (t.sinkWrite bs).2.out := by
  obtain ⟨k, _, _, hout, _⟩ := t.sinkWrite_spec bs
  exact ⟨_, hout.symm⟩

/-- No operation of CE takes a byte of OUT back. -/
theorem CE.stable_out_prefix (o : ByteSeq) : CE.Stable fun e => o <+: e.session.out where
  write e bs h := h.trans (e.session.out_prefix_sinkWrite bs)
  queue _ _ h := h
  pend _ _ h := h
  mint _ _ _ h := h
  answer _ h := h
  close _ h := h
  hold _ h := h

/-- No operation of DE takes a byte of OUT back. -/
theorem DE.stable_out_prefix (o : ByteSeq) : DE.Stable fun e => o <+: e.session.out where
  write e bs h := h.trans (e.session.out_prefix_sinkWrite bs)
  queue _ _ h := h
  parse _ _ _ h := h
  mint _ _ _ _ h := h
  answer _ h := h
  close _ h := h
  hold _ h := h

/-- Every beat of CE keeps OUT, one that takes a fault among them (R179(e)). -/
theorem CE.beat_out_prefix {a : Bool} {body : CE → Res CE Unit} {e e' : CE} (hb : CEBody a body)
    (he : e.beat a body = .next e') : e.session.out <+: e'.session.out := by
  have hl := (CE.stable_out_prefix e.session.out).body hb List.prefix_rfl
  obtain ⟨_, ⟨_, rfl⟩ | ⟨_, _, rfl⟩ | ⟨_, _, hok | ⟨c, v, e1, hr, rfl⟩ | ⟨e1, hh, rfl⟩⟩⟩ := CE.beat_next he
  · simp
  · simp
  · rwa [hok] at hl
  · rw [hr] at hl
    simpa using hl.2
  · rwa [hh] at hl

/-- Every beat of DE, or field arriving at it, keeps OUT, one that takes a fault among them (R179(e)). -/
theorem DE.beat_out_prefix {a : Bool} {body : DE → Res DE Unit} {e e' : DE} (hb : DEBody a body)
    (he : e.beat a body = .next e') : e.session.out <+: e'.session.out := by
  have hl := (DE.stable_out_prefix e.session.out).body hb List.prefix_rfl
  obtain ⟨_, ⟨_, rfl⟩ | ⟨_, _, rfl⟩ | ⟨_, _, hok | ⟨c, v, e1, hr, rfl⟩ | ⟨e1, hh, rfl⟩⟩⟩ := DE.beat_next he
  · simp
  · simp
  · rwa [hok] at hl
  · rw [hr] at hl
    simpa using hl.2
  · rwa [hh] at hl

/-- Settles O31: an instruction is one beat of one engine, and leaves the other as it is. -/
theorem outIsAppendOnly : Obligations.OutIsAppendOnly := by
  intro i s t h
  have hce : s.ce.session.out <+: t.ce.session.out := by
    rcases exec_ce h with he | ⟨a, body, hb, he⟩
    · rw [he]
    · exact CE.beat_out_prefix hb he
  have hde : s.de.session.out <+: t.de.session.out := by
    rcases exec_de h with he | ⟨a, body, hb, he⟩
    · rw [he]
    · exact DE.beat_out_prefix hb he
  obtain ⟨x, hx⟩ := hce
  obtain ⟨y, hy⟩ := hde
  exact ⟨x, y, hx.symm, hy.symm⟩

end Sys2Proof.Machine
end

section
/-! The encoding (30_encoding.md): the rows of the beats (R68, R69) and of the wire fields (R61 to R64), that decoding
and encoding undo each other (R75), the word a step runs (R67), and what a reserved beat does (R176). -/

namespace Sys2Proof.Machine

open Sys2Proof

/-! ### A beat is its operation and its data byte (R68) -/

theorem toNat_mkBeat (op : BitVec 2) (d : Byte) : (mkBeat op d).toNat = 256 * op.toNat + d.toNat := by
  rw [mkBeat, BitVec.toNat_append, ← Nat.shiftLeft_add_eq_or_of_lt d.isLt, Nat.shiftLeft_eq, Nat.mul_comm]

theorem mkBeat_inj {op op' : BitVec 2} {d d' : Byte} : mkBeat op d = mkBeat op' d' ↔ op = op' ∧ d = d' := by
  refine ⟨fun h => ⟨?_, ?_⟩, fun ⟨ho, hd⟩ => by rw [ho, hd]⟩
  · simpa using congrArg beatOp h
  · simpa using congrArg beatData h

@[simp] theorem setWidth_mkBeat (op : BitVec 2) (d : Byte) : (mkBeat op d).setWidth 8 = d := by
  apply BitVec.eq_of_toNat_eq
  rw [BitVec.toNat_setWidth, toNat_mkBeat]
  omega

/-- A beat in the range of an operation is that operation with a data byte. -/
theorem exists_eq_mkBeat_of_range {w : Beat} (op : BitVec 2) (hlo : 256 * op.toNat ≤ w.toNat)
    (hhi : w.toNat < 256 * op.toNat + 256) : ∃ d, w = mkBeat op d := by
  refine ⟨w.setWidth 8, BitVec.eq_of_toNat_eq ?_⟩
  rw [toNat_mkBeat, BitVec.toNat_setWidth]
  omega

/-- Every beat stands in one of the six rows: the two exact ones and the two NZ ones share their operations. -/
theorem beat_rows (w : Beat) :
    (∃ d, w = mkBeat 0 d) ∨ w = mkBeat 1 0 ∨ (∃ d, d ≠ 0 ∧ w = mkBeat 1 d) ∨
      w = mkBeat 2 0 ∨ (∃ d, d ≠ 0 ∧ w = mkBeat 2 d) ∨ ∃ d, w = mkBeat 3 d := by
  obtain ⟨d, hw⟩ := exists_eq_mkBeat_of_range (w := w) (BitVec.ofNat 2 (w.toNat / 256))
    (by rw [BitVec.toNat_ofNat]; omega) (by rw [BitVec.toNat_ofNat]; omega)
  have hop : ∀ op : BitVec 2, op = 0 ∨ op = 1 ∨ op = 2 ∨ op = 3 := by decide
  rcases hop (BitVec.ofNat 2 (w.toNat / 256)) with ho | ho | ho | ho <;> rw [ho] at hw
  · exact .inl ⟨d, hw⟩
  · by_cases hd : d = 0
    · exact .inr (.inl (hd ▸ hw))
    · exact .inr (.inr (.inl ⟨d, hd, hw⟩))
  · by_cases hd : d = 0
    · exact .inr (.inr (.inr (.inl (hd ▸ hw))))
    · exact .inr (.inr (.inr (.inr (.inl ⟨d, hd, hw⟩))))
  · exact .inr (.inr (.inr (.inr (.inr ⟨d, hw⟩))))

/-! ### What each row of the beats decodes to, on CE's port and on DE's (R68, R69) -/

theorem mkBeat_eq_endcall {op : BitVec 2} {d : Byte} : mkBeat op d = 256#10 ↔ op = 1#2 ∧ d = 0#8 :=
  mkBeat_inj (op' := 1) (d' := 0)

theorem mkBeat_eq_finalize {op : BitVec 2} {d : Byte} : mkBeat op d = 512#10 ↔ op = 2#2 ∧ d = 0#8 :=
  mkBeat_inj (op' := 2) (d' := 0)

theorem decode_data (d : Byte) :
    decode (.beat .ce (mkBeat 0 d)) = .ok (.cData d) ∧ decode (.beat .de (mkBeat 0 d)) = .ok (.dData d) := by
  simp [decode, decodeBeat]

theorem decode_endcall :
    decode (.beat .ce (mkBeat 1 0)) = .ok .cEndcall ∧ decode (.beat .de (mkBeat 1 0)) = .ok .dEndcall :=
  ⟨rfl, rfl⟩

theorem decode_endcallNz {d : Byte} (h : d ≠ 0) :
    decode (.beat .ce (mkBeat 1 d)) = .ok (.cRsvdEndcallNz d) ∧
      decode (.beat .de (mkBeat 1 d)) = .ok (.dRsvdEndcallNz d) := by
  have hd : ¬d = 0#8 := h
  simp [decode, decodeBeat, mkBeat_eq_endcall, mkBeat_eq_finalize, hd]

theorem decode_finalize :
    decode (.beat .ce (mkBeat 2 0)) = .ok .cFinalize ∧ decode (.beat .de (mkBeat 2 0)) = .ok .dFinalize :=
  ⟨rfl, rfl⟩

theorem decode_finalizeNz {d : Byte} (h : d ≠ 0) :
    decode (.beat .ce (mkBeat 2 d)) = .ok (.cRsvdFinalizeNz d) ∧
      decode (.beat .de (mkBeat 2 d)) = .ok (.dRsvdFinalizeNz d) := by
  have hd : ¬d = 0#8 := h
  simp [decode, decodeBeat, mkBeat_eq_endcall, mkBeat_eq_finalize, hd]

theorem decode_op3 (d : Byte) :
    decode (.beat .ce (mkBeat 3 d)) = .ok (.cRsvdOp3 d) ∧ decode (.beat .de (mkBeat 3 d)) = .ok (.dRsvdOp3 d) := by
  simp [decode, decodeBeat, mkBeat_eq_endcall, mkBeat_eq_finalize]

/-- Settles O3: each range fixes the operation, and in the NZ rows keeps the data byte off 0. -/
theorem beatsDecodeByRange : Obligations.BeatsDecodeByRange := by
  intro w
  refine ⟨fun h => ?_, fun h => ?_, fun h h' => ?_, fun h => ?_, fun h h' => ?_, fun h => ?_⟩
  · obtain ⟨d, rfl⟩ := exists_eq_mkBeat_of_range 0 (Nat.zero_le _) (Nat.lt_succ_of_le h)
    rw [setWidth_mkBeat]
    exact decode_data d
  · obtain rfl : w = mkBeat 1 0 := BitVec.eq_of_toNat_eq h
    exact decode_endcall
  · obtain ⟨d, rfl⟩ := exists_eq_mkBeat_of_range 1 (Nat.le_of_succ_le h) (Nat.lt_succ_of_le h')
    have hd : d ≠ 0 := fun h0 => absurd (h0 ▸ h) (by decide)
    rw [setWidth_mkBeat]
    exact decode_endcallNz hd
  · obtain rfl : w = mkBeat 2 0 := BitVec.eq_of_toNat_eq h
    exact decode_finalize
  · obtain ⟨d, rfl⟩ := exists_eq_mkBeat_of_range 2 (Nat.le_of_succ_le h) (Nat.lt_succ_of_le h')
    have hd : d ≠ 0 := fun h0 => absurd (h0 ▸ h) (by decide)
    rw [setWidth_mkBeat]
    exact decode_finalizeNz hd
  · obtain ⟨d, rfl⟩ := exists_eq_mkBeat_of_range 3 h w.isLt
    rw [setWidth_mkBeat]
    exact decode_op3 d

/-- Every beat on either port decodes, to a well-formed instruction that encodes as that beat. -/
theorem exists_decode_beat (p : Port) (w : Beat) :
    ∃ i, decode (.beat p w) = .ok i ∧ i.wellFormed = true ∧ encode i = .beat p w := by
  rcases beat_rows w with ⟨d, rfl⟩ | rfl | ⟨d, hd, rfl⟩ | rfl | ⟨d, hd, rfl⟩ | ⟨d, rfl⟩ <;> cases p
  · exact ⟨_, (decode_data d).1, rfl, rfl⟩
  · exact ⟨_, (decode_data d).2, rfl, rfl⟩
  · exact ⟨_, decode_endcall.1, rfl, rfl⟩
  · exact ⟨_, decode_endcall.2, rfl, rfl⟩
  · exact ⟨_, (decode_endcallNz hd).1, bne_iff_ne.mpr hd, rfl⟩
  · exact ⟨_, (decode_endcallNz hd).2, bne_iff_ne.mpr hd, rfl⟩
  · exact ⟨_, decode_finalize.1, rfl, rfl⟩
  · exact ⟨_, decode_finalize.2, rfl, rfl⟩
  · exact ⟨_, (decode_finalizeNz hd).1, bne_iff_ne.mpr hd, rfl⟩
  · exact ⟨_, (decode_finalizeNz hd).2, bne_iff_ne.mpr hd, rfl⟩
  · exact ⟨_, (decode_op3 d).1, rfl, rfl⟩
  · exact ⟨_, (decode_op3 d).2, rfl, rfl⟩

/-! ### A wire field is its width and its value (R61 to R64) -/

section
variable {w v : Nat} {i : Instr}

theorem beVal_beBits_toNat {n : Nat} (c : BitVec n) : beVal (beBits c.toNat n) = c.toNat := beVal_beBits_of_lt c.isLt

theorem beBits_toNat_ofNat (n v : Nat) : beBits (BitVec.ofNat n v).toNat n = beBits v n :=
  beBits_congr (by simp)

/-- The bits of a code decode as a code field of its width and value. -/
theorem decode_code {n : Nat} (c : BitVec n) : decode (.field .code (beBits c.toNat n)) = codeOfWidth n c.toNat := by
  simp [decode, decodeField, beVal_beBits_toNat]

/-- The bits of a code decode as a tail of its width and value. -/
theorem decode_tail {n : Nat} (c : BitVec n) : decode (.field .tail (beBits c.toNat n)) = tailOfWidth n c.toNat := by
  simp [decode, decodeField, beVal_beBits_toNat]

theorem decode_literal (b : Byte) : decode (.field .literal (beBits b.toNat 8)) = .ok (.literal b) := by
  simp [decode, decodeField, beVal_beBits_toNat, Config.litW]

/-- A code field that decodes has the bits of its value. -/
theorem encode_of_codeOfWidth (h : codeOfWidth w v = .ok i) :
    i.wellFormed = true ∧ encode i = .field .code (beBits v w) := by
  unfold codeOfWidth at h
  split at h <;> cases h
  case h_1 => exact ⟨rfl, rfl⟩
  all_goals exact ⟨rfl, congrArg _ (beBits_toNat_ofNat _ v)⟩

/-- A tail that decodes is not 0 and has the bits of its value. -/
theorem encode_of_tailOfWidth (hv : v < 2 ^ w) (h : tailOfWidth w v = .ok i) :
    i.wellFormed = true ∧ encode i = .field .tail (beBits v w) := by
  unfold tailOfWidth at h
  split at h
  · cases h
  · next h0 =>
    have hne : (BitVec.ofNat w v != 0) = true := by
      refine bne_iff_ne.mpr fun hz => h0 ?_
      simpa [Nat.mod_eq_of_lt hv] using congrArg BitVec.toNat hz
    split at h <;> cases h <;> exact ⟨hne, congrArg _ (beBits_toNat_ofNat _ v)⟩

/-- A pad that decodes is as many zero bits as its width. -/
theorem encode_of_padOfWidth (h : padOfWidth w = .ok i) : i.wellFormed = true ∧ encode i = .field .pad (zeros w) := by
  unfold padOfWidth at h
  split at h <;> cases h <;> exact ⟨rfl, rfl⟩

end

/-- A field that decodes is a well-formed instruction with that kind and those bits. -/
theorem encode_of_decodeField {k : FieldKind} {bits : Bits} {i : Instr} (h : decodeField k bits = .ok i) :
    i.wellFormed = true ∧ encode i = .field k bits := by
  cases k with
  | code => exact beBits_beVal bits ▸ encode_of_codeOfWidth h
  | tail => exact beBits_beVal bits ▸ encode_of_tailOfWidth (beVal_lt bits) h
  | literal =>
    simp only [decodeField] at h
    split at h <;> cases h
    next hlen =>
      have hbits : beBits (beVal bits) 8 = bits := (show bits.length = 8 from hlen) ▸ beBits_beVal bits
      exact ⟨rfl, congrArg _ ((beBits_toNat_ofNat 8 _).trans hbits)⟩
  | pad =>
    simp only [decodeField] at h
    split at h
    · next hzero => exact eq_zeros_of_beVal hzero ▸ encode_of_padOfWidth h
    · cases h

/-- Settles O2: a beat by its row, a field by its kind, width and value. -/
theorem encodeUndoesDecode : Obligations.EncodeUndoesDecode := by
  intro e i h
  cases e with
  | beat p w =>
    obtain ⟨j, hj, hi⟩ := exists_decode_beat p w
    cases hj.symm.trans h
    exact hi
  | field k bits => exact encode_of_decodeField h

/-! ### Decoding undoes encoding (R61 to R64, R68, R69, R75) -/

theorem toNat_ne_zero_of_bne {n : Nat} {c : BitVec n} (h : (c != 0) = true) : c.toNat ≠ 0 := by
  simpa [← BitVec.toNat_inj] using h

/-- Settles O1: a beat by its row, a field by its kind, width and value. -/
theorem decodeUndoesEncode : Obligations.DecodeUndoesEncode := by
  intro i h
  cases i with
  | cData b => exact (decode_data b).1
  | dData b => exact (decode_data b).2
  | cEndcall => exact decode_endcall.1
  | dEndcall => exact decode_endcall.2
  | cFinalize => exact decode_finalize.1
  | dFinalize => exact decode_finalize.2
  | cRsvdEndcallNz d => exact (decode_endcallNz (bne_iff_ne.mp h)).1
  | dRsvdEndcallNz d => exact (decode_endcallNz (bne_iff_ne.mp h)).2
  | cRsvdFinalizeNz d => exact (decode_finalizeNz (bne_iff_ne.mp h)).1
  | dRsvdFinalizeNz d => exact (decode_finalizeNz (bne_iff_ne.mp h)).2
  | cRsvdOp3 d => exact (decode_op3 d).1
  | dRsvdOp3 d => exact (decode_op3 d).2
  | literal b => exact decode_literal b
  | codeW0 | padW1 | padW2 | padW3 | padW4 | padW5 | padW6 | padW7 => rfl
  | codeW1 c | codeW2 c | codeW3 c | codeW4 c | codeW5 c | codeW6 c
  | codeW7 c | codeW8 c | codeW9 c | codeW10 c | codeW11 c | codeW12 c
  | codeW13 c | codeW14 c | codeW15 c | codeW16 c =>
    exact (decode_code c).trans (by simp [codeOfWidth])
  | tailW1 c | tailW2 c | tailW3 c | tailW4 c | tailW5 c | tailW6 c
  | tailW7 c | tailW8 c | tailW9 c | tailW10 c | tailW11 c | tailW12 c
  | tailW13 c | tailW14 c | tailW15 c | tailW16 c =>
    exact (decode_tail c).trans (by simp [tailOfWidth, toNat_ne_zero_of_bne (c := c) h])

/-- Settles O4: each word is the encoding of its instruction. -/
theorem wordsOfTheSpecDecode : Obligations.WordsOfTheSpecDecode :=
  ⟨decodeUndoesEncode (.cData 0x61) rfl, decodeUndoesEncode .dFinalize rfl,
    decodeUndoesEncode (.cRsvdEndcallNz 1) rfl, decodeUndoesEncode (.codeW3 4) rfl,
    decodeUndoesEncode (.literal 0x61) rfl, decodeUndoesEncode (.tailW2 2) rfl, decodeUndoesEncode .padW5 rfl⟩

/-! ### The step (R67) -/

/-- Settles O5: the engine is free, so the pick takes the word at the head. -/
theorem stepRunsWhatIsPresented : Obligations.StepRunsWhatIsPresented := by
  intro s e i rest hhost hdec _ hfree
  have hpick : pickEvent s s.host = some (.present e, rest) := by
    rw [hhost]
    exact pickEvent_cons_of_not_hung rest hfree
  exact step_of_pickEvent_present hpick hdec

/-! ### Reserved beats (R69, R176) -/

/-- A reserved beat on an open CE latches ReservedCommand, answers it, and leaves the rest (R176, log 7). -/
theorem CE.beat_reserved {e : CE} (h : e.session.isOpen) :
    e.beat true ceReserved = .next { e with session := e.session.latch true .reservedCommand 0 } := by
  obtain ⟨⟨hfault, hhung⟩, hclosed⟩ := h
  rw [CE.beat_admitted hhung hfault hclosed, ceReserved, CE.finish, CE.takeFault_plain _ _ _ _ rfl]

/-- A reserved beat on an open DE latches ReservedCommand, answers it, and leaves the rest (R176, log 7). -/
theorem DE.beat_reserved {e : DE} (h : e.session.isOpen) :
    e.beat true deReserved = .next { e with session := e.session.latch true .reservedCommand 0 } := by
  obtain ⟨⟨hfault, hhung⟩, hclosed⟩ := h
  rw [DE.beat_admitted hhung hfault hclosed, deReserved, DE.finish, DE.takeFault_plain _ _ _ _ rfl]

/-- Settles O28: the three reserved rows of an engine are one beat, which does not look at the data byte. -/
theorem reservedBeatsRaiseReservedCommand : Obligations.ReservedBeatsRaiseReservedCommand := by
  intro s d
  refine ⟨fun hopen => ⟨_, rfl, ?_⟩, fun hopen => ⟨_, rfl, ?_⟩⟩
  · have hexec := onCE_next.mpr ⟨_, CE.beat_reserved hopen, rfl⟩
    exact ⟨hexec, hexec, hexec⟩
  · have hexec := onDE_next.mpr ⟨_, DE.beat_reserved hopen, rfl⟩
    exact ⟨hexec, hexec, hexec⟩

end Sys2Proof.Machine
end

section
/-! The arithmetic of Codes (40_code.md): `min_bits` as the place of the highest set bit and what one more does to it,
`code_inc` and `code_prev` at the ends of the code space, and the trap of C.STEP at its top. -/

namespace Sys2Proof.Machine

open Sys2Proof

/-! ### min_bits is the place of the highest set bit (R81) -/

/-- The other half of `minBits_le_iff`: the widths below `min_bits` are those of the powers of two not above the value. -/
theorem lt_minBits_iff (v : Code) (w : Nat) : w < minBits v ↔ 2 ^ w ≤ v.toNat := by
  rw [← Nat.not_le, minBits_le_iff, Nat.not_lt]

/-- No bit at or above `min_bits` is set. -/
theorem getLsbD_eq_false_of_minBits_le {v : Code} {j : Nat} (h : minBits v ≤ j) : v.getLsbD j = false :=
  Nat.testBit_lt_two_pow ((minBits_le_iff v j).mp h)

/-- The bit just below `min_bits` is set. -/
theorem getLsbD_minBits_sub_one {v : Code} (h : 1 ≤ minBits v) : v.getLsbD (minBits v - 1) = true := by
  have hle : 2 ^ (minBits v - 1) ≤ v.toNat := (lt_minBits_iff v _).mp (by omega)
  have hlt : v.toNat < 2 ^ (minBits v - 1 + 1) := by
    rw [Nat.sub_add_cancel h]
    exact lt_two_pow_minBits v
  exact Nat.testBit_of_two_pow_le_and_two_pow_add_one_gt hle hlt

/-- Settles O10: the value lies between the powers of two just below and at `min_bits`. -/
theorem minBitsIsTheHighestSetBit : Obligations.MinBitsIsTheHighestSetBit := by
  intro v
  refine ⟨fun h => by rw [h, minBits_zero], fun h => ?_, fun _ => getLsbD_eq_false_of_minBits_le,
    fun w => (minBits_le_iff v w).symm, minBits_le_sixteen v⟩
  have hv : v.toNat ≠ 0 := fun h0 => h (BitVec.eq_of_toNat_eq h0)
  have hpos : 1 ≤ minBits v := minBits_pos (Nat.one_le_iff_ne_zero.mpr hv)
  exact ⟨hpos, getLsbD_minBits_sub_one hpos⟩

/-! ### min_bits as the running max-code grows (R84) -/

theorem minBits_mono {u v : Code} (h : u.toNat ≤ v.toNat) : minBits u ≤ minBits v :=
  (minBits_le_iff u _).mpr (lt_two_pow_minBits_of_le h)

/-- Below the top, the next code is one more. -/
theorem toNat_add_one_of_lt {c : Code} (h : c.toNat < 65535) : (c + 1).toNat = c.toNat + 1 :=
  (codeInc_eq_some (codeInc_of_lt h)).1

/-- A mint that reaches a power of two needs one bit more. -/
theorem minBits_add_one_of_eq_two_pow {v : Code} {k : Nat} (hv : v.toNat < 65535) (hk : v.toNat + 1 = 2 ^ k) :
    minBits (v + 1) = minBits v + 1 := by
  have hnext := toNat_add_one_of_lt hv
  apply le_antisymm
  · have hlt := lt_two_pow_minBits v
    rw [minBits_le_iff, hnext, pow_succ]
    omega
  · have hle : minBits v ≤ k := (minBits_le_iff v k).mpr (by omega)
    rw [Nat.succ_le_iff, lt_minBits_iff, hnext, hk]
    exact Nat.pow_le_pow_right two_pos hle

/-- A mint that reaches no power of two keeps the width. -/
theorem minBits_add_one_of_ne_two_pow {v : Code} (hv : v.toNat < 65535) (hk : ∀ k, k ≤ 15 → v.toNat + 1 ≠ 2 ^ k) :
    minBits (v + 1) = minBits v := by
  have hnext := toNat_add_one_of_lt hv
  apply le_antisymm
  · have hlt := lt_two_pow_minBits v
    rw [minBits_le_iff, hnext]
    rcases Nat.lt_or_eq_of_le (minBits_le_sixteen v) with h | h
    · have hne := hk (minBits v) (by omega)
      omega
    · rw [h]
      omega
  · exact minBits_mono (by omega)

/-- Settles O11: one more reaches a power of two or stays below the one that bounds the value. -/
theorem minBitsGrowsAtPowersOfTwo : Obligations.MinBitsGrowsAtPowersOfTwo :=
  ⟨fun _ _ => minBits_mono,
    fun _ hv => ⟨fun ⟨_, _, hk⟩ => minBits_add_one_of_eq_two_pow hv hk, minBits_add_one_of_ne_two_pow hv⟩,
    fun _ _ => lt_two_pow_minBits_of_le⟩

/-! ### The ends of the code space (R82, R83) -/

/-- At the top `code_inc` has no code to answer. -/
theorem codeInc_of_top {c : Code} (h : c.toNat = 65535) : codeInc c = none := by
  cases hc : codeInc c with
  | none => rfl
  | some d => exact absurd h (codeInc_eq_some hc).2.ne

/-- From 1 on `code_prev` answers the code before. -/
theorem codePrev_of_pos {c : Code} (h : 1 ≤ c.toNat) : codePrev c = some (c - 1) :=
  if_neg (Nat.one_le_iff_ne_zero.mp h)

/-- Settles O12: below the top the sum, and from 1 on the difference, is within the code space. -/
theorem codesNeverWrap : Obligations.CodesNeverWrap := fun c =>
  ⟨fun h => ⟨c + 1, codeInc_of_lt h, toNat_add_one_of_lt h⟩, codeInc_of_top,
    fun h => ⟨c - 1, codePrev_of_pos h, BitVec.toNat_sub_of_le (BitVec.le_def.mpr h)⟩⟩

/-! ### A new sequence at the top of the code space (R82, R130, R174) -/

/-- C.STEP on a new sequence with no code left to mint traps before it writes (R82, R130). -/
theorem cStep_exhausted {b : Byte} {e : CE} (hnew : edLookup e.encDict (e.pending ++ [b]) = none)
    (htop : e.maxCode.toNat = 65535) : cStep b e = .raise .codeSpaceExhausted 0 (e.extend b) := by
  have hinc : codeInc (e.extend b).maxCode = none := codeInc_of_top htop
  have hmiss : edLookup e.encDict (e.extend b).pending = none := hnew
  rw [cStep, hmiss, cMiss, hinc]

/-- A C.DATA whose body raises takes the fault, with no response (R174, R179). -/
theorem exec_cData_of_raise {b : Byte} {s : State} {c : Cause} {v : BitVec 16} {e : CE} (hopen : s.ce.session.isOpen)
    (hraise : cStep b s.ce = .raise c v e) : exec (.cData b) s = .next { s with ce := e.takeFault false c v } := by
  obtain ⟨⟨hfault, hhung⟩, hclosed⟩ := hopen
  refine onCE_next.mpr ⟨_, ?_, rfl⟩
  rw [CE.beat_admitted hhung hfault hclosed, hraise, CE.finish]

/-- Settles O21: C.STEP traps with only `pending` extended, and the fault keeps OUT and the responses. -/
theorem newSequenceAtTheTopFaults : Obligations.NewSequenceAtTheTopFaults := by
  intro b s hopen htop hnew
  have hexec := exec_cData_of_raise hopen (cStep_exhausted hnew htop)
  exact ⟨_, hexec, CE.takeFault_fault .., CE.takeFault_faultValue .., CE.takeFault_out .., CE.takeFault_responses .., rfl, rfl⟩

end Sys2Proof.Machine
end

section
/-! The Bit Sink (41_bit_sink.md): a SinkWrite that ends normally has written all its bytes, so that an append and the
drain keep the stream. -/

namespace Sys2Proof.Machine

open Sys2Proof

/-! ### A SinkWrite that ends normally (R44) -/

/-- A SinkWrite is done only when the sink accepted every byte. -/
theorem Session.sinkWrite_done {bs : ByteSeq} {t : Session} (h : (t.sinkWrite bs).1 = .done) :
    (t.sinkWrite bs).2 = t.acceptAll bs := by
  induction bs generalizing t with
  | nil => exact t.acceptAll_nil.symm
  | cons b bs ih =>
    rw [Session.sinkWrite] at h ⊢
    cases hans : t.sink.answer with
    | accept =>
      rw [hans] at h
      rw [Session.acceptAll_cons]
      exact ih h
    | fail | silent =>
      rw [hans] at h
      cases h

theorem CE.sinkWrite_ok {bs : ByteSeq} {e e' : CE} (h : e.sinkWrite bs = .ok () e') :
    e' = { e with session := e.session.acceptAll bs } := by
  rcases e.sinkWrite_cases bs with ⟨he, hdone⟩ | ⟨he, _⟩ | ⟨he, _⟩ <;> rw [he] at h
  · injection h with _ h
    rw [← h, Session.sinkWrite_done hdone]
  · cases h
  · cases h

/-! ### The flush (R91, R47) -/

/-- CE after the flush: the 64 oldest bits of the queue stand in OUT as bytes, counted. -/
def CE.flushed (e : CE) : CE :=
  { e with
    bitSink := e.bitSink.drop Config.flushBits
    session := e.session.acceptAll (pack8 (e.bitSink.take Config.flushBits)) }

theorem length_flushedBytes {q : Bits} (h : Config.flushBits ≤ q.length) :
    (pack8 (q.take Config.flushBits)).length = 8 :=
  length_pack8 8 (List.length_take_of_le h)

theorem bskFlush64_accepted {e : CE} (hl : Config.flushBits ≤ e.bitSink.length)
    (h : e.session.sink.acceptsNext 8 = true) : bskFlush64 e = .ok () e.flushed :=
  CE.sinkWrite_accepted _ _ (by rwa [length_flushedBytes hl])

theorem bskFlush64_eq_flushed {e e' : CE} (h : bskFlush64 e = .ok () e') : e' = e.flushed :=
  CE.sinkWrite_ok h

/-- The flush moves bits from the queue to OUT and keeps their order (R94). -/
theorem CE.flushed_stream {e : CE} (hl : Config.flushBits ≤ e.bitSink.length) :
    unpack8 e.flushed.session.out ++ e.flushed.bitSink = unpack8 e.session.out ++ e.bitSink := by
  have hbytes : unpack8 (pack8 (e.bitSink.take Config.flushBits)) = e.bitSink.take Config.flushBits :=
    unpack8_pack8 8 (List.length_take_of_le hl)
  rw [CE.flushed, Session.acceptAll_out, unpack8_append, hbytes, List.append_assoc, List.take_append_drop]

/-! ### The append (R90, R94) -/

/-- An append that pushes the queue past 64 bits is the longer queue's flush (R90, D13). -/
theorem bskAppend_flushes {v w : Nat} {e : CE} (h : v < 2 ^ w) (hl : 64 < e.bitSink.length + w) :
    bskAppend v w e = bskFlush64 { e with bitSink := e.bitSink ++ beBits v w } := by
  rw [bskAppend_eq v w e h, if_neg (by simpa using hl)]

/-- Settles O14: an append writes nothing, or it is one flush of the longer queue, which keeps the stream. -/
theorem appendKeepsTheStream : Obligations.AppendKeepsTheStream := by
  intro v w e _ hv _
  by_cases hl : e.bitSink.length + w ≤ 64
  · rw [bskAppend_buffered v w e hv hl]
    refine ⟨fun _ => ⟨_, rfl⟩, fun e' h => ?_⟩
    injection h with _ h
    subst h
    exact ⟨(List.append_assoc ..).symm, fun _ => rfl, fun hlong => absurd hl hlong.not_ge,
      rfl, rfl, rfl, rfl, rfl, rfl, rfl⟩
  · have hlong : 64 < e.bitSink.length + w := not_le.mp hl
    have hqueue : Config.flushBits ≤ (e.bitSink ++ beBits v w).length := by simpa using hlong.le
    rw [bskAppend_flushes hv hlong]
    refine ⟨fun hacc => ⟨_, bskFlush64_accepted hqueue hacc⟩, fun e' h => ?_⟩
    obtain rfl := bskFlush64_eq_flushed h
    have hbytes := length_flushedBytes hqueue
    refine ⟨?_, fun hshort => absurd hshort hl, fun _ => ⟨?_, ?_, ?_⟩, rfl, rfl, rfl, rfl, rfl, rfl, rfl⟩
    · rw [CE.flushed_stream hqueue, List.append_assoc]
    · simp [CE.flushed]
    · simp [CE.flushed, hbytes]
    · simp [CE.flushed, hbytes]

/-! ### The drain (R92, R94) -/

/-- With the pad the queue fills the fewest whole bytes that hold it (R92). -/
theorem add_padLength (n : Nat) : n + padLength n = 8 * ((n + 7) / 8) := by
  unfold padLength
  omega

/-- Settles O15: the queue and its pad are whole bytes, so that OUT grows by exactly those bits. -/
theorem drainWritesWholeBytes : Obligations.DrainWritesWholeBytes := by
  intro e h
  have hlen : (e.bitSink ++ zeros (padLength e.bitSink.length)).length = 8 * ((e.bitSink.length + 7) / 8) := by
    rw [List.length_append, length_zeros, add_padLength]
  have hbytes := length_pack8 _ hlen
  have haccepts : e.session.sink.acceptsNext ((e.bitSink.length + padLength e.bitSink.length) / 8) = true := by
    rwa [add_padLength, Nat.mul_div_cancel_left _ (by decide)]
  refine ⟨_, bskDrain_accepted e haccepts, ?_, ?_, ?_, rfl, rfl, rfl, rfl⟩
  · rw [Session.acceptAll_out, unpack8_append, unpack8_pack8 _ hlen, List.append_assoc, padLength]
  · rw [Session.acceptAll_out, List.length_append, hbytes]
  · rw [Session.acceptAll_callCount, hbytes]

end Sys2Proof.Machine
end

section
/-! The Bit Source (42_bit_source.md): a push joins the queue, a take removes one whole field, and a queue shorter than
the awaited field leaves DE as it is. -/

namespace Sys2Proof.Machine

open Sys2Proof

/-! ### The push (R100) -/

/-- Settles O18: this is how BSR.PUSH is defined. -/
theorem pushAppendsTheBytes : Obligations.PushAppendsTheBytes := fun _ _ => rfl

/-! ### The take (R101, R104) -/

/-- The `w` oldest bits of a queue that has them are the `w` bits of the integer they spell. -/
theorem beBits_beVal_take {w : Nat} {q : Bits} (h : w ≤ q.length) : beBits (beVal (q.take w)) w = q.take w := by
  have hbits := beBits_beVal (q.take w)
  rwa [List.length_take_of_le h] at hbits

theorem beVal_take_lt {w : Nat} {q : Bits} (h : w ≤ q.length) : beVal (q.take w) < 2 ^ w := by
  have hlt := beVal_lt (q.take w)
  rwa [List.length_take_of_le h] at hlt

/-- Settles O17: by the two answers of BSR.TAKE, the queue being its `w` oldest bits and those behind them. -/
theorem takeRemovesOneWholeField : Obligations.TakeRemovesOneWholeField := by
  intro w e
  rcases bsrTake_cases w e with ⟨hshort, htake⟩ | ⟨hlong, htake⟩
  · exact ⟨fun _ => htake, fun hlong => absurd hshort hlong.not_gt⟩
  · refine ⟨fun hshort => absurd hshort hlong.not_gt, fun _ => ⟨_, _, htake, beVal_take_lt hlong, ?_⟩⟩
    rw [beBits_beVal_take hlong, List.take_append_drop]

/-! ### A queue shorter than the awaited field (R100, R151 to R154) -/

/-- The converse of `dStep_stall_short`: short of its field, the state machine stalls with nothing changed. -/
theorem dStep_stall_of_short {e : DE} (h : e.bitSource.length < e.awaitedWidth) : dStep e = .ok .stall e := by
  unfold DE.awaitedWidth at h
  unfold dStep
  cases hd : e.dstate with
  | expectingCode =>
    rw [hd] at h
    exact dCode_stall e h
  | expectingByte =>
    rw [hd] at h
    exact dByte_stall e h

theorem dDrive_of_short {e : DE} (h : e.bitSource.length < e.awaitedWidth) : dDrive e = .ok () e := by
  rw [dDrive_eq, dStep_stall_of_short h]

/-- Bits that do not complete the awaited field are only queued. -/
theorem dReceive_of_short {bits : Bits} {e : DE} (h : e.bitSource.length + bits.length < e.awaitedWidth) :
    dReceive bits e = .ok () (bsrPushBits bits e) := by
  have hshort : (bsrPushBits bits e).bitSource.length < (bsrPushBits bits e).awaitedWidth := by
    rwa [bsrPushBits_bitSource, List.length_append]
  exact dDrive_of_short hshort

/-- D.DATA is the arrival of the byte's eight bits at DE (R154). -/
theorem exec_dData (b : Byte) (s : State) :
    exec (.dData b) s = onDE (DE.beat false (dReceive (beBits b.toNat 8))) s := by
  rw [← dData_body]
  rfl

/-- Settles O48: the beat is admitted, and the drive stalls at once behind the push. -/
theorem dataShortOfAFieldOnlyBuffers : Obligations.DataShortOfAFieldOnlyBuffers := by
  intro b s hopen hshort
  obtain ⟨⟨hfault, hhung⟩, hclosed⟩ := hopen
  have hbody : dReceive (beBits b.toNat 8) s.de = .ok () (bsrPushBits (beBits b.toNat 8) s.de) :=
    dReceive_of_short (by rwa [length_beBits])
  rw [exec_dData, onDE_next]
  refine ⟨_, ?_, rfl⟩
  rw [DE.beat_admitted hhung hfault hclosed, hbody]
  rfl

end Sys2Proof.Machine
end

section
/-! The parent-pointer array of DD: the walk to code 0 rebuilds the entry it starts from, and the pair a mint stores keeps
the array true of the dictionary (44_decode_dictionary.md R123, R124). -/

namespace Sys2Proof.Machine

open Sys2Proof

@[simp] theorem expandBy_code_zero (par : Parents) (n : Nat) : expandBy par n 0 = [] := by
  cases n <;> rfl

/-- One turn of the walk: the parent's expansion, then the code's own byte (R124). -/
theorem expandBy_succ_of_find {par : Parents} {c p : Code} {b : Byte} (n : Nat) (hc : c ≠ 0)
    (hfind : FMap.find par c = some (p, b)) : expandBy par (n + 1) c = expandBy par n p ++ [b] := by
  rw [expandBy, if_neg hc, hfind]

/-- The walk needs no more turns than its code: by induction on the turns, since the parent is a smaller code. -/
theorem parentHolds.lookup_eq_expandBy {par : Parents} {d : DecDict} {maxCode : Code} (h : parentHolds par d maxCode)
    {n : Nat} {c : Code} (hn : c.toNat ≤ n) (hmax : c.toNat ≤ maxCode.toNat) :
    ddLookup d c = some (expandBy par n c) := by
  obtain ⟨hroot, hentry⟩ := h
  induction n generalizing c with
  | zero =>
    have hc : c = 0 := BitVec.eq_of_toNat_eq (Nat.le_zero.mp hn)
    rw [hc, expandBy_code_zero, hroot]
  | succ n ih =>
    by_cases hc : c = 0
    · rw [hc, expandBy_code_zero, hroot]
    · have hpos : c.toNat ≠ 0 := fun h0 => hc (BitVec.eq_of_toNat_eq h0)
      obtain ⟨p, b, t, hfind, hp, hpt, hct⟩ := hentry c (Nat.one_le_iff_ne_zero.mpr hpos) hmax
      have hparent : ddLookup d p = some (expandBy par n p) := ih (by omega) (by omega)
      have ht : t = expandBy par n p := Option.some.inj (hpt.symm.trans hparent)
      rw [expandBy_succ_of_find n hc hfind, hct, ht]

/-- The pair (`last_code`, literal) stored under the minted code is the parent and the last byte of the new entry, and no
smaller code is touched (R122, R124). -/
theorem parentHolds.mint {e : DE} {par : Parents} {m : Code} {b : Byte} (h : parentHolds par e.decDict e.maxCode)
    (hkeys : e.keysExact) (hlast : e.lastCode.toNat ≤ e.maxCode.toNat) (hm : codeInc e.maxCode = some m) :
    parentHolds (parentInsert par m e.lastCode b) (e.mint m b).decDict m := by
  obtain ⟨hroot, hentry⟩ := h
  obtain ⟨hinc, _⟩ := codeInc_eq_some hm
  refine ⟨(DE.mint_lookup_old hm (Nat.zero_le _)).trans hroot, fun c hpos hle => ?_⟩
  by_cases hc : c = m
  · subst hc
    exact ⟨e.lastCode, b, ddExpansion e.decDict e.lastCode, FMap.find_store_same _ _ _, by omega,
      (DE.mint_lookup_old hm hlast).trans (DE.lookup_lastCode hkeys hlast), DE.mint_lookup_same e c b⟩
  · have hne : c.toNat ≠ m.toNat := fun h0 => hc (BitVec.eq_of_toNat_eq h0)
    have hmax : c.toNat ≤ e.maxCode.toNat := by omega
    obtain ⟨p, b', t, hfind, hp, hpt, hct⟩ := hentry c hpos hmax
    exact ⟨p, b', t, (FMap.find_store_other _ _ hc).trans hfind, hp,
      (DE.mint_lookup_old hm (hp.le.trans hmax)).trans hpt, (DE.mint_lookup_old hm hmax).trans hct⟩

/-- Settles O60: a present code is read by the walk, an absent one is above `max_code` (R123), and a mint keeps the array. -/
theorem parentPointersReadAsTheArray : Obligations.ParentPointersReadAsTheArray := by
  intro e par hkeys hpar
  refine ⟨fun c => ?_, fun m b hm hlast => hpar.mint hkeys hlast hm⟩
  unfold parentLookup
  split
  case isTrue hle => exact (hpar.lookup_eq_expandBy le_rfl hle).symm
  case isFalse hgt =>
    have habsent : ¬ ∃ s, ddLookup e.decDict c = some s := mt (hkeys c).mp hgt
    exact (Option.eq_none_iff_forall_ne_some.mpr fun s hs => habsent ⟨s, hs⟩).symm

end Sys2Proof.Machine
end

section
/-! What CE emits (41_bit_sink.md R90, R91; 45_compressor.md R130, R134): fields that join the Bit Sink of an engine whose
byte sink accepts, and the beats of an open CE that are made of them. -/

namespace Sys2Proof.Machine

open Sys2Proof

/-! ### Bits that join the Bit Sink (R90, R91, R93) -/

/-- How many bits of a queue of `n` leave it: one flush's, when it has more than that (R90, D13). -/
def flushedOf (n : Nat) : Nat := if Config.flushBits < n then Config.flushBits else 0

theorem flushedOf_of_le {n : Nat} (h : n ≤ 64) : flushedOf n = 0 := if_neg h.not_gt

theorem flushedOf_of_gt {n : Nat} (h : 64 < n) : flushedOf n = 64 := if_pos h

theorem flushedOf_le (n : Nat) : flushedOf n ≤ n := by
  unfold flushedOf
  split
  · exact Nat.le_of_lt ‹_›
  · exact Nat.zero_le n

theorem flushedOf_eq_mul (n : Nat) : flushedOf n = 8 * (flushedOf n / 8) := by
  unfold flushedOf
  split <;> rfl

/-- CE after `bits` have joined its Bit Sink, the byte sink accepting what is flushed. -/
def CE.emit (bits : Bits) (e : CE) : CE :=
  let n := flushedOf (e.bitSink.length + bits.length)
  { e with
    bitSink := (e.bitSink ++ bits).drop n
    session := e.session.acceptAll (pack8 ((e.bitSink ++ bits).take n)) }

section Emit

variable (bits : Bits) (e : CE)

@[simp] theorem CE.emit_encDict : (e.emit bits).encDict = e.encDict := rfl
@[simp] theorem CE.emit_maxCode : (e.emit bits).maxCode = e.maxCode := rfl
@[simp] theorem CE.emit_pending : (e.emit bits).pending = e.pending := rfl
@[simp] theorem CE.emit_closed : (e.emit bits).session.closed = e.session.closed := rfl
@[simp] theorem CE.emit_fault : (e.emit bits).session.fault = e.session.fault := rfl
@[simp] theorem CE.emit_faultValue : (e.emit bits).session.faultValue = e.session.faultValue := rfl
@[simp] theorem CE.emit_responses : (e.emit bits).session.responses = e.session.responses := rfl
@[simp] theorem CE.emit_hung : (e.emit bits).session.hung = e.session.hung := rfl

theorem CE.length_take_flushedOf :
    ((e.bitSink ++ bits).take (flushedOf (e.bitSink.length + bits.length))).length
      = 8 * (flushedOf (e.bitSink.length + bits.length) / 8) := by
  have hle : flushedOf (e.bitSink.length + bits.length) ≤ (e.bitSink ++ bits).length := by
    rw [List.length_append]
    exact flushedOf_le _
  rw [List.length_take_of_le hle]
  exact flushedOf_eq_mul _

@[simp] theorem CE.length_emit_bitSink :
    (e.emit bits).bitSink.length
      = e.bitSink.length + bits.length - flushedOf (e.bitSink.length + bits.length) := by
  simp [CE.emit]

@[simp] theorem CE.length_emit_out :
    (e.emit bits).session.out.length
      = e.session.out.length + flushedOf (e.bitSink.length + bits.length) / 8 := by
  rw [CE.emit, Session.acceptAll_out, List.length_append, length_pack8 _ (e.length_take_flushedOf bits)]

@[simp] theorem CE.emit_callCount :
    (e.emit bits).session.callCount
      = e.session.callCount + flushedOf (e.bitSink.length + bits.length) / 8 := by
  rw [CE.emit, Session.acceptAll_callCount, length_pack8 _ (e.length_take_flushedOf bits)]

@[simp] theorem CE.emit_sink :
    (e.emit bits).session.sink
      = e.session.sink.after (flushedOf (e.bitSink.length + bits.length) / 8) := by
  rw [CE.emit, Session.acceptAll_sink, length_pack8 _ (e.length_take_flushedOf bits)]

/-- What is written and what is held is what was, with the bits behind it (R94). -/
theorem CE.emit_stream :
    unpack8 (e.emit bits).session.out ++ (e.emit bits).bitSink
      = unpack8 e.session.out ++ e.bitSink ++ bits := by
  rw [CE.emit, Session.acceptAll_out, unpack8_append, unpack8_pack8 _ (e.length_take_flushedOf bits),
    List.append_assoc, List.take_append_drop, List.append_assoc]

end Emit

theorem CE.emit_of_le {bits : Bits} {e : CE} (h : e.bitSink.length + bits.length ≤ 64) :
    e.emit bits = { e with bitSink := e.bitSink ++ bits } := by
  simp [CE.emit, flushedOf_of_le h, pack8]

theorem CE.emit_of_gt {bits : Bits} {e : CE} (h : 64 < e.bitSink.length + bits.length) :
    e.emit bits = ({ e with bitSink := e.bitSink ++ bits } : CE).flushed := by
  rw [CE.emit, flushedOf_of_gt h, CE.flushed]

/-- The Bit Sink stays bounded (R93). -/
theorem CE.emit_bounded {bits : Bits} {e : CE} (hq : e.bitSink.length ≤ 64) (hb : bits.length ≤ 64) :
    (e.emit bits).bitSink.length ≤ 64 := by
  rw [CE.length_emit_bitSink, flushedOf]
  simp only [Config.flushBits]
  split <;> omega

/-- Two fields of together at most 64 bits are flushed at most once (R93). -/
theorem CE.emit_emit {f g : Bits} {e : CE} (hq : e.bitSink.length ≤ 64) (hfg : f.length + g.length ≤ 64) :
    (e.emit f).emit g = e.emit (f ++ g) := by
  by_cases hf : e.bitSink.length + f.length ≤ 64
  · rw [CE.emit_of_le hf]
    simp only [CE.emit, List.append_assoc, List.length_append, Nat.add_assoc]
  · have hlong : 64 < e.bitSink.length + f.length := not_le.mp hf
    have hshort : (e.emit f).bitSink.length + g.length ≤ 64 := by
      rw [CE.length_emit_bitSink, flushedOf_of_gt hlong]
      omega
    have hle : Config.flushBits ≤ (e.bitSink ++ f).length := by
      rw [List.length_append]
      exact hlong.le
    have hboth : 64 < e.bitSink.length + (f ++ g).length := by
      rw [List.length_append]
      omega
    rw [CE.emit_of_le hshort, CE.emit_of_gt hlong, CE.emit_of_gt hboth]
    simp only [CE.flushed, ← List.append_assoc, List.drop_append_of_le_length hle, List.take_append_of_le_length hle]

theorem bskAppend_accepted {v w : Nat} {e : CE} (hv : v < 2 ^ w)
    (h : 64 < e.bitSink.length + w → e.session.sink.acceptsNext 8 = true) :
    bskAppend v w e = .ok () (e.emit (beBits v w)) := by
  by_cases hl : e.bitSink.length + w ≤ 64
  · rw [bskAppend_buffered v w e hv hl, CE.emit_of_le (by rwa [length_beBits])]
  · have hlong : 64 < e.bitSink.length + w := not_le.mp hl
    rw [bskAppend_flushes hv hlong, CE.emit_of_gt (by rwa [length_beBits])]
    exact bskFlush64_accepted (by simpa using hlong.le) (h hlong)

/-! ### The node of the pending match (R113, R114) -/

section Node

variable {d : EncDict} {c : Code} {p : ByteSeq}

theorem nodeSeq.prefixCode_eq (h : nodeSeq d c p) : prefixCode d p = c := by
  unfold prefixCode edCodeOf
  rcases h with ⟨rfl, rfl⟩ | ⟨hp, hc⟩
  · rfl
  · rw [if_neg hp, hc, Option.getD_some]

/-- A sequence that is empty or a key is that of its code's node. -/
theorem nodeSeq_prefixCode (h : p = [] ∨ ∃ c, edLookup d p = some c) : nodeSeq d (prefixCode d p) p := by
  by_cases hp : p = []
  · subst hp
    exact .inl ⟨rfl, rfl⟩
  · obtain ⟨c, hc⟩ := h.resolve_left hp
    have hnode : nodeSeq d c p := .inr ⟨hp, hc⟩
    rwa [hnode.prefixCode_eq]

/-- A new entry takes no node away. -/
theorem nodeSeq.insert {s : ByteSeq} {m : Code} (h : nodeSeq d c p) (hnew : edLookup d s = none) :
    nodeSeq (edInsert d s m) c p := by
  rcases h with h0 | ⟨hp, hc⟩
  · exact .inl h0
  · have hne : p ≠ s := by
      rintro rfl
      simp [hnew] at hc
    exact .inr ⟨hp, by rw [edLookup_insert, if_neg hne, hc]⟩

variable {e : CE}

/-- A node's code fits the width of the max-code (R139). -/
theorem nodeSeq.lt_two_pow (h : nodeSeq e.encDict c p) (hcodes : e.codesExact) : c.toNat < 2 ^ minBits e.maxCode := by
  apply lt_two_pow_minBits_of_le
  rcases h with ⟨rfl, _⟩ | ⟨_, hc⟩
  · exact Nat.zero_le _
  · exact (hcodes.1 p c hc).2.2

end Node

/-! ### A new sequence (R130) -/

/-- The bits of a transaction: the code of the pending match at the width before the mint, and the literal (R131). -/
def CE.transactionField (b : Byte) (e : CE) : Bits :=
  beBits (prefixCode e.encDict e.pending).toNat (minBits e.maxCode) ++ beBits b.toNat Config.litW

/-- CE after C.STEP on a byte that makes a new sequence, the byte sink accepting: minted, emitted, `pending` cleared. -/
def CE.transact (b : Byte) (e : CE) : CE :=
  { ((e.extend b).mint (e.maxCode + 1)).emit (e.transactionField b) with pending := [] }

theorem cStep_match {b : Byte} {e : CE} {c : Code} (h : edLookup e.encDict (e.pending ++ [b]) = some c) :
    cStep b e = .ok () (e.extend b) := by
  have hhit : edLookup e.encDict (e.extend b).pending = some c := h
  rw [cStep, hhit]

theorem cStep_mint {b : Byte} {m : Code} {e : CE} (h : edLookup e.encDict (e.pending ++ [b]) = none)
    (hm : codeInc e.maxCode = some m) : cStep b e = cEmit (minBits e.maxCode) b ((e.extend b).mint m) := by
  have hmiss : edLookup e.encDict (e.extend b).pending = none := h
  have hinc : codeInc (e.extend b).maxCode = some m := hm
  rw [cStep, hmiss]
  simp only [cMiss, hinc, codePrev_codeInc hinc]
  rfl

/-- A code field and a literal take one flush at most, so that a sink that accepts 8 bytes suffices (R93). -/
theorem cEmit_accepted {w : Nat} {b : Byte} {c : Code} {e : CE} (hc : prefixCode e.encDict e.pending.dropLast = c)
    (hfits : c.toNat < 2 ^ w) (hw : w ≤ 16) (hq : e.bitSink.length ≤ 64) (hk : e.session.sink.acceptsNext 8 = true) :
    cEmit w b e = .ok () { e.emit (beBits c.toNat w ++ beBits b.toNat Config.litW) with pending := [] } := by
  have hsecond : 64 < (e.emit (beBits c.toNat w)).bitSink.length + Config.litW →
      (e.emit (beBits c.toNat w)).session.sink.acceptsNext 8 = true := by
    rw [CE.length_emit_bitSink, CE.emit_sink, length_beBits]
    by_cases hl : e.bitSink.length + w ≤ 64
    · rw [flushedOf_of_le hl]
      exact fun _ => hk
    · rw [flushedOf_of_gt (not_le.mp hl), Config.litW]
      omega
  have htwo : (beBits c.toNat w).length + (beBits b.toNat Config.litW).length ≤ 64 := by
    simp only [length_beBits, Config.litW]
    omega
  rw [cEmit, hc, bskAppend_accepted hfits fun _ => hk, Res.andThen, bskAppend_accepted b.isLt hsecond, Res.andThen,
    CE.emit_emit hq htwo]

theorem cStep_new {b : Byte} {e : CE} (hr : e.regular) (hmax : e.maxCode.toNat < 65535)
    (hnew : edLookup e.encDict (e.pending ++ [b]) = none) (hk : e.session.sink.acceptsNext 8 = true) :
    cStep b e = .ok () (e.transact b) := by
  obtain ⟨hpend, hcodes, _, hq, _⟩ := hr
  have hnode := nodeSeq_prefixCode hpend
  have hprefix : prefixCode ((e.extend b).mint (e.maxCode + 1)).encDict (e.pending ++ [b]).dropLast
      = prefixCode e.encDict e.pending := by
    rw [List.dropLast_concat]
    exact (hnode.insert hnew).prefixCode_eq
  rw [cStep_mint hnew (codeInc_of_lt hmax)]
  exact cEmit_accepted hprefix (hnode.lt_two_pow hcodes) (minBits_le_sixteen _) hq hk

/-! ### The beats of an open CE (R132 to R134) -/

theorem onCE_beat_of_ok {a : Bool} {body : CE → Res CE Unit} {s : State} {e : CE} (hopen : s.ce.session.isOpen)
    (hok : body s.ce = .ok () e) : onCE (CE.beat a body) s = .next { s with ce := e } := by
  obtain ⟨⟨hfault, hhung⟩, hclosed⟩ := hopen
  refine onCE_next.mpr ⟨e, ?_, rfl⟩
  rw [CE.beat_admitted hhung hfault hclosed, hok, CE.finish]

/-- Settles O19: C.STEP finds the longer sequence and stops. -/
theorem matchedByteOnlyGrowsPending : Obligations.MatchedByteOnlyGrowsPending := fun _ _ _ hopen hhit =>
  onCE_beat_of_ok hopen (cStep_match hhit)

/-- Settles O22: the beat is admitted, and its body is the answer. -/
theorem endcallAnswersAndFlushesNothing : Obligations.EndcallAnswersAndFlushesNothing := fun _ hopen =>
  onCE_beat_of_ok hopen rfl

section Transact

variable (b : Byte) (e : CE)

theorem CE.length_transactionField : (e.transactionField b).length = minBits e.maxCode + 8 := by
  rw [CE.transactionField, List.length_append, length_beBits, length_beBits]

@[simp] theorem CE.transact_maxCode : (e.transact b).maxCode = e.maxCode + 1 := rfl
@[simp] theorem CE.transact_pending : (e.transact b).pending = [] := rfl
@[simp] theorem CE.transact_bitSink : (e.transact b).bitSink = (e.emit (e.transactionField b)).bitSink := rfl
@[simp] theorem CE.transact_session : (e.transact b).session = (e.emit (e.transactionField b)).session := rfl

theorem CE.transact_lookup (q : ByteSeq) :
    edLookup (e.transact b).encDict q
      = if q = e.pending ++ [b] then some (e.maxCode + 1) else edLookup e.encDict q :=
  CE.mint_lookup (e.extend b) _ q

end Transact

/-- Settles O20: C.STEP makes the transaction, whose field is at most 24 bits long. -/
theorem newSequenceEmitsATransaction : Obligations.NewSequenceEmitsATransaction := by
  intro b s hopen hr hmax hnew hk
  have hexec := onCE_beat_of_ok (a := false) hopen (cStep_new hr hmax hnew hk)
  obtain ⟨⟨hfault, hhung⟩, hclosed⟩ := hopen
  obtain ⟨hpend, _, _, hq, _⟩ := hr
  have hlen := s.ce.length_transactionField b
  have hw := minBits_le_sixteen s.ce.maxCode
  have hstream := s.ce.emit_stream (s.ce.transactionField b)
  rw [CE.transactionField, ← List.append_assoc] at hstream
  refine ⟨_, hexec, toNat_add_one_of_lt hmax, s.ce.transact_lookup b, rfl,
    ⟨prefixCode s.ce.encDict s.ce.pending, (nodeSeq_prefixCode hpend).imp_left And.symm, hstream⟩, fun hle => ?_,
    fun hgt => ?_, ?_, CE.emit_bounded hq (by omega), hclosed, hfault, rfl, rfl, hhung, rfl, rfl⟩
  · have hbuffered := CE.emit_of_le (e := s.ce) (bits := s.ce.transactionField b) (by omega)
    rw [CE.transact_session, hbuffered]
  · rw [CE.transact_session, CE.length_emit_out, hlen, ← Nat.add_assoc, flushedOf_of_gt hgt]
  · rw [CE.transact_session, CE.emit_callCount, CE.length_emit_out]
    omega

/-! ### The tail code, and the end of a session (R134) -/

/-- The tail code of a pending match, at the width of the current max-code; no bits without one (R131, R134). -/
def CE.tailField (e : CE) : Bits :=
  if e.pending = [] then [] else beBits (edCodeOf e.encDict e.pending).toNat (minBits e.maxCode)

theorem CE.length_tailField_le (e : CE) : e.tailField.length ≤ 16 := by
  unfold CE.tailField
  split
  · exact Nat.zero_le _
  · rw [length_beBits]
    exact minBits_le_sixteen _

theorem cTail_accepted {e : CE} (hr : e.regular) (hk : e.session.sink.acceptsNext 8 = true) :
    cTail e = .ok () (e.emit e.tailField) := by
  obtain ⟨hpend, hcodes, _, hq, _⟩ := hr
  unfold cTail CE.tailField
  split
  case isTrue hp =>
    have hnil : e.bitSink.length + ([] : Bits).length ≤ 64 := hq
    rw [CE.emit_of_le hnil, List.append_nil]
  case isFalse hp =>
    have hnode := nodeSeq_prefixCode hpend
    rw [prefixCode, if_neg hp] at hnode
    exact bskAppend_accepted (hnode.lt_two_pow hcodes) fun _ => hk

theorem Sink.acceptsNext_add (m n : Nat) (k : Sink) :
    k.acceptsNext (m + n) = (k.acceptsNext m && (k.after m).acceptsNext n) := by
  induction m generalizing k with
  | zero => simp [Sink.acceptsNext]
  | succ m ih => rw [Nat.succ_add, Sink.acceptsNext, Sink.acceptsNext, ih, Bool.and_assoc, Sink.after_succ]

theorem Sink.acceptsNext_of_le {m n : Nat} {k : Sink} (h : m ≤ n) (hk : k.acceptsNext n = true) :
    k.acceptsNext m = true := by
  rw [← Nat.add_sub_cancel' h, Sink.acceptsNext_add, Bool.and_eq_true] at hk
  exact hk.1

/-- After the tail code's flush, or without one, a sink that accepts 16 bytes accepts the drain (R92, R93). -/
theorem CE.emit_tailField_drains {e : CE} (hq : e.bitSink.length ≤ 64) (hk : e.session.sink.acceptsNext 16 = true) :
    (e.emit e.tailField).session.sink.acceptsNext (((e.emit e.tailField).bitSink.length + 7) / 8) = true := by
  have htail := e.length_tailField_le
  rw [CE.emit_sink]
  have hsplit : flushedOf (e.bitSink.length + e.tailField.length) / 8 +
      ((e.emit e.tailField).bitSink.length + 7) / 8 ≤ 16 := by
    have hbound := CE.emit_bounded hq (htail.trans (by decide))
    have hflush : flushedOf (e.bitSink.length + e.tailField.length) ≤ 64 := by
      unfold flushedOf
      split <;> decide
    omega
  have hboth := Sink.acceptsNext_of_le hsplit hk
  rw [Sink.acceptsNext_add, Bool.and_eq_true] at hboth
  exact hboth.2

theorem bskDrain_hung {e e' : CE} (h : bskDrain e = .ok () e') : e'.session.hung = e.session.hung := by
  rw [CE.sinkWrite_ok h]
  rfl

/-- A flush takes whole bytes, so that the pad is that of the queue before it (R64). -/
theorem CE.emit_bitSink_mod (bits : Bits) (e : CE) : (e.emit bits).bitSink.length % 8 = (e.bitSink ++ bits).length % 8 := by
  have hle := flushedOf_le (e.bitSink.length + bits.length)
  have hmul := flushedOf_eq_mul (e.bitSink.length + bits.length)
  rw [CE.length_emit_bitSink, List.length_append]
  omega

/-- Settles O23: the tail code joins the queue, and the drain writes what the queue then holds. -/
theorem finalizeWritesTailAndPad : Obligations.FinalizeWritesTailAndPad := by
  intro s hopen hr hk
  have hq : s.ce.bitSink.length ≤ 64 := hr.2.2.2.1
  have htail := cTail_accepted hr (Sink.acceptsNext_of_le (by decide) hk)
  obtain ⟨t, hdrain, hbits, hbytes, hcount, _, hfault, hvalue, hresp⟩ :=
    drainWritesWholeBytes _ (CE.emit_tailField_drains hq hk)
  have hbody : cFinalizeBody s.ce = .ok () { s.ce.emit s.ce.tailField with
      bitSink := [], session := { t with closed := true }.respondCount } := by
    rw [cFinalizeBody, htail, Res.andThen, hdrain, Res.andThen]
  have hexec := onCE_beat_of_ok (a := true) hopen hbody
  obtain ⟨⟨hfault0, hhung0⟩, _⟩ := hopen
  obtain ⟨hpend, hcodes, _⟩ := hr
  refine ⟨_, hexec, ⟨s.ce.tailField, ?_, ?_⟩, rfl, rfl, rfl, ?_, rfl, rfl, rfl, hfault.trans hfault0, hvalue,
    (bskDrain_hung hdrain).trans hhung0, rfl, rfl⟩
  · by_cases hp : s.ce.pending = []
    · exact .inl ⟨hp, if_pos hp⟩
    · obtain ⟨c, hc⟩ := hpend.resolve_left hp
      have hcode : edCodeOf s.ce.encDict s.ce.pending = c := by rw [edCodeOf, hc, Option.getD_some]
      refine .inr ⟨hp, c, hc, (hcodes.1 _ c hc).2.1, ?_⟩
      rw [CE.tailField, if_neg hp, hcode]
  · rw [Session.respondCount_out, hbits, CE.emit_stream, CE.emit_bitSink_mod]
  · have hanswer : t.callCount = s.ce.session.callCount + (t.out.length - s.ce.session.out.length) := by
      rw [hcount, hbytes, CE.emit_callCount, CE.length_emit_out]
      omega
    rw [Session.respondCount_responses, Session.respondCount_out]
    show t.responses ++ [.ok t.callCount] = _
    rw [hresp, hanswer, CE.emit_responses]

end Sys2Proof.Machine
end

section
/-! Two runs of CE's rules side by side: what a relation between engines must keep for their rules to end alike, and the
trie-walk form of C.STEP and of the tail (43_encode_dictionary.md R114, 45_compressor.md R138) as such a pair of runs. -/

namespace Sys2Proof.Machine

open Sys2Proof

/-! ### Rules that end alike -/

/-- Two rules end alike, in states related by `R`. -/
inductive Res.Alike {σ τ α : Type} (R : σ → τ → Prop) : Res σ α → Res τ α → Prop
  | ok (a : α) {s : σ} {s' : τ} (h : R s s') : Res.Alike R (.ok a s) (.ok a s')
  | raise (c : Cause) (v : BitVec 16) {s : σ} {s' : τ} (h : R s s') : Res.Alike R (.raise c v s) (.raise c v s')
  | hang {s : σ} {s' : τ} (h : R s s') : Res.Alike R (.hang s) (.hang s')
  | refuse (q : Refusal) : Res.Alike R (.refuse q) (.refuse q)
  | fault (f : Fault) : Res.Alike R (.fault f) (.fault f)

theorem Res.Alike.andThen {σ τ α β : Type} {R : σ → τ → Prop} {r : Res σ α} {r' : Res τ α} {f : α → σ → Res σ β}
    {f' : α → τ → Res τ β} (hr : r.Alike R r') (hf : ∀ a s s', R s s' → (f a s).Alike R (f' a s')) :
    (r.andThen f).Alike R (r'.andThen f') := by
  cases hr with
  | ok a h => exact hf a _ _ h
  | raise c v h => exact .raise c v h
  | hang h => exact .hang h
  | refuse q => exact .refuse q
  | fault q => exact .fault q

theorem Res.andThen_assoc {σ α β γ : Type} (r : Res σ α) (f : α → σ → Res σ β) (g : β → σ → Res σ γ) :
    (r.andThen f).andThen g = r.andThen fun a s => (f a s).andThen g := by
  cases r <;> rfl

/-- The rule is not refused and reaches no bound: the machine goes on from it. -/
def Res.Completes {σ α : Type} : Res σ α → Prop
  | .refuse _ => False
  | .fault _ => False
  | _ => True

theorem Res.Completes.andThen {σ α β : Type} {r : Res σ α} {f : α → σ → Res σ β} (hr : r.Completes)
    (hf : ∀ a s, (f a s).Completes) : (r.andThen f).Completes := by
  cases r with
  | ok a s => exact hf a s
  | _ => exact hr

/-- A relation between two engines that the operations of the Bit Sink keep, both doing the same (R44, R90 to R92). -/
structure CE.StreamSim (R : CE → CE → Prop) : Prop where
  queue_eq : ∀ {a e}, R a e → a.bitSink = e.bitSink
  queue : ∀ {a e} q, R a e → R { a with bitSink := q } { e with bitSink := q }
  write : ∀ {a e} bs, R a e → (a.session.sinkWrite bs).1 = (e.session.sinkWrite bs).1 ∧
    R { a with session := (a.session.sinkWrite bs).2 } { e with session := (e.session.sinkWrite bs).2 }

section StreamSim

variable {R : CE → CE → Prop} (hR : CE.StreamSim R) {a e : CE}
include hR

theorem CE.StreamSim.sinkWrite (bs : ByteSeq) (h : R a e) : (a.sinkWrite bs).Alike R (e.sinkWrite bs) := by
  obtain ⟨hend, hleft⟩ := hR.write bs h
  unfold CE.sinkWrite
  rcases ha : a.session.sinkWrite bs with ⟨x, t⟩
  rcases he : e.session.sinkWrite bs with ⟨y, u⟩
  rw [ha, he] at hend hleft
  obtain rfl : x = y := hend
  cases x with
  | done => exact .ok () hleft
  | failed => exact .raise .ioFailure 0 hleft
  | silent => exact .hang hleft

theorem CE.StreamSim.bskAppend (v w : Nat) (h : R a e) : (bskAppend v w a).Alike R (bskAppend v w e) := by
  have hqueue := hR.queue (e.bitSink ++ beBits v w) h
  simp only [Machine.bskAppend, hR.queue_eq h]
  split
  · exact .refuse _
  · split
    · exact hR.sinkWrite _ (hR.queue _ hqueue)
    · exact .ok () hqueue

theorem CE.StreamSim.bskDrain (h : R a e) : (bskDrain a).Alike R (bskDrain e) := by
  unfold Machine.bskDrain
  rw [hR.queue_eq h]
  exact hR.sinkWrite _ (hR.queue [] h)

end StreamSim

theorem CE.sinkWrite_completes (bs : ByteSeq) (e : CE) : (e.sinkWrite bs).Completes := by
  rcases e.sinkWrite_cases bs with ⟨he, _⟩ | ⟨he, _⟩ | ⟨he, _⟩ <;> rw [he] <;> trivial

theorem bskAppend_completes {v w : Nat} (e : CE) (h : v < 2 ^ w) : (bskAppend v w e).Completes := by
  rw [bskAppend_eq v w e h]
  split
  · trivial
  · exact CE.sinkWrite_completes _ _

/-! ### The fields of a transaction (R130) -/

/-- The two appends of a transaction. -/
def appendTransaction (v w : Nat) (b : Byte) (e : CE) : Res CE Unit :=
  (bskAppend v w e).andThen fun _ e1 => bskAppend b.toNat Config.litW e1

theorem cEmit_eq (w : Nat) (b : Byte) (e : CE) :
    cEmit w b e = (appendTransaction (prefixCode e.encDict e.pending.dropLast).toNat w b e).andThen fun _ e1 =>
      .ok () { e1 with pending := [] } :=
  (Res.andThen_assoc _ _ _).symm

theorem CE.StreamSim.appendTransaction {R : CE → CE → Prop} (hR : CE.StreamSim R) {a e : CE} (v w : Nat) (b : Byte)
    (h : R a e) : (appendTransaction v w b a).Alike R (appendTransaction v w b e) :=
  (hR.bskAppend v w h).andThen fun _ _ _ h1 => hR.bskAppend _ _ h1

theorem appendTransaction_completes {v w : Nat} (b : Byte) (e : CE) (h : v < 2 ^ w) :
    (appendTransaction v w b e).Completes :=
  (bskAppend_completes e h).andThen fun _ e1 => bskAppend_completes e1 b.isLt

/-! ### The trie and the dictionary (R114) -/

theorem edgeLt_total (x y : Code × Byte) (h : x ≠ y) (hl : edgeLt x y = false) : edgeLt y x = true := by
  obtain ⟨p, b⟩ := x
  obtain ⟨q, c⟩ := y
  simp only [edgeLt, Bool.or_eq_false_iff, Bool.and_eq_false_iff, decide_eq_false_iff_not] at hl
  simp only [edgeLt, Bool.or_eq_true, Bool.and_eq_true, decide_eq_true_eq]
  by_cases hpq : p = q
  · subst hpq
    have hbc : b.toNat ≠ c.toNat := fun hn => h (by rw [BitVec.eq_of_toNat_eq hn])
    have hge := hl.2.resolve_left (absurd rfl)
    exact .inr ⟨rfl, by omega⟩
  · have hne : p.toNat ≠ q.toNat := fun hn => hpq (BitVec.eq_of_toNat_eq hn)
    exact .inl (by omega)

section Trie

variable {e : CE} {ch : Children} {p : Code} {s : ByteSeq}

/-- A node is the root exactly when its sequence is empty. -/
theorem nodeSeq.eq_zero_iff (h : nodeSeq e.encDict p s) (hcodes : e.codesExact) : p = 0 ↔ s = [] := by
  rcases h with ⟨rfl, rfl⟩ | ⟨hs, hp⟩
  · simp
  · have hpos := (hcodes.1 s p hp).2.1
    have hne : p ≠ 0 := by
      rintro rfl
      simp at hpos
    exact iff_of_false hne hs

/-- A node has one sequence. -/
theorem nodeSeq.unique {u : ByteSeq} (h : nodeSeq e.encDict p s) (hu : nodeSeq e.encDict p u) (hcodes : e.codesExact) :
    s = u := by
  by_cases hp : p = 0
  · rw [(h.eq_zero_iff hcodes).mp hp, (hu.eq_zero_iff hcodes).mp hp]
  · have hkey : ∀ {q}, nodeSeq e.encDict p q → edLookup e.encDict q = some p := fun hq =>
      (hq.resolve_left fun h0 => hp h0.1).2
    exact hcodes.2.2.1 s u p (hkey h) (hkey hu)

/-- A child is looked up as the longer sequence. -/
theorem trieHolds.find_eq (h : trieHolds ch e.encDict) (hcodes : e.codesExact) (hs : nodeSeq e.encDict p s) (b : Byte) :
    FMap.find ch (p, b) = edLookup e.encDict (s ++ [b]) := by
  refine Option.ext fun c => (h p b c).trans ⟨?_, fun hc => ⟨s, hs, hc⟩⟩
  rintro ⟨u, hu, hc⟩
  rwa [hs.unique hu hcodes]

/-- After a mint an old key's all-but-last part is a node as before. -/
theorem nodeSeq.of_insert {u : ByteSeq} {m c : Code} {b : Byte} (h : nodeSeq (edInsert e.encDict u m) p s)
    (hprefix : e.prefixClosed) (hnew : edLookup e.encDict u = none) (hkey : edLookup e.encDict (s ++ [b]) = some c) :
    nodeSeq e.encDict p s := by
  rcases h with h0 | ⟨hs, hp⟩
  · exact .inl h0
  · have hlong : 1 < (s ++ [b]).length := by
      rw [List.length_append, List.length_singleton]
      exact Nat.lt_add_of_pos_left (List.length_pos_iff.mpr hs)
    obtain ⟨c', hc', _⟩ := (hprefix _ _ hkey).2 hlong
    rw [List.dropLast_concat] at hc'
    have hne : s ≠ u := by
      rintro rfl
      simp [hnew] at hc'
    rw [edLookup_insert, if_neg hne] at hp
    exact .inr ⟨hs, hp⟩

/-- The longer sequences of nodes after a mint: the minted one and those there were. -/
theorem nodeSeq_insert_iff {b b' : Byte} {q m c : Code} (hprefix : e.prefixClosed) (hs : nodeSeq e.encDict p s)
    (hnew : edLookup e.encDict (s ++ [b]) = none) :
    (∃ u, nodeSeq (edInsert e.encDict (s ++ [b]) m) q u ∧
      edLookup (edInsert e.encDict (s ++ [b]) m) (u ++ [b']) = some c) ↔
    ((q, b') = (p, b) ∧ m = c) ∨ ∃ u, nodeSeq e.encDict q u ∧ edLookup e.encDict (u ++ [b']) = some c := by
  constructor
  · rintro ⟨u, hu, hc⟩
    rw [edLookup_insert] at hc
    by_cases hkey : u ++ [b'] = s ++ [b]
    · rw [if_pos hkey] at hc
      obtain ⟨rfl, rfl⟩ : u = s ∧ b' = b := by simpa using hkey
      have hqp : q = p := hu.prefixCode_eq.symm.trans (hs.insert hnew).prefixCode_eq
      exact .inl ⟨by rw [hqp], Option.some.inj hc⟩
    · rw [if_neg hkey] at hc
      exact .inr ⟨u, hu.of_insert hprefix hnew hc, hc⟩
  · rintro (⟨hedge, rfl⟩ | ⟨u, hu, hc⟩)
    · obtain ⟨rfl, rfl⟩ := Prod.mk.inj hedge
      exact ⟨s, hs.insert hnew, by rw [edLookup_insert, if_pos rfl]⟩
    · have hkey : u ++ [b'] ≠ s ++ [b] := by
        intro hk
        simp [hk, hnew] at hc
      exact ⟨u, hu.insert hnew, by rw [edLookup_insert, if_neg hkey, hc]⟩

/-- The child stored for a mint is the minted entry, and no other child changes. -/
theorem trieHolds.mint {b : Byte} (h : trieHolds ch e.encDict) (hcodes : e.codesExact) (hprefix : e.prefixClosed)
    (hs : nodeSeq e.encDict p s) (hnew : edLookup e.encDict (s ++ [b]) = none) (m : Code) :
    trieHolds (FMap.store edgeLt ch (p, b) m) (edInsert e.encDict (s ++ [b]) m) := by
  intro q b' c
  rw [nodeSeq_insert_iff hprefix hs hnew, ← h q b' c, FMap.find_store]
  have hnone : FMap.find ch (p, b) = none := (h.find_eq hcodes hs b).trans hnew
  by_cases hedge : (q, b') = (p, b)
  · simp [hedge, hnone]
  · simp [hedge]

end Trie

/-! ### The trie-walk form of C.STEP and of the tail (R138) -/

/-- Two engines with the same Bit Sink, session and max-code, the second with the dictionary `d`. -/
def CE.SharesStream (d : EncDict) (a e : CE) : Prop :=
  a.bitSink = e.bitSink ∧ a.session = e.session ∧ a.maxCode = e.maxCode ∧ e.encDict = d

theorem CE.sharesStream_streamSim (d : EncDict) : CE.StreamSim (CE.SharesStream d) where
  queue_eq h := h.1
  queue _ h := ⟨rfl, h.2⟩
  write _ h := by
    obtain ⟨hq, ht, hframe⟩ := h
    rw [ht]
    exact ⟨rfl, hq, rfl, hframe⟩

section Refines

variable {b : Byte} {t : TrieCE} {e : CE}

theorem trieStep_match {n : Code} (h : FMap.find t.child (t.cur, b) = some n) :
    trieStep b t = .ok () { t with cur := n } := by
  rw [trieStep, h]

theorem trieStep_exhausted (h : FMap.find t.child (t.cur, b) = none) (hm : codeInc t.base.maxCode = none) :
    trieStep b t = .raise .codeSpaceExhausted 0 t := by
  rw [trieStep, h, hm]

/-- What the trie-walk form makes of the two appends: a new engine without a match, or the old node (R138). -/
def trieAfter (child : Children) (cur : Code) : Res CE Unit → Res TrieCE Unit
  | .ok _ e => .ok () { child := child, cur := 0, base := e }
  | .raise c v e => .raise c v { child := child, cur := cur, base := e }
  | .hang e => .hang { child := child, cur := cur, base := e }
  | .refuse r => .refuse r
  | .fault f => .fault f

theorem trieStep_new {m : Code} (h : FMap.find t.child (t.cur, b) = none) (hm : codeInc t.base.maxCode = some m) :
    trieStep b t = trieAfter (FMap.store edgeLt t.child (t.cur, b) m) t.cur
      (appendTransaction t.cur.toNat (minBits t.base.maxCode) b { t.base with maxCode := m }) := by
  simp only [trieStep, h, hm, codePrev_codeInc hm]
  rfl

/-- How the two forms end: in engines related by `Q`, or in the same fault or the same held SinkWrite with one session,
`session` reading it off the trie-walk side. -/
inductive Res.SameEnd {σ : Type} (Q : σ → CE → Prop) (session : σ → Session) : Res σ Unit → Res CE Unit → Prop
  | ok {a : σ} {e : CE} (h : Q a e) : Res.SameEnd Q session (.ok () a) (.ok () e)
  | raise (c : Cause) (v : BitVec 16) {a : σ} {e : CE} (h : session a = e.session) :
      Res.SameEnd Q session (.raise c v a) (.raise c v e)
  | hang {a : σ} {e : CE} (h : session a = e.session) : Res.SameEnd Q session (.hang a) (.hang e)

/-- C.STEP: a child is a known longer sequence, and a mint stores the child it inserts in the dictionary. -/
theorem trieStep_sameEnd (hr : e.regular) (h : trieRefines t e) :
    (trieStep b t).SameEnd trieRefines (fun t => t.base.session) (cStep b e) := by
  obtain ⟨hpend, hcodes, hprefix, _⟩ := hr
  obtain ⟨hchild, hrising, hnode, hmax, hqueue, hsession⟩ := h
  have hfind := hchild.find_eq hcodes hnode b
  cases hl : edLookup e.encDict (e.pending ++ [b]) with
  | some n =>
    rw [trieStep_match (hfind.trans hl), cStep_match hl]
    exact .ok ⟨hchild, hrising, .inr ⟨by simp [CE.extend], hl⟩, hmax, hqueue, hsession⟩
  | none =>
    cases hm : codeInc e.maxCode with
    | none =>
      rw [trieStep_exhausted (hfind.trans hl) (hmax ▸ hm), cStep_exhausted hl (codeInc_eq_none hm)]
      exact .raise _ _ hsession
    | some m =>
      have hcode : prefixCode ((e.extend b).mint m).encDict ((e.extend b).mint m).pending.dropLast = t.cur := by
        show prefixCode (edInsert e.encDict (e.pending ++ [b]) m) (e.pending ++ [b]).dropLast = t.cur
        rw [List.dropLast_concat]
        exact (hnode.insert hl).prefixCode_eq
      rw [trieStep_new (hfind.trans hl) (hmax ▸ hm), cStep_mint hl hm, cEmit_eq, hcode, hmax]
      have hstart : CE.SharesStream (edInsert e.encDict (e.pending ++ [b]) m) { t.base with maxCode := m }
          ((e.extend b).mint m) := ⟨hqueue, hsession, rfl, rfl⟩
      have halike := (CE.sharesStream_streamSim _).appendTransaction t.cur.toNat (minBits e.maxCode) b hstart
      have hcompletes := appendTransaction_completes b { t.base with maxCode := m } (hnode.lt_two_pow hcodes)
      generalize appendTransaction _ _ _ { t.base with maxCode := m } = x at halike hcompletes ⊢
      generalize appendTransaction _ _ _ ((e.extend b).mint m) = y at halike ⊢
      cases halike with
      | ok _ hend =>
        obtain ⟨hq, ht, hmc, hd⟩ := hend
        refine .ok ⟨?_, FMap.rising_store edgeLt_total _ _ _ hrising, .inl ⟨rfl, rfl⟩, hmc, hq, ht⟩
        rw [hd]
        exact hchild.mint hcodes hprefix hnode hl m
      | raise c v hend => exact .raise c v hend.2.1
      | hang hend => exact .hang hend.2.1
      | refuse | fault => exact hcompletes.elim

/-- The tail: the root stands for no pending match (R138). -/
theorem trieTail_sameEnd (hr : e.regular) (h : trieRefines t e) :
    (trieTail t).SameEnd (fun a e => a.bitSink = e.bitSink ∧ a.session = e.session) CE.session (cTail e) := by
  obtain ⟨_, hcodes, _⟩ := hr
  obtain ⟨_, _, hnode, hmax, hqueue, hsession⟩ := h
  unfold trieTail cTail
  by_cases hp : e.pending = []
  · rw [if_pos ((hnode.eq_zero_iff hcodes).mpr hp), if_pos hp]
    exact .ok ⟨hqueue, hsession⟩
  · have hcode : edCodeOf e.encDict e.pending = t.cur := by
      rw [← hnode.prefixCode_eq, prefixCode, if_neg hp]
    rw [if_neg (mt (hnode.eq_zero_iff hcodes).mp hp), if_neg hp, hcode, hmax, CE.tailWidth]
    have hstart : CE.SharesStream e.encDict t.base e := ⟨hqueue, hsession, hmax, rfl⟩
    have halike := (CE.sharesStream_streamSim _).bskAppend t.cur.toNat (minBits e.maxCode) hstart
    have hcompletes := bskAppend_completes t.base (hnode.lt_two_pow hcodes)
    generalize bskAppend _ _ t.base = x at halike hcompletes ⊢
    generalize bskAppend _ _ e = y at halike ⊢
    cases halike with
    | ok _ hend => exact .ok ⟨hend.1, hend.2.1⟩
    | raise c v hend => exact .raise c v hend.2.1
    | hang hend => exact .hang hend.2.1
    | refuse | fault => exact hcompletes.elim

end Refines

/-- Settles O59: C.STEP and the tail end alike in both forms. -/
theorem trieWalkRefinesTheMap : Obligations.TrieWalkRefinesTheMap := by
  intro b t e hr h
  have hstep := trieStep_sameEnd (b := b) hr h
  have htail := trieTail_sameEnd hr h
  constructor
  · generalize trieStep b t = x at hstep ⊢
    generalize cStep b e = y at hstep ⊢
    cases hstep with
    | ok h' => exact h'
    | raise c v h' => exact ⟨rfl, rfl, h'⟩
    | hang h' => exact h'
  · generalize trieTail t = x at htail ⊢
    generalize cTail e = y at htail ⊢
    cases htail with
    | ok h' => exact h'
    | raise c v h' => exact ⟨rfl, rfl, h'⟩
    | hang h' => exact h'

end Sys2Proof.Machine
end

section
/-! Streaming equivalence of the encoder (45_compressor.md R137): ENDCALL changes nothing but the count and the responses,
so that a run split into `write` calls and one that is not stay alike in all else, until a fault in what it specifies. -/

namespace Sys2Proof.Machine

open Sys2Proof

/-! ### Engines alike but for the count and the responses -/

/-- The engine with another count and other responses. -/
def CE.withAnswers (n : Nat) (rs : List Response) (e : CE) : CE :=
  { e with session := { e.session with callCount := n, responses := rs } }

/-- `e` is `a` but for the count and the responses, all that ENDCALL changes (R133). -/
def CE.SameButAnswers (a e : CE) : Prop := ∃ n rs, e = a.withAnswers n rs

/-- The same, between the beats of a session. -/
def CE.SameAndOpen (a e : CE) : Prop := a.session.closed = false ∧ a.SameButAnswers e

section SameButAnswers

variable {a e f : CE}

theorem CE.SameButAnswers.symm (h : a.SameButAnswers e) : e.SameButAnswers a := by
  obtain ⟨n, rs, rfl⟩ := h
  exact ⟨_, _, rfl⟩

theorem CE.SameButAnswers.trans (h : a.SameButAnswers e) (h' : e.SameButAnswers f) : a.SameButAnswers f := by
  obtain ⟨n, rs, rfl⟩ := h
  obtain ⟨n', rs', rfl⟩ := h'
  exact ⟨_, _, rfl⟩

theorem CE.SameButAnswers.hung (h : a.SameButAnswers e) : a.session.hung = e.session.hung := by
  obtain ⟨n, rs, rfl⟩ := h
  rfl

theorem CE.SameButAnswers.closed (h : a.SameButAnswers e) : a.session.closed = e.session.closed := by
  obtain ⟨n, rs, rfl⟩ := h
  rfl

theorem CE.SameButAnswers.out (h : a.SameButAnswers e) : a.session.out = e.session.out := by
  obtain ⟨n, rs, rfl⟩ := h
  rfl

theorem CE.SameButAnswers.fault (h : a.SameButAnswers e) : a.session.fault = e.session.fault := by
  obtain ⟨n, rs, rfl⟩ := h
  rfl

theorem CE.SameButAnswers.faultValue (h : a.SameButAnswers e) : a.session.faultValue = e.session.faultValue := by
  obtain ⟨n, rs, rfl⟩ := h
  rfl

theorem CE.SameButAnswers.hold (h : a.SameButAnswers e) :
    CE.SameButAnswers { a with session := { a.session with hung := true } }
      { e with session := { e.session with hung := true } } := by
  obtain ⟨n, rs, rfl⟩ := h
  exact ⟨n, rs, rfl⟩

/-- SinkWrite neither reads the count nor the responses (R44). -/
theorem Session.sinkWrite_answers (bs : ByteSeq) (t : Session) (n : Nat) (rs : List Response) :
    ∃ n', Session.sinkWrite bs { t with callCount := n, responses := rs } =
      ((t.sinkWrite bs).1, { (t.sinkWrite bs).2 with callCount := n', responses := rs }) := by
  induction bs generalizing t n with
  | nil => exact ⟨n, rfl⟩
  | cons b bs ih =>
    simp only [Session.sinkWrite]
    cases t.sink.answer with
    | accept => exact ih (t.accept b) (n + 1)
    | fail | silent => exact ⟨n, rfl⟩

theorem CE.sameButAnswers_streamSim : CE.StreamSim CE.SameButAnswers where
  queue_eq := by
    rintro a _ ⟨n, rs, rfl⟩
    rfl
  queue := by
    rintro a _ q ⟨n, rs, rfl⟩
    exact ⟨_, _, rfl⟩
  write := by
    rintro a _ bs ⟨n, rs, rfl⟩
    obtain ⟨n', hw⟩ := a.session.sinkWrite_answers bs n rs
    simp only [CE.withAnswers, hw, true_and]
    exact ⟨n', rs, rfl⟩

theorem CE.sameAndOpen_streamSim : CE.StreamSim CE.SameAndOpen where
  queue_eq h := CE.sameButAnswers_streamSim.queue_eq h.2
  queue q h := ⟨h.1, CE.sameButAnswers_streamSim.queue q h.2⟩
  write {a _} bs h := by
    obtain ⟨hopen, hsame⟩ := h
    obtain ⟨hend, hleft⟩ := CE.sameButAnswers_streamSim.write bs hsame
    obtain ⟨_, _, _, _, _, hclosed, _⟩ := a.session.sinkWrite_spec bs
    exact ⟨hend, hclosed.trans hopen, hleft⟩

/-! ### The bodies of the beats, side by side -/

theorem cStep_alike (b : Byte) (h : a.SameAndOpen e) : (cStep b a).Alike CE.SameAndOpen (cStep b e) := by
  obtain ⟨hopen, n, rs, rfl⟩ := h
  cases hl : edLookup a.encDict (a.pending ++ [b]) with
  | some c =>
    rw [cStep_match hl, cStep_match (e := a.withAnswers n rs) hl]
    exact .ok () ⟨hopen, n, rs, rfl⟩
  | none =>
    cases hm : codeInc a.maxCode with
    | none =>
      have htop := codeInc_eq_none hm
      rw [cStep_exhausted hl htop, cStep_exhausted (e := a.withAnswers n rs) hl htop]
      exact .raise _ _ ⟨hopen, n, rs, rfl⟩
    | some m =>
      rw [cStep_mint hl hm, cStep_mint (e := a.withAnswers n rs) hl hm, cEmit_eq, cEmit_eq]
      have hminted : CE.SameAndOpen ((a.extend b).mint m)
          (((a.withAnswers n rs).extend b).mint m) :=
        ⟨hopen, n, rs, rfl⟩
      refine (CE.sameAndOpen_streamSim.appendTransaction _ _ b hminted).andThen ?_
      rintro _ e1 _ ⟨hopen1, n1, rs1, rfl⟩
      exact .ok () ⟨hopen1, n1, rs1, rfl⟩

theorem cTail_alike (h : a.SameButAnswers e) : (cTail a).Alike CE.SameButAnswers (cTail e) := by
  have happend := CE.sameButAnswers_streamSim.bskAppend (edCodeOf a.encDict a.pending).toNat a.tailWidth h
  obtain ⟨n, rs, rfl⟩ := h
  by_cases hp : a.pending = []
  · have hp' : (a.withAnswers n rs).pending = [] := hp
    rw [cTail, cTail, if_pos hp, if_pos hp']
    exact .ok () ⟨n, rs, rfl⟩
  · have hp' : (a.withAnswers n rs).pending ≠ [] := hp
    rw [cTail, cTail, if_neg hp, if_neg hp']
    exact happend

theorem cFinalizeBody_alike (h : a.SameButAnswers e) : (cFinalizeBody a).Alike CE.SameButAnswers (cFinalizeBody e) := by
  refine (cTail_alike h).andThen fun _ a1 e1 h1 => ?_
  refine (CE.sameButAnswers_streamSim.bskDrain h1).andThen ?_
  rintro _ a2 _ ⟨n, rs, rfl⟩
  exact .ok () ⟨_, _, rfl⟩

end SameButAnswers

/-! ### Engines alike in what is specified, a fault or not (R179(e)) -/

/-- The specified registers agree, and all that `R` says while no fault is latched. -/
structure CE.Tracks (R : CE → CE → Prop) (a e : CE) : Prop where
  hung : a.session.hung = e.session.hung
  out : a.session.out = e.session.out
  fault : a.session.fault = e.session.fault
  faultValue : a.session.faultValue = e.session.faultValue
  unfaulted : a.session.fault = .noFault → R a e

theorem CE.SameButAnswers.tracks {R : CE → CE → Prop} {a e : CE} (h : a.SameButAnswers e) (hR : R a e) : a.Tracks R e :=
  ⟨h.hung, h.out, h.fault, h.faultValue, fun _ => hR⟩

section Tracks

variable {a a' e e' : CE}

/-- What leaves all but the count and the responses can happen on the left alone. -/
theorem CE.Tracks.answer_left (h : a.Tracks CE.SameAndOpen e) (ha : a.SameButAnswers a') :
    a'.Tracks CE.SameAndOpen e where
  hung := ha.hung.symm.trans h.hung
  out := ha.out.symm.trans h.out
  fault := ha.fault.symm.trans h.fault
  faultValue := ha.faultValue.symm.trans h.faultValue
  unfaulted hf := by
    obtain ⟨hopen, hsame⟩ := h.unfaulted (ha.fault.trans hf)
    exact ⟨ha.closed.symm.trans hopen, ha.symm.trans hsame⟩

/-- And on the right alone. -/
theorem CE.Tracks.answer_right (h : a.Tracks CE.SameAndOpen e) (he : e.SameButAnswers e') :
    a.Tracks CE.SameAndOpen e' where
  hung := h.hung.trans he.hung
  out := h.out.trans he.out
  fault := h.fault.trans he.fault
  faultValue := h.faultValue.trans he.faultValue
  unfaulted hf := by
    obtain ⟨hopen, hsame⟩ := h.unfaulted hf
    exact ⟨hopen, hsame.trans he⟩

/-- ENDCALL on an engine that is not closed (R133, R180). -/
theorem CE.beat_endcall (hh : e.session.hung = false) (hc : e.session.fault = .noFault → e.session.closed = false) :
    ∃ e', e.beat true cEndcallBody = .next e' ∧ e.SameButAnswers e' := by
  by_cases hf : e.session.fault = .noFault
  · exact ⟨_, CE.beat_admitted hh hf (hc hf), _, _, rfl⟩
  · exact ⟨_, CE.beat_faulted hh hf, _, _, rfl⟩

/-- A beat whose body ends alike on both sides keeps the engines alike in what is specified. -/
theorem CE.Tracks.beat {Q : CE → CE → Prop} {answered : Bool} {body : CE → Res CE Unit} (h : a.Tracks CE.SameAndOpen e)
    (hb : CEBody answered body) (hbody : a.SameAndOpen e → (body a).Alike Q (body e))
    (hsame : ∀ {x y}, Q x y → x.SameButAnswers y)
    (hhold : ∀ {x y : CE}, Q x y →
      Q { x with session := { x.session with hung := true } } { y with session := { y.session with hung := true } })
    (hnext : a.beat answered body = .next a') : ∃ e', e.beat answered body = .next e' ∧ a'.Tracks Q e' := by
  obtain ⟨hhung, ⟨hf, rfl⟩ | ⟨hf, hc, _⟩ | ⟨hf, hc, hend⟩⟩ := CE.beat_next hnext
  · refine ⟨_, CE.beat_faulted (h.hung ▸ hhung) (h.fault ▸ hf), ?_⟩
    exact ⟨by simpa using h.hung, by simpa using h.out, by simpa using h.fault, by simpa using h.faultValue,
      fun h0 => absurd (by simpa using h0) hf⟩
  · simp [(h.unfaulted hf).1] at hc
  · have hopen := h.unfaulted hf
    have halike := hbody hopen
    rw [CE.beat_admitted (h.hung ▸ hhung) (h.fault ▸ hf) (hopen.2.closed ▸ hc)]
    generalize body e = y at halike ⊢
    obtain hok | ⟨c, v, a1, hraise, rfl⟩ | ⟨a1, hhang, rfl⟩ := hend
    · rw [hok] at halike
      cases halike with
      | ok _ hQ => exact ⟨_, rfl, (hsame hQ).tracks hQ⟩
    · rw [hraise] at halike
      cases halike with
      | raise _ _ hQ =>
        have hleft := hsame hQ
        refine ⟨_, rfl, by simpa using hleft.hung, by simpa using hleft.out, by simp, by simp, fun h0 => ?_⟩
        exact absurd (by simpa using h0) (hb.raise_ne_noFault hraise)
    · rw [hhang] at halike
      cases halike with
      | hang hQ => exact ⟨_, rfl, (hsame (hhold hQ)).tracks (hhold hQ)⟩

end Tracks

/-! ### Runs of beats -/

section Runs

variable {s s' t : State}

theorem execAll_cons_next {i : Instr} {is : List Instr} :
    execAll (i :: is) s = .next t ↔ ∃ m, exec i s = .next m ∧ execAll is m = .next t := by
  rw [execAll]
  cases exec i s <;> simp

theorem execAll_append_next {is js : List Instr} :
    execAll (is ++ js) s = .next t ↔ ∃ m, execAll is s = .next m ∧ execAll js m = .next t := by
  induction is generalizing s with
  | nil => simp [execAll]
  | cons i is ih =>
    simp only [List.cons_append, execAll_cons_next, ih]
    tauto

theorem execAll_singleton {i : Instr} : execAll [i] s = exec i s := by
  rw [execAll]
  cases exec i s <;> rfl

theorem execAll_cData_tracks {bs : ByteSeq} (h : s.ce.Tracks CE.SameAndOpen s'.ce)
    (hrun : execAll (bs.map .cData) s = .next t) :
    ∃ t', execAll (bs.map .cData) s' = .next t' ∧ t.ce.Tracks CE.SameAndOpen t'.ce := by
  induction bs generalizing s s' with
  | nil =>
    obtain rfl : s = t := by simpa [execAll] using hrun
    exact ⟨s', rfl, h⟩
  | cons b bs ih =>
    obtain ⟨m, hm, hrest⟩ := execAll_cons_next.mp hrun
    obtain ⟨a, ha, rfl⟩ := onCE_next.mp hm
    obtain ⟨e, he, htracks⟩ := h.beat (.data b) (cStep_alike b) And.right
      (fun hopen => ⟨hopen.1, hopen.2.hold⟩) ha
    obtain ⟨t', ht', h'⟩ := ih (s' := { s' with ce := e }) htracks hrest
    exact ⟨t', execAll_cons_next.mpr ⟨_, onCE_next.mpr ⟨e, he, rfl⟩, ht'⟩, h'⟩

/-- An ENDCALL on the left alone. -/
theorem exec_cEndcall_tracks_left (h : s.ce.Tracks CE.SameAndOpen s'.ce) (hnext : exec .cEndcall s = .next t) :
    t.ce.Tracks CE.SameAndOpen s'.ce := by
  obtain ⟨a, ha, rfl⟩ := onCE_next.mp hnext
  obtain ⟨hhung, _⟩ := CE.beat_next ha
  obtain ⟨a', ha', hsame⟩ := CE.beat_endcall hhung fun hf => (h.unfaulted hf).1
  obtain rfl : a' = a := by simpa [ha'] using ha
  exact h.answer_left hsame

/-- An ENDCALL on the right alone. -/
theorem exec_cEndcall_tracks_right (h : s.ce.Tracks CE.SameAndOpen s'.ce) (hhung : s.ce.session.hung = false) :
    ∃ t', exec .cEndcall s' = .next t' ∧ s.ce.Tracks CE.SameAndOpen t'.ce := by
  obtain ⟨e, he, hsame⟩ := CE.beat_endcall (e := s'.ce) (h.hung ▸ hhung) fun hf => by
    obtain ⟨hopen, hboth⟩ := h.unfaulted (h.fault.trans hf)
    exact hboth.closed.symm.trans hopen
  exact ⟨_, onCE_next.mpr ⟨e, he, rfl⟩, h.answer_right hsame⟩

/-- `write` calls on the left, the DATA beats of all of them on the right. -/
theorem execAll_writesBeats_tracks {chunks : List ByteSeq} (h : s.ce.Tracks CE.SameAndOpen s'.ce)
    (hrun : execAll (writesBeats chunks) s = .next t) :
    ∃ t', execAll (chunks.flatten.map .cData) s' = .next t' ∧ t.ce.Tracks CE.SameAndOpen t'.ce := by
  induction chunks generalizing s s' with
  | nil =>
    obtain rfl : s = t := by simpa [writesBeats, execAll] using hrun
    exact ⟨s', rfl, h⟩
  | cons bs chunks ih =>
    obtain ⟨m, hwrite, hrest⟩ := execAll_append_next.mp hrun
    obtain ⟨m1, hdata, hendcall⟩ := execAll_append_next.mp hwrite
    obtain ⟨m1', hdata', h1⟩ := execAll_cData_tracks h hdata
    have h2 := exec_cEndcall_tracks_left h1 (execAll_singleton ▸ hendcall)
    obtain ⟨t', ht', h'⟩ := ih h2 hrest
    rw [List.flatten_cons, List.map_append]
    exact ⟨t', execAll_append_next.mpr ⟨m1', hdata', ht'⟩, h'⟩

end Runs

/-- Settles O55: both runs give the same bytes in the same order, and only one of them is interrupted by ENDCALLs. -/
theorem writePartitionIsUnobservable : Obligations.WritePartitionIsUnobservable := by
  intro chunks s t hopen hrun
  obtain ⟨m, hwrites, hfinal⟩ := execAll_append_next.mp hrun
  have hstart : s.ce.SameAndOpen s.ce := ⟨hopen.2, _, _, rfl⟩
  obtain ⟨m1, hdata, h1⟩ := execAll_writesBeats_tracks (hstart.2.tracks hstart) hwrites
  rw [execAll_singleton] at hfinal
  obtain ⟨a, ha, rfl⟩ := onCE_next.mp hfinal
  obtain ⟨m2, hendcall, h2⟩ := exec_cEndcall_tracks_right h1 (CE.beat_next ha).1
  obtain ⟨e, he, h3⟩ := h2.beat .finalize (fun h => cFinalizeBody_alike h.2) id CE.SameButAnswers.hold ha
  have hwhole : execAll (writeBeats chunks.flatten ++ [.cFinalize]) s = .next { m2 with ce := e } := by
    rw [writeBeats, execAll_append_next]
    refine ⟨m2, execAll_append_next.mpr ⟨m1, hdata, ?_⟩, ?_⟩
    · rw [execAll_singleton, hendcall]
    · rw [execAll_singleton]
      exact onCE_next.mpr ⟨e, he, rfl⟩
  refine ⟨_, hwhole, h3.out.symm, h3.fault.symm, h3.faultValue.symm, fun hf => ?_⟩
  obtain ⟨n, rs, rfl⟩ := h3.unfaulted hf
  exact ⟨rfl, rfl, rfl⟩

end Sys2Proof.Machine
end

section
/-! What the compressed stream is (45_compressor.md R140): each byte CE takes in is one step of the greedy parse, with the
phrases so far as its dictionary and their transactions as the bits emitted. -/

namespace Sys2Proof.Machine

open Sys2Proof

/-! ### The parse and the fields of its phrases (R140) -/

section Parse

variable {ps qs rs : List ByteSeq} {p : ByteSeq}

theorem parseStep_known {b : Byte} (h : p ++ [b] ∈ ps) : parseStep (ps, p) b = (ps, p ++ [b]) := if_pos h

theorem parseStep_new {b : Byte} (h : p ++ [b] ∉ ps) : parseStep (ps, p) b = (ps ++ [p ++ [b]], []) := if_neg h

/-- The parse takes no phrase back. -/
theorem length_le_parse (bs : ByteSeq) (a : List ByteSeq × ByteSeq) :
    a.1.length ≤ (bs.foldl parseStep a).1.length := by
  induction bs generalizing a with
  | nil => exact le_rfl
  | cons b bs ih =>
    refine le_trans ?_ (ih (parseStep a b))
    by_cases h : a.2 ++ [b] ∈ a.1
    · rw [parseStep_known h]
    · rw [parseStep_new h]
      simp

/-- A later phrase changes no code. -/
theorem phraseCode_append (h : p = [] ∨ p ∈ ps) : phraseCode (ps ++ rs) p = phraseCode ps p := by
  unfold phraseCode
  split
  · rfl
  · rw [List.idxOf_append_of_mem (h.resolve_left ‹_›)]

theorem transactionFields_append (i : Nat) :
    transactionFields ps i (qs ++ rs) = transactionFields ps i qs ++ transactionFields ps (i + qs.length) rs := by
  induction qs generalizing i with
  | nil => rfl
  | cons q qs ih =>
    rw [List.cons_append, transactionFields, transactionFields, ih, List.append_assoc _ (transactionFields _ _ _),
      List.length_cons, Nat.add_right_comm, Nat.add_assoc]

theorem transactionFields_congr (h : ∀ q ∈ qs, phraseCode rs q.dropLast = phraseCode ps q.dropLast) (i : Nat) :
    transactionFields rs i qs = transactionFields ps i qs := by
  induction qs generalizing i with
  | nil => rfl
  | cons q qs ih =>
    obtain ⟨hq, hqs⟩ := List.forall_mem_cons.mp h
    rw [transactionFields, transactionFields, hq, ih hqs]

/-- One phrase more is one transaction more. -/
theorem transactionFields_concat {b : Byte} (hclosed : ∀ q ∈ ps, q.dropLast = [] ∨ q.dropLast ∈ ps)
    (hp : p = [] ∨ p ∈ ps) :
    transactionFields (ps ++ [p ++ [b]]) 0 (ps ++ [p ++ [b]]) = transactionFields ps 0 ps ++
      (beBits (phraseCode ps p) (minBits (BitVec.ofNat 16 ps.length)) ++ beBits b.toNat Config.litW) := by
  have hold : transactionFields (ps ++ [p ++ [b]]) 0 ps = transactionFields ps 0 ps :=
    transactionFields_congr (fun q hq => phraseCode_append (hclosed q hq)) 0
  rw [transactionFields_append, hold, transactionFields, transactionFields, List.dropLast_concat, phraseCode_append hp]
  simp

theorem streamFields_eq (x : ByteSeq) :
    streamFields x = transactionFields (parsePhrases x).1 0 (parsePhrases x).1 ++
      (if (parsePhrases x).2 = [] then []
       else beBits (phraseCode (parsePhrases x).1 (parsePhrases x).2)
        (minBits (BitVec.ofNat 16 (parsePhrases x).1.length))) := rfl

end Parse

/-! ### CE holds the parse of what it has taken in -/

/-- CE has parsed its input into the phrases `a.1` and the rest `a.2`, and its byte sink accepts (R130, R140). -/
structure CE.ParsedAs (a : List ByteSeq × ByteSeq) (e : CE) : Prop where
  isOpen : e.session.isOpen
  regular : e.regular
  sink : e.session.sink = Sink.accepting
  maxCode : e.maxCode.toNat = a.1.length
  pending : e.pending = a.2
  codes : ∀ p, edLookup e.encDict p = if p ∈ a.1 then some (BitVec.ofNat 16 (a.1.idxOf p + 1)) else none
  stream : unpack8 e.session.out ++ e.bitSink = transactionFields a.1 0 a.1

theorem CE.fresh_parsedAs (n : Nat) : (CE.fresh Sink.accepting n).ParsedAs ([], []) where
  isOpen := ⟨⟨rfl, rfl⟩, rfl⟩
  regular := (CE.fresh_inv _ n).2 ⟨rfl, rfl⟩
  sink := rfl
  maxCode := rfl
  pending := rfl
  codes _ := rfl
  stream := rfl

section ParsedAs

variable {a : List ByteSeq × ByteSeq} {e : CE} (h : e.ParsedAs a)
include h

theorem CE.ParsedAs.mem_of_lookup {p : ByteSeq} {c : Code} (hc : edLookup e.encDict p = some c) : p ∈ a.1 := by
  rw [h.codes] at hc
  by_contra hp
  rw [if_neg hp] at hc
  cases hc

theorem CE.ParsedAs.maxCode_eq : e.maxCode = BitVec.ofNat 16 a.1.length := by
  rw [← h.maxCode, BitVec.ofNat_toNat, BitVec.setWidth_eq]

/-- The rest of the input is empty or a phrase (R18(a)). -/
theorem CE.ParsedAs.rest_known : a.2 = [] ∨ a.2 ∈ a.1 := by
  have hpend := h.regular.1
  rw [CE.pendingKnown, h.pending] at hpend
  exact hpend.imp_right fun ⟨_, hc⟩ => h.mem_of_lookup hc

/-- A phrase without its last byte is empty or a phrase (R18(c)). -/
theorem CE.ParsedAs.dropLast_known : ∀ q ∈ a.1, q.dropLast = [] ∨ q.dropLast ∈ a.1 := by
  intro q hq
  obtain ⟨_, _, hprefix, _⟩ := h.regular
  by_cases hlong : 1 < q.length
  · obtain ⟨c, hc, _⟩ := (hprefix q _ ((h.codes q).trans (if_pos hq))).2 hlong
    exact .inr (h.mem_of_lookup hc)
  · refine .inl (List.length_eq_zero_iff.mp ?_)
    rw [List.length_dropLast]
    omega

/-- The dictionary's codes are the places of the phrases. -/
theorem CE.ParsedAs.toNat_prefixCode {p : ByteSeq} (hp : p = [] ∨ p ∈ a.1) :
    (prefixCode e.encDict p).toNat = phraseCode a.1 p := by
  unfold prefixCode phraseCode
  split
  · rfl
  · have hmem := hp.resolve_left ‹_›
    have hidx := List.idxOf_lt_length_of_mem hmem
    have htop : e.maxCode.toNat < 65536 := e.maxCode.isLt
    rw [h.maxCode] at htop
    rw [edCodeOf, h.codes, if_pos hmem, Option.getD_some, BitVec.toNat_ofNat, Nat.mod_eq_of_lt (by omega)]

/-- A mint gives the new phrase its place as code, and the other phrases keep theirs. -/
theorem CE.ParsedAs.transact_codes {b : Byte} (hnew : e.pending ++ [b] ∉ a.1) (q : ByteSeq) :
    edLookup (e.transact b).encDict q = if q ∈ a.1 ++ [e.pending ++ [b]] then
      some (BitVec.ofNat 16 ((a.1 ++ [e.pending ++ [b]]).idxOf q + 1)) else none := by
  rw [CE.transact_lookup, h.codes, h.maxCode_eq]
  by_cases hq : q = e.pending ++ [b]
  · subst hq
    rw [if_pos rfl, if_pos (by simp), List.idxOf_append_of_notMem hnew, List.idxOf_cons_self, BitVec.ofNat_add]
    rfl
  · rw [if_neg hq]
    by_cases hmem : q ∈ a.1
    · rw [if_pos hmem, if_pos (List.mem_append_left _ hmem), List.idxOf_append_of_mem hmem]
    · rw [if_neg hmem, if_neg (by simp [hmem, hq])]

/-- A byte of the input is a step of the parse. -/
theorem CE.ParsedAs.cStep {b : Byte} (hlen : (parseStep a b).1.length ≤ 65535) :
    ∃ e', cStep b e = .ok () e' ∧ e'.ParsedAs (parseStep a b) := by
  obtain ⟨ps, p⟩ := a
  obtain rfl : e.pending = p := h.pending
  have hcode := h.codes (e.pending ++ [b])
  by_cases hmem : e.pending ++ [b] ∈ ps
  · have hstep := cStep_match (hcode.trans (if_pos hmem))
    rw [parseStep_known hmem]
    exact ⟨_, hstep, h.isOpen, cStep_regular h.isOpen.2 h.regular hstep, h.sink, h.maxCode, rfl, h.codes, h.stream⟩
  · rw [parseStep_new hmem] at hlen ⊢
    have hmax : e.maxCode.toNat < 65535 := by
      rw [h.maxCode]
      simpa using hlen
    have hstep := cStep_new h.regular hmax (hcode.trans (if_neg hmem)) (by simp [h.sink])
    refine ⟨_, hstep, h.isOpen, cStep_regular h.isOpen.2 h.regular hstep, ?_, ?_, rfl, h.transact_codes hmem, ?_⟩
    · simp [h.sink]
    · rw [CE.transact_maxCode, toNat_add_one_of_lt hmax, h.maxCode]
      simp
    · rw [CE.transact_session, CE.transact_bitSink, CE.emit_stream, h.stream, CE.transactionField,
        transactionFields_concat h.dropLast_known h.rest_known, h.toNat_prefixCode h.rest_known, h.maxCode_eq]

/-- The tail code of the pending match is the rest's (R134, R140). -/
theorem CE.ParsedAs.tail_eq {tail : Bits} (htail : (e.pending = [] ∧ tail = []) ∨
    (e.pending ≠ [] ∧ ∃ c, edLookup e.encDict e.pending = some c ∧ 1 ≤ c.toNat ∧
      tail = beBits c.toNat (minBits e.maxCode))) :
    tail = if a.2 = [] then [] else beBits (phraseCode a.1 a.2) (minBits (BitVec.ofNat 16 a.1.length)) := by
  rw [← h.pending, ← h.maxCode_eq]
  rcases htail with ⟨hp, rfl⟩ | ⟨hp, c, hc, _, rfl⟩
  · rw [if_pos hp]
  · have hnode : nodeSeq e.encDict c e.pending := .inr ⟨hp, hc⟩
    rw [if_neg hp, ← h.toNat_prefixCode (.inr (h.mem_of_lookup hc)), hnode.prefixCode_eq]

end ParsedAs

/-! ### A run of `encode` (R73, R140) -/

section Encode

variable {a : List ByteSeq × ByteSeq} {s : State}

/-- The DATA beats take in the whole input. -/
theorem execAll_cData_parsedAs {bs : ByteSeq} (h : s.ce.ParsedAs a) (hlen : (bs.foldl parseStep a).1.length ≤ 65535) :
    ∃ t, execAll (bs.map .cData) s = .next t ∧ t.ce.ParsedAs (bs.foldl parseStep a) ∧ t.de = s.de := by
  induction bs generalizing a s with
  | nil => exact ⟨s, rfl, h, rfl⟩
  | cons b bs ih =>
    obtain ⟨e, hstep, h1⟩ := h.cStep ((length_le_parse bs _).trans hlen)
    obtain ⟨t, hrest, h2, hde⟩ := ih (s := { s with ce := e }) h1 hlen
    exact ⟨t, execAll_cons_next.mpr ⟨_, onCE_beat_of_ok h.isOpen hstep, hrest⟩, h2, hde⟩

/-- ENDCALL leaves what has been taken in. -/
theorem exec_cEndcall_parsedAs (h : s.ce.ParsedAs a) :
    ∃ t, exec .cEndcall s = .next t ∧ t.ce.ParsedAs a ∧ t.de = s.de :=
  ⟨_, endcallAnswersAndFlushesNothing s h.isOpen,
    ⟨h.isOpen, h.regular, h.sink, h.maxCode, h.pending, h.codes, h.stream⟩, rfl⟩

/-- FINALIZE completes the stream (R134). -/
theorem exec_cFinalize_parsedAs {x : ByteSeq} (h : s.ce.ParsedAs (parsePhrases x)) :
    ∃ t, exec .cFinalize s = .next t ∧ t.ce.session.final ∧ t.ce.session.out = streamOf x ∧
      t.ce.maxCode = s.ce.maxCode ∧ t.ce.pending = s.ce.pending ∧ t.ce.encDict = s.ce.encDict ∧ t.de = s.de := by
  have haccepts : s.ce.session.sink.acceptsNext 16 = true := by simp [h.sink]
  obtain ⟨t, hexec, ⟨tail, htail, hout⟩, _, hclosed, _, _, hpending, hdict, hmax, hfault, _, _, hde, _⟩ :=
    finalizeWritesTailAndPad s h.isOpen h.regular haccepts
  refine ⟨t, hexec, ⟨hclosed, hfault⟩, ?_, hmax, hpending, hdict, hde⟩
  have hfields : unpack8 s.ce.session.out ++ s.ce.bitSink ++ tail = streamFields x := by
    rw [h.stream, h.tail_eq htail, streamFields_eq]
  have hpad : (8 - (s.ce.bitSink ++ tail).length % 8) % 8 = padLength (streamFields x).length := by
    rw [← hfields, padLength, List.append_assoc, List.length_append (as := unpack8 _), length_unpack8,
      Nat.mul_add_mod]
  rw [← pack8_unpack8 t.ce.session.out, hout, hfields, hpad, streamOf]

end Encode

/-- Settles O56: the DATA beats parse the input, and FINALIZE adds the tail code and the pad. -/
theorem encoderWritesThePhraseParse : Obligations.EncoderWritesThePhraseParse := by
  intro x s hsink hlen
  have hfresh : (resetEngine .ce s).ce.ParsedAs ([], []) := by
    show (CE.fresh s.ce.session.sink s.ce.session.freeIdx).ParsedAs ([], [])
    rw [hsink]
    exact CE.fresh_parsedAs _
  obtain ⟨m1, hdata, h1, hde1⟩ := execAll_cData_parsedAs hfresh hlen
  obtain ⟨m2, hendcall, h2, hde2⟩ := exec_cEndcall_parsedAs h1
  obtain ⟨t, hfinal, hend, hout, hmax, hpending, hdict, hde⟩ := exec_cFinalize_parsedAs (x := x) h2
  have hrun : encodeRun x s = .next t := by
    rw [encodeRun, writeBeats, execAll_append_next]
    refine ⟨m2, execAll_append_next.mpr ⟨m1, hdata, ?_⟩, ?_⟩
    · rw [execAll_singleton, hendcall]
    · rw [execAll_singleton, hfinal]
  refine ⟨t, hrun, hend, hout, hmax ▸ h2.maxCode, hpending.trans h2.pending, fun p hp => ?_, ?_⟩
  · rw [hdict]
    exact (h2.codes p).trans (if_pos hp)
  · exact hde.trans (hde2.trans hde1)

end Sys2Proof.Machine
end

section
/-! Two runs of DE's state machine side by side (46_decompressor.md R151 to R153): what a relation between engines must keep
for their steps to end alike; a field is parsed alike whatever stands behind it, so that the sub-chunk size of `read` cannot
be observed (R158). -/

namespace Sys2Proof.Machine

open Sys2Proof

/-! ### Steps that end alike -/

theorem DE.awaitedWidth_code {e : DE} (hd : e.dstate = .expectingCode) : e.awaitedWidth = minBits e.maxCode := by
  simp only [DE.awaitedWidth, hd, DE.codeWidth]

theorem DE.awaitedWidth_byte {e : DE} (hd : e.dstate = .expectingByte) : e.awaitedWidth = 8 := by
  simp only [DE.awaitedWidth, hd]

/-- A relation between two engines that D.CODE and D.BYTE keep once the field's bits are consumed, both doing the same. -/
structure DE.ParseSim (R : DE → DE → Prop) : Prop where
  reads : ∀ {a e}, R a e →
    e.decDict = a.decDict ∧ e.maxCode = a.maxCode ∧ e.lastCode = a.lastCode ∧ e.dstate = a.dstate
  record : ∀ {a e} c, R a e → R { a with lastCode := c } { e with lastCode := c }
  await : ∀ {a e} d, R a e → R { a with dstate := d } { e with dstate := d }
  mint : ∀ {a e} m b, R a e → R (a.mint m b) (e.mint m b)
  write : ∀ {a e} bs, R a e → (a.session.sinkWrite bs).1 = (e.session.sinkWrite bs).1 ∧
    R { a with session := (a.session.sinkWrite bs).2 } { e with session := (e.session.sinkWrite bs).2 }

section ParseSim

variable {R : DE → DE → Prop} (hR : DE.ParseSim R) {a e : DE}
include hR

theorem DE.ParseSim.sinkWrite (bs : ByteSeq) (h : R a e) : (a.sinkWrite bs).Alike R (e.sinkWrite bs) := by
  obtain ⟨hend, hleft⟩ := hR.write bs h
  unfold DE.sinkWrite
  rcases ha : a.session.sinkWrite bs with ⟨x, t⟩
  rcases he : e.session.sinkWrite bs with ⟨y, u⟩
  rw [ha, he] at hend hleft
  obtain rfl : x = y := hend
  cases x with
  | done => exact .ok () hleft
  | failed => exact .raise .ioFailure 0 hleft
  | silent => exact .hang hleft

theorem DE.ParseSim.dCodeValue (v : Nat) (h : R a e) : (dCodeValue v a).Alike R (dCodeValue v e) := by
  obtain ⟨hdict, _⟩ := hR.reads h
  unfold Machine.dCodeValue
  rw [hdict]
  split
  · exact .raise _ _ h
  · exact (hR.sinkWrite _ h).andThen fun _ _ _ h1 => .ok _ (hR.await .expectingByte (hR.record (BitVec.ofNat 16 v) h1))

theorem DE.ParseSim.dByteValue (b : Byte) (h : R a e) : (dByteValue b a).Alike R (dByteValue b e) := by
  obtain ⟨_, hmax, _⟩ := hR.reads h
  unfold Machine.dByteValue
  rw [hmax]
  split
  · exact .raise _ _ h
  · exact (hR.sinkWrite _ (hR.mint _ b h)).andThen fun _ _ _ h1 => .ok _ (hR.await _ h1)

/-- Where both queues begin with the same awaited field, the step of one is the step of the other. -/
theorem DE.ParseSim.dStep (ha : a.awaitedWidth ≤ a.bitSource.length) (he : a.awaitedWidth ≤ e.bitSource.length)
    (hfield : e.bitSource.take a.awaitedWidth = a.bitSource.take a.awaitedWidth)
    (hrest : R { a with bitSource := a.bitSource.drop a.awaitedWidth }
      { e with bitSource := e.bitSource.drop a.awaitedWidth }) :
    (dStep a).Alike R (dStep e) := by
  obtain ⟨_, hmax, _, hd⟩ := hR.reads hrest
  dsimp only at hmax hd
  unfold Machine.dStep
  rw [hd]
  cases hda : a.dstate with
  | expectingCode =>
    have hwidth : a.awaitedWidth = a.codeWidth := DE.awaitedWidth_code hda
    have hwidth' : e.codeWidth = a.codeWidth := by rw [DE.codeWidth, hmax, DE.codeWidth]
    rw [hwidth] at ha he hfield hrest
    show (dCode a).Alike R (dCode e)
    rw [dCode_take a ha, dCode_take e (hwidth'.symm ▸ he), hwidth', hfield]
    exact hR.dCodeValue _ hrest
  | expectingByte =>
    rw [DE.awaitedWidth_byte hda] at ha he hfield hrest
    show (dByte a).Alike R (dByte e)
    rw [dByte_take a ha, dByte_take e he, hfield]
    exact hR.dByteValue _ hrest

end ParseSim

/-! ### Bits that arrive behind the awaited field (R100, R104) -/

/-- `e` is `a` with the bits `q` more behind its queue. -/
def DE.Pushed (q : Bits) (a e : DE) : Prop := e = bsrPushBits q a

theorem DE.pushed_parseSim (q : Bits) : DE.ParseSim (DE.Pushed q) where
  reads := by
    rintro a _ rfl
    exact ⟨rfl, rfl, rfl, rfl⟩
  record := by
    rintro a _ c rfl
    rfl
  await := by
    rintro a _ d rfl
    rfl
  mint := by
    rintro a _ m b rfl
    rfl
  write := by
    rintro a _ bs rfl
    exact ⟨rfl, rfl⟩

/-- A whole field is parsed alike whatever stands behind it. -/
theorem dStep_pushed (q : Bits) {e : DE} (h : e.awaitedWidth ≤ e.bitSource.length) :
    (dStep e).Alike (DE.Pushed q) (dStep (bsrPushBits q e)) := by
  refine (DE.pushed_parseSim q).dStep h ?_ ?_ ?_
  · rw [bsrPushBits_bitSource, List.length_append]
    exact Nat.le_add_right_of_le h
  · rw [bsrPushBits_bitSource, List.take_append_of_le_length h]
  · rw [bsrPushBits_bitSource, List.drop_append_of_le_length h]
    rfl

/-! ### Runs that agree in all that is specified (R179(e)) -/

section Agree

variable {r r' r'' : Res DE Unit}

/-- The three ways in which two runs can agree. -/
theorem Res.agree_cases (h : r.agree r') :
    (∃ e, r = .ok () e ∧ r' = .ok () e) ∨
    (∃ c v e e', r = .raise c v e ∧ r' = .raise c v e' ∧ e.session = e'.session) ∨
    ∃ e e', r = .hang e ∧ r' = .hang e' ∧ e.session = e'.session := by
  cases r with
  | ok _ e =>
    cases r' with
    | ok _ e' => exact .inl ⟨e, rfl, congrArg _ (Eq.symm h)⟩
    | _ => exact h.elim
  | raise c v e =>
    cases r' with
    | raise c' v' e' =>
      obtain ⟨rfl, rfl, hs⟩ := h
      exact .inr (.inl ⟨c, v, e, e', rfl, rfl, hs⟩)
    | _ => exact h.elim
  | hang e =>
    cases r' with
    | hang e' => exact .inr (.inr ⟨e, e', rfl, rfl, h⟩)
    | _ => exact h.elim
  | refuse | fault => cases r' <;> exact h.elim

theorem Res.agree_of_completes (h : r.Completes) : r.agree r := by
  cases r with
  | ok | hang => exact rfl
  | raise => exact ⟨rfl, rfl, rfl⟩
  | refuse | fault => exact h

theorem Res.agree_trans (h : r.agree r') (h' : r'.agree r'') : r.agree r'' := by
  rcases Res.agree_cases h with ⟨e, rfl, rfl⟩ | ⟨c, v, e, e1, rfl, rfl, hs⟩ | ⟨e, e1, rfl, rfl, hs⟩
  · exact h'
  · rcases Res.agree_cases h' with ⟨_, he, _⟩ | ⟨_, _, _, e2, he, rfl, hs'⟩ | ⟨_, _, he, _⟩ <;> cases he
    exact ⟨rfl, rfl, hs.trans hs'⟩
  · rcases Res.agree_cases h' with ⟨_, he, _⟩ | ⟨_, _, _, _, he, _⟩ | ⟨_, e2, he, rfl, hs'⟩ <;> cases he
    exact hs.trans hs'

theorem Res.agree_andThen {f g : Unit → DE → Res DE Unit} (h : r.agree r') (hf : ∀ e, (f () e).agree (g () e)) :
    (r.andThen f).agree (r'.andThen g) := by
  rcases Res.agree_cases h with ⟨e, rfl, rfl⟩ | ⟨c, v, e, e', rfl, rfl, hs⟩ | ⟨e, e', rfl, rfl, hs⟩
  · exact hf e
  · exact ⟨rfl, rfl, hs⟩
  · exact hs

end Agree

theorem dStep_completes (e : DE) : (dStep e).Completes := by
  rcases dStep_ends e with ⟨e', he⟩ | he | ⟨c, v, e', he⟩ | ⟨e', he⟩ <;> rw [he] <;> trivial

theorem dDrive_completes (e : DE) : (dDrive e).Completes := by
  rcases dDrive_ends e with ⟨e', he, _⟩ | ⟨c, v, e', he⟩ | ⟨e', he⟩ <;> rw [he] <;> trivial

/-- Induction on D.DRIVE: what holds of a state whenever it holds of the state after its progress step, if it makes one. -/
theorem dDrive_steps_induction {P : DE → Prop} (step : ∀ e, (∀ e', dStep e = .ok .progress e' → P e') → P e) (e : DE) :
    P e := by
  induction e using dDrive_induction with
  | stop e hstop => exact step e fun e' he => absurd he (hstop e')
  | go e e1 h1 ih =>
    refine step e fun e' he => ?_
    cases h1.symm.trans he
    exact ih

/-- The greedy parse: bits that are already there when D.DRIVE runs are parsed as they are after it (R153, R158). -/
theorem dDrive_pushed_agree (q : Bits) (e : DE) :
    (dDrive (bsrPushBits q e)).agree ((dDrive e).andThen fun _ e1 => dDrive (bsrPushBits q e1)) := by
  induction e using dDrive_steps_induction with
  | step e ih =>
    rw [dDrive_eq e]
    by_cases hshort : e.bitSource.length < e.awaitedWidth
    · rw [dStep_stall_of_short hshort]
      exact Res.agree_of_completes (dDrive_completes _)
    · have halike := dStep_pushed q (Nat.not_lt.mp hshort)
      have hends := dStep_completes e
      rw [dDrive_eq (bsrPushBits q e)]
      generalize hstep : dStep e = r at ih halike hends ⊢
      generalize dStep (bsrPushBits q e) = r' at halike ⊢
      cases halike with
      | ok p h =>
        cases h
        cases p with
        | progress => exact ih _ rfl
        | stall => exact absurd (dStep_stall_short hstep) hshort
      | raise _ _ h =>
        cases h
        exact ⟨rfl, rfl, rfl⟩
      | hang h =>
        cases h
        rfl
      | refuse | fault => exact hends.elim

/-! ### Sub-chunks of `read` (R157, R158) -/

theorem readChunks_one_cons (b : Byte) (bs : ByteSeq) (e : DE) :
    readChunks 1 (b :: bs) [] e = (pushDrive [b] e).andThen fun _ e1 => readChunks 1 bs [] e1 := rfl

theorem readChunks_one_append (as bs : ByteSeq) (e : DE) :
    readChunks 1 (as ++ bs) [] e = (readChunks 1 as [] e).andThen fun _ e1 => readChunks 1 bs [] e1 := by
  induction as generalizing e with
  | nil => rfl
  | cons a as ih => simp only [List.cons_append, readChunks_one_cons, Res.andThen_assoc, ih]

theorem readChunks_one_singleton (b : Byte) (e : DE) : readChunks 1 [b] [] e = pushDrive [b] e := by
  rw [readChunks_one_cons]
  cases pushDrive [b] e <;> rfl

/-- One push of a non-empty sequence, then one drive, against a drive after each of its bytes. -/
theorem pushDrive_agree {bs : ByteSeq} (h : bs ≠ []) (e : DE) : (pushDrive bs e).agree (readChunks 1 bs [] e) := by
  induction bs generalizing e with
  | nil => exact absurd rfl h
  | cons b bs ih =>
    by_cases hbs : bs = []
    · rw [hbs, readChunks_one_singleton]
      exact Res.agree_of_completes (dDrive_completes _)
    · have hsplit : bsrPush (b :: bs) e = bsrPushBits (unpack8 bs) (bsrPush [b] e) := by
        simp [bsrPush, bsrPushBits, unpack8]
      rw [readChunks_one_cons, pushDrive, hsplit]
      exact Res.agree_trans (dDrive_pushed_agree _ _)
        (Res.agree_andThen (Res.agree_of_completes (dDrive_completes _)) fun e1 => ih hbs e1)

/-- Sub-chunks of any size, the first of which already holds `held`. -/
theorem readChunks_agree (size : Nat) (bs held : ByteSeq) (e : DE) :
    (readChunks size bs held e).agree (readChunks 1 (held ++ bs) [] e) := by
  induction bs generalizing held e with
  | nil =>
    rw [readChunks, List.append_nil]
    split
    · next hheld =>
      subst hheld
      exact Res.agree_of_completes (r := .ok () e) trivial
    · next hheld => exact pushDrive_agree hheld e
  | cons b bs ih =>
    rw [readChunks, List.append_cons held b bs]
    split
    · rw [readChunks_one_append]
      exact Res.agree_andThen (pushDrive_agree (by simp) e) fun e1 => ih [] e1
    · exact ih _ e

/-- Settles O53: by induction over the input, each drive of a sub-chunk parsing what the drives of its bytes do. -/
theorem subchunkSizeIsUnobservable : Obligations.SubchunkSizeIsUnobservable := fun size bs e _ =>
  readChunks_agree size bs [] e

end Sys2Proof.Machine
end

section
/-! Streaming equivalence of the decoder (46_decompressor.md R160): ENDCALL changes nothing but the count and the responses,
so that a run split into `read` calls and one that is not stay alike in all else. -/

namespace Sys2Proof.Machine

open Sys2Proof

/-! ### Drives that end alike -/

/-- A relation between two engines with the same queue that D.DRIVE keeps. -/
structure DE.DriveSim (R : DE → DE → Prop) : Prop extends DE.ParseSim R where
  queue_eq : ∀ {a e}, R a e → e.bitSource = a.bitSource
  queue : ∀ {a e} q, R a e → R { a with bitSource := q } { e with bitSource := q }

section DriveSim

variable {R : DE → DE → Prop} (hR : DE.DriveSim R) {a e : DE}
include hR

theorem DE.DriveSim.awaitedWidth_eq (h : R a e) : e.awaitedWidth = a.awaitedWidth := by
  obtain ⟨_, hmax, _, hd⟩ := hR.reads h
  simp only [DE.awaitedWidth, DE.codeWidth, hmax, hd]

theorem DE.DriveSim.dStep (h : R a e) : (dStep a).Alike R (dStep e) := by
  have hqueue := hR.queue_eq h
  by_cases hshort : a.bitSource.length < a.awaitedWidth
  · rw [dStep_stall_of_short hshort, dStep_stall_of_short (by rwa [hR.awaitedWidth_eq h, hqueue])]
    exact .ok _ h
  · have hlong := Nat.not_lt.mp hshort
    refine hR.toParseSim.dStep hlong (hqueue ▸ hlong) (by rw [hqueue]) ?_
    rw [hqueue]
    exact hR.queue _ h

theorem DE.DriveSim.dDrive (h : R a e) : (dDrive a).Alike R (dDrive e) := by
  induction a using dDrive_steps_induction generalizing e with
  | step a ih =>
    have halike := hR.dStep h
    rw [dDrive_eq a, dDrive_eq e]
    generalize Machine.dStep a = r at ih halike ⊢
    generalize Machine.dStep e = r' at halike ⊢
    cases halike with
    | ok p h =>
      cases p with
      | progress => exact ih _ rfl h
      | stall => exact .ok _ h
    | raise _ _ h => exact .raise _ _ h
    | hang h => exact .hang h
    | refuse => exact .refuse _
    | fault => exact .fault _

theorem DE.DriveSim.dReceive (bits : Bits) (h : R a e) : (dReceive bits a).Alike R (dReceive bits e) := by
  have hpushed := hR.queue (a.bitSource ++ bits) h
  refine hR.dDrive ?_
  rw [bsrPushBits, bsrPushBits, hR.queue_eq h]
  exact hpushed

end DriveSim

/-! ### Engines alike but for the count and the responses (R155) -/

/-- The engine with another count and other responses. -/
def DE.withAnswers (n : Nat) (rs : List Response) (e : DE) : DE :=
  { e with session := { e.session with callCount := n, responses := rs } }

/-- `e` is `a` but for the count and the responses, all that ENDCALL changes. -/
def DE.SameButAnswers (a e : DE) : Prop := ∃ n rs, e = a.withAnswers n rs

/-- The same, inside a beat of an open session. -/
def DE.SameAndOpen (a e : DE) : Prop := a.session.closed = false ∧ a.SameButAnswers e

/-- The same, between the beats of a session: it is not closed, unless a fault has left that unspecified (R179(e)). What the
model puts for the registers so left is the same in both, log 6. -/
def DE.Tracks (a e : DE) : Prop :=
  (a.session.fault = .noFault → a.session.closed = false) ∧ a.SameButAnswers e

theorem DE.sameAndOpen_driveSim : DE.DriveSim DE.SameAndOpen where
  queue_eq := by
    rintro a _ ⟨_, n, rs, rfl⟩
    rfl
  queue := by
    rintro a _ q ⟨hopen, n, rs, rfl⟩
    exact ⟨hopen, n, rs, rfl⟩
  reads := by
    rintro a _ ⟨_, n, rs, rfl⟩
    exact ⟨rfl, rfl, rfl, rfl⟩
  record := by
    rintro a _ c ⟨hopen, n, rs, rfl⟩
    exact ⟨hopen, n, rs, rfl⟩
  await := by
    rintro a _ d ⟨hopen, n, rs, rfl⟩
    exact ⟨hopen, n, rs, rfl⟩
  mint := by
    rintro a _ m b ⟨hopen, n, rs, rfl⟩
    exact ⟨hopen, n, rs, rfl⟩
  write := by
    rintro a _ bs ⟨hopen, n, rs, rfl⟩
    obtain ⟨n', hw⟩ := a.session.sinkWrite_answers bs n rs
    obtain ⟨_, _, _, _, _, hclosed, _⟩ := a.session.sinkWrite_spec bs
    simp only [DE.withAnswers, hw, true_and]
    exact ⟨hclosed.trans hopen, n', rs, rfl⟩

section SameButAnswers

variable {a a' e : DE}

/-- Bits that reach both engines leave them alike. -/
theorem DE.Tracks.receive {bits : Bits} (h : a.Tracks e) (hnext : a.beat false (dReceive bits) = .next a') :
    ∃ e', e.beat false (dReceive bits) = .next e' ∧ a'.Tracks e' := by
  obtain ⟨hopen, n, rs, rfl⟩ := h
  obtain ⟨hhung, ⟨hf, rfl⟩ | ⟨hf, hc, _⟩ | ⟨hf, hc, hend⟩⟩ := DE.beat_next hnext
  · exact ⟨_, DE.beat_faulted hhung hf, hopen, n, rs, rfl⟩
  · simp [hopen hf] at hc
  · have halike := DE.sameAndOpen_driveSim.dReceive bits (e := a.withAnswers n rs) ⟨hc, n, rs, rfl⟩
    rw [DE.beat_admitted (e := a.withAnswers n rs) hhung hf hc]
    generalize dReceive bits (a.withAnswers n rs) = y at halike ⊢
    obtain hok | ⟨c, v, a1, hraise, rfl⟩ | ⟨a1, hhang, rfl⟩ := hend
    · rw [hok] at halike
      cases halike with
      | ok _ h1 => exact ⟨_, rfl, fun _ => h1.1, h1.2⟩
    · rw [hraise] at halike
      cases halike with
      | raise _ _ h1 =>
        obtain ⟨_, n1, rs1, rfl⟩ := h1
        refine ⟨_, rfl, fun h0 => absurd (by simpa using h0) ((DEBody.receive bits).raise_ne_noFault hraise), ?_⟩
        cases c <;> exact ⟨_, _, rfl⟩
    · rw [hhang] at halike
      cases halike with
      | hang h1 =>
        obtain ⟨hopen1, n1, rs1, rfl⟩ := h1
        exact ⟨_, rfl, fun _ => hopen1, n1, rs1, rfl⟩

/-- ENDCALL on an engine that is not closed (R155, R180). -/
theorem DE.beat_endcall (hh : e.session.hung = false) (hc : e.session.fault = .noFault → e.session.closed = false) :
    ∃ e', e.beat true dEndcallBody = .next e' ∧ e.SameButAnswers e' := by
  by_cases hf : e.session.fault = .noFault
  · exact ⟨_, DE.beat_admitted hh hf (hc hf), _, _, rfl⟩
  · exact ⟨_, DE.beat_faulted hh hf, _, _, rfl⟩

end SameButAnswers

/-! ### Runs of `read` calls (R157, R160) -/

section Reads

variable {s s' t : State}

theorem execAll_dData_tracks {bs : ByteSeq} (h : s.de.Tracks s'.de) (hrun : execAll (bs.map .dData) s = .next t) :
    ∃ t', execAll (bs.map .dData) s' = .next t' ∧ t.de.Tracks t'.de := by
  induction bs generalizing s s' with
  | nil =>
    obtain rfl : s = t := by simpa [execAll] using hrun
    exact ⟨s', rfl, h⟩
  | cons b bs ih =>
    obtain ⟨m, hm, hrest⟩ := execAll_cons_next.mp hrun
    rw [exec_dData] at hm
    obtain ⟨a, ha, rfl⟩ := onDE_next.mp hm
    obtain ⟨e, he, h1⟩ := h.receive ha
    obtain ⟨t', ht', h2⟩ := ih (s' := { s' with de := e }) h1 hrest
    have hm' : exec (.dData b) s' = .next { s' with de := e } := by
      rw [exec_dData]
      exact onDE_next.mpr ⟨e, he, rfl⟩
    exact ⟨t', execAll_cons_next.mpr ⟨_, hm', ht'⟩, h2⟩

/-- An ENDCALL on the left alone, which finds and leaves the engine outside a beat. -/
theorem exec_dEndcall_tracks (h : s.de.Tracks s'.de) (hnext : exec .dEndcall s = .next t) :
    t.de.Tracks s'.de ∧ t.de.session.hung = false := by
  obtain ⟨hopen, n, rs, hs'⟩ := h
  obtain ⟨a, ha, rfl⟩ := onDE_next.mp hnext
  obtain ⟨hhung, _⟩ := DE.beat_next ha
  obtain ⟨a', ha', n', rs', rfl⟩ := DE.beat_endcall hhung hopen
  cases ha'.symm.trans ha
  exact ⟨⟨hopen, n, rs, hs'⟩, hhung⟩

/-- `read` calls on the left, the DATA beats of all of them on the right. -/
theorem execAll_readsBeats_tracks {chunks : List ByteSeq} (h : s.de.Tracks s'.de) (hhung : s.de.session.hung = false)
    (hrun : execAll (readsBeats chunks) s = .next t) :
    ∃ t', execAll (chunks.flatten.map .dData) s' = .next t' ∧ t.de.Tracks t'.de ∧ t.de.session.hung = false := by
  induction chunks generalizing s s' with
  | nil =>
    obtain rfl : s = t := by simpa [readsBeats, execAll] using hrun
    exact ⟨s', rfl, h, hhung⟩
  | cons bs chunks ih =>
    obtain ⟨m, hread, hrest⟩ := execAll_append_next.mp hrun
    obtain ⟨m1, hdata, hendcall⟩ := execAll_append_next.mp hread
    obtain ⟨m1', hdata', h1⟩ := execAll_dData_tracks h hdata
    obtain ⟨h2, hhung2⟩ := exec_dEndcall_tracks h1 (execAll_singleton ▸ hendcall)
    obtain ⟨t', ht', h3⟩ := ih h2 hhung2 hrest
    rw [List.flatten_cons, List.map_append]
    exact ⟨t', execAll_append_next.mpr ⟨m1', hdata', ht'⟩, h3⟩

end Reads

/-- Settles O54: both runs give the same bytes in the same order, and only one of them is interrupted by ENDCALLs. -/
theorem readPartitionIsUnobservable : Obligations.ReadPartitionIsUnobservable := by
  intro chunks s t hopen hrun
  obtain ⟨⟨_, hhung⟩, hclosed⟩ := hopen
  have hstart : s.de.Tracks s.de := ⟨fun _ => hclosed, _, _, rfl⟩
  obtain ⟨m, hdata, ⟨hopen, n, rs, hm⟩, hhung'⟩ := execAll_readsBeats_tracks hstart hhung hrun
  obtain ⟨e, he, n', rs', rfl⟩ := DE.beat_endcall (e := m.de) (by rw [hm]; exact hhung') (by rw [hm]; exact hopen)
  have hwhole : execAll (readBeats chunks.flatten) s = .next { m with de := _ } :=
    execAll_append_next.mpr ⟨m, hdata, by rw [execAll_singleton]; exact onDE_next.mpr ⟨_, he, rfl⟩⟩
  refine ⟨_, hwhole, ?_⟩
  simp [hm, DE.withAnswers]

end Sys2Proof.Machine
end

section
/-! What one field does to a decoder that awaits it (46_decompressor.md R150 to R152), what follows for the beats and the
fields as instructions (R154, R163; log 3), and where D.DRIVE stops (R153). -/

namespace Sys2Proof.Machine

open Sys2Proof

/-! ### A code field and a literal (R151, R152) -/

/-- DE after a code field with the value `c` and the expansion `seq`, the bits `r` left. -/
def DE.afterCode (c : Code) (seq : ByteSeq) (r : Bits) (e : DE) : DE :=
  { e with lastCode := c, dstate := .expectingByte, bitSource := r, session := e.session.acceptAll seq }

/-- DE after the literal `l`, the bits `r` left. -/
def DE.afterLiteral (l : Byte) (r : Bits) (e : DE) : DE :=
  { e.mint (e.maxCode + 1) l with dstate := .expectingCode, bitSource := r, session := e.session.acceptAll [l] }

section Fields

variable {e : DE} {r : Bits}

/-- The step on a queue that begins with the awaited code field. -/
theorem dStep_code {v : Nat} (hd : e.dstate = .expectingCode) (hv : v < 2 ^ minBits e.maxCode)
    (hq : e.bitSource = beBits v (minBits e.maxCode) ++ r) : dStep e = dCodeValue v { e with bitSource := r } := by
  have hlen : e.codeWidth = (beBits v (minBits e.maxCode)).length := (length_beBits _ _).symm
  have hlong : e.codeWidth ≤ e.bitSource.length := by simp [hlen, hq]
  have hstep : dStep e = dCode e := by rw [dStep, hd]
  rw [hstep, dCode_take e hlong, hlen, hq, List.take_left, List.drop_left, beVal_beBits_of_lt hv]

/-- The step on a queue that begins with the awaited literal. -/
theorem dStep_literal {l : Byte} (hd : e.dstate = .expectingByte) (hq : e.bitSource = beBits l.toNat 8 ++ r) :
    dStep e = dByteValue l { e with bitSource := r } := by
  have hlen : 8 = (beBits l.toNat 8).length := (length_beBits _ _).symm
  have hlong : 8 ≤ e.bitSource.length := by simp [hq]
  have hstep : dStep e = dByte e := by rw [dStep, hd]
  have htake : e.bitSource.take 8 = beBits l.toNat 8 := by rw [hq]; exact List.take_left' hlen.symm
  have hdrop : e.bitSource.drop 8 = r := by rw [hq]; exact List.drop_left' hlen.symm
  rw [hstep, dByte_take e hlong, htake, hdrop, beVal_beBits_toNat, BitVec.ofNat_toNat, BitVec.setWidth_eq]

/-- A code field with an entry, in a drive: its expansion is written and the drive goes on behind it. -/
theorem dDrive_code {c : Code} {seq : ByteSeq} (hd : e.dstate = .expectingCode) (hc : c.toNat < 2 ^ minBits e.maxCode)
    (hq : e.bitSource = beBits c.toNat (minBits e.maxCode) ++ r) (hseq : ddLookup e.decDict c = some seq)
    (hk : e.session.sink.acceptsNext seq.length = true) : dDrive e = dDrive (e.afterCode c seq r) := by
  have hval : BitVec.ofNat 16 c.toNat = c := by simp
  have hwrite := DE.sinkWrite_accepted seq { e with bitSource := r } hk
  have hstep : dStep e = .ok .progress (e.afterCode c seq r) := by
    rw [dStep_code hd hc hq]
    simp only [dCodeValue, hval, hseq, hwrite, Res.andThen, DE.afterCode]
  rw [dDrive_eq, hstep]

/-- A code field without an entry, in a drive: the drive ends there with BadCode, its bits consumed. -/
theorem dDrive_badCode {v : Nat} (hd : e.dstate = .expectingCode) (hv : v < 2 ^ minBits e.maxCode)
    (hq : e.bitSource = beBits v (minBits e.maxCode) ++ r) (hnone : ddLookup e.decDict (BitVec.ofNat 16 v) = none) :
    dDrive e = .raise .badCode (BitVec.ofNat 16 v) { e with bitSource := r } := by
  rw [dDrive_eq, dStep_code hd hv hq, dCodeValue, hnone]

/-- A literal below the top of the code space, in a drive: it is minted and written, and the drive goes on behind it. -/
theorem dDrive_literal {l : Byte} (hd : e.dstate = .expectingByte) (hq : e.bitSource = beBits l.toNat 8 ++ r)
    (hm : e.maxCode.toNat < 65535) (hk : e.session.sink.acceptsNext 1 = true) :
    dDrive e = dDrive (e.afterLiteral l r) := by
  have hwrite := DE.sinkWrite_accepted [l] (DE.mint (e.maxCode + 1) l { e with bitSource := r }) hk
  have hstep : dStep e = .ok .progress (e.afterLiteral l r) := by
    rw [dStep_literal hd hq]
    simp only [dByteValue, codeInc_of_lt hm, hwrite, Res.andThen]
    rfl
  rw [dDrive_eq, hstep]

/-- A literal at the top of the code space, in a drive: the drive ends there, nothing written. -/
theorem dDrive_literal_top {l : Byte} (hd : e.dstate = .expectingByte) (hq : e.bitSource = beBits l.toNat 8 ++ r)
    (hm : e.maxCode.toNat = 65535) : dDrive e = .raise .codeSpaceExhausted 0 { e with bitSource := r } := by
  rw [dDrive_eq, dStep_literal hd hq, dByteValue, codeInc, if_pos hm]

/-- What the dictionary reads after a literal. -/
theorem DE.afterLiteral_lookup (l : Byte) {last : ByteSeq} (hlast : ddLookup e.decDict e.lastCode = some last) (c : Code) :
    ddLookup (e.afterLiteral l r).decDict c = if c = e.maxCode + 1 then some (last ++ [l]) else ddLookup e.decDict c := by
  have hexp : ddExpansion e.decDict e.lastCode = last := by simp [ddExpansion, hlast]
  exact hexp ▸ e.mint_lookup (e.maxCode + 1) l c

/-- Behind a code field the drive stalls where no whole literal is left. -/
theorem DE.afterCode_stalls {c : Code} {seq : ByteSeq} (hr : r.length < 8) :
    dDrive (e.afterCode c seq r) = .ok () (e.afterCode c seq r) := dDrive_of_short hr

/-- Behind a literal the drive stalls where no whole code field of the new width is left. -/
theorem DE.afterLiteral_stalls {l : Byte} (hr : r.length < minBits (e.maxCode + 1)) :
    dDrive (e.afterLiteral l r) = .ok () (e.afterLiteral l r) := dDrive_of_short hr

end Fields

/-! ### Beats and fields of an open decoder -/

section Open

variable {s : State} (hopen : s.de.session.isOpen)
include hopen

theorem onDE_beat_of_ok {a : Bool} {body : DE → Res DE Unit} {e : DE} (hok : body s.de = .ok () e) :
    onDE (DE.beat a body) s = .next { s with de := e } := by
  obtain ⟨⟨hfault, hhung⟩, hclosed⟩ := hopen
  refine onDE_next.mpr ⟨e, ?_, rfl⟩
  rw [DE.beat_admitted hhung hfault hclosed, hok, DE.finish]

theorem onDE_beat_of_raise {a : Bool} {body : DE → Res DE Unit} {c : Cause} {v : BitVec 16} {e : DE}
    (hraise : body s.de = .raise c v e) : onDE (DE.beat a body) s = .next { s with de := e.takeFault a c v } := by
  obtain ⟨⟨hfault, hhung⟩, hclosed⟩ := hopen
  refine onDE_next.mpr ⟨_, ?_, rfl⟩
  rw [DE.beat_admitted hhung hfault hclosed, hraise, DE.finish]

end Open

/-- Settles O40: both bodies are their answer. -/
theorem decoderCallsEndWithTheCount : Obligations.DecoderCallsEndWithTheCount := fun _ hopen =>
  ⟨onDE_beat_of_ok hopen rfl, onDE_beat_of_ok hopen rfl⟩

/-- A CODE or TAIL row is its value in as many bits as its width. -/
theorem encode_of_codeField {i : Instr} {w v : Nat} (h : i.codeField = some (w, v)) :
    v < 2 ^ w ∧ ∃ k, encode i = .field k (beBits v w) := by
  unfold Instr.codeField at h
  split at h
  · next bits hi =>
    cases h
    exact ⟨beVal_lt bits, _, (beBits_beVal bits).symm ▸ hi⟩
  · next bits hi =>
    cases h
    exact ⟨beVal_lt bits, _, (beBits_beVal bits).symm ▸ hi⟩
  · cases h

/-- Settles O41: the queue is the field alone, and behind it the drive stalls. -/
theorem codeFieldWritesItsExpansion : Obligations.CodeFieldWritesItsExpansion := by
  intro i w v s seq hi hopen hd hq hw hseq hk
  obtain ⟨hv, k, henc⟩ := encode_of_codeField hi
  have hval : (BitVec.ofNat 16 v).toNat = v := by
    have h16 : 2 ^ w ≤ 2 ^ 16 := Nat.pow_le_pow_right (by decide) (hw ▸ minBits_le_sixteen _)
    rw [BitVec.toNat_ofNat, Nat.mod_eq_of_lt (hv.trans_le h16)]
  have hbody : dReceive (beBits v w) s.de = .ok () (s.de.afterCode (BitVec.ofNat 16 v) seq []) :=
    (dDrive_code (e := bsrPushBits _ s.de) hd (by rwa [hval, bsrPushBits_maxCode, hw]) (by simp [hval, hq, hw]) hseq
      hk).trans (DE.afterCode_stalls (by decide))
  rw [exec_field i s k _ henc, onDE_beat_of_ok hopen hbody, DE.afterCode, ← hq]

/-- Settles O42: D.CODE raises at the lookup, and a fault leaves OUT and the responses. -/
theorem codeFieldWithoutEntryIsBadCode : Obligations.CodeFieldWithoutEntryIsBadCode := by
  intro i w v s hi hopen hd hq hw hnone
  obtain ⟨hv, k, henc⟩ := encode_of_codeField hi
  have hbody : dReceive (beBits v w) s.de = .raise .badCode (BitVec.ofNat 16 v) { s.de with bitSource := [] } :=
    dDrive_badCode (e := bsrPushBits _ s.de) hd (hw ▸ hv) (by simp [hq, hw]) hnone
  refine ⟨_, (exec_field i s k _ henc).trans (onDE_beat_of_raise hopen hbody), ?_⟩
  simp

/-- Settles O45: the queue is the literal alone, and behind it the drive stalls, a code field having bits by then. -/
theorem literalMintsTheNextEntry : Obligations.LiteralMintsTheNextEntry := by
  intro b s last hopen hd hq hm hlast hk
  have hnext := toNat_add_one_of_lt hm
  have hbody : dReceive (beBits b.toNat 8) s.de = .ok () (s.de.afterLiteral b []) :=
    (dDrive_literal (e := bsrPushBits _ s.de) (l := b) hd (by simp [hq]) hm hk).trans
      (DE.afterLiteral_stalls (minBits_pos (hnext ▸ Nat.le_add_left 1 _)))
  exact ⟨_, onDE_beat_of_ok hopen hbody, hnext, DE.afterLiteral_lookup b hlast, rfl, rfl, rfl, rfl, rfl, rfl⟩

/-- Settles O46: D.BYTE raises before it writes. -/
theorem literalAtTheTopFaults : Obligations.LiteralAtTheTopFaults := by
  intro b s hopen hd hq hm
  have hbody : dReceive (beBits b.toNat 8) s.de = .raise .codeSpaceExhausted 0 { s.de with bitSource := [] } :=
    dDrive_literal_top (e := bsrPushBits _ s.de) (l := b) hd (by simp [hq]) hm
  refine ⟨_, onDE_beat_of_raise hopen hbody, ?_⟩
  simp

/-! ### BadCode (R151, R162, R173) -/

/-- D.CODE raises BadCode of exactly the values without an entry, and changes nothing by it. -/
theorem dCodeValue_badCode_iff {v : Nat} {e e' : DE} {c : BitVec 16} :
    dCodeValue v e = .raise .badCode c e' ↔
      ddLookup e.decDict (BitVec.ofNat 16 v) = none ∧ BitVec.ofNat 16 v = c ∧ e = e' := by
  unfold dCodeValue
  cases ddLookup e.decDict (BitVec.ofNat 16 v) with
  | none => simp
  | some seq => rcases e.sinkWrite_cases seq with ⟨hw, _⟩ | ⟨hw, _⟩ | ⟨hw, _⟩ <;> simp [hw, Res.andThen]

/-- The value of a whole code field is a Code. -/
theorem toNat_beVal_take {q : Bits} {m : Code} (h : minBits m ≤ q.length) :
    (BitVec.ofNat 16 (beVal (q.take (minBits m)))).toNat = beVal (q.take (minBits m)) := by
  have h16 : 2 ^ minBits m ≤ 2 ^ 16 := Nat.pow_le_pow_right (by decide) (minBits_le_sixteen m)
  rw [BitVec.toNat_ofNat, Nat.mod_eq_of_lt ((beVal_take_lt h).trans_le h16)]

/-- Settles O43: the raise stands behind BSR.TAKE and before any change. -/
theorem badCodeConsumesOnlyItsBits : Obligations.BadCodeConsumesOnlyItsBits := by
  intro e e' v h
  by_cases hlen : e.bitSource.length < e.codeWidth
  · rw [dCode_stall e hlen] at h
    cases h
  · have hlong : minBits e.maxCode ≤ e.bitSource.length := Nat.not_lt.mp hlen
    rw [dCode_take e hlong, dCodeValue_badCode_iff] at h
    obtain ⟨hnone, rfl, rfl⟩ := h
    refine ⟨hlong, ?_, hnone, rfl⟩
    rw [DE.codeWidth, toNat_beVal_take hlong, beBits_beVal_take hlong, List.take_append_drop]

/-- Settles O44: the keys are the codes up to `max_code`, so that the values without an entry are those above it. -/
theorem badCodeExactlyAboveMaxCode : Obligations.BadCodeExactlyAboveMaxCode := by
  intro e hkeys hlong
  have hiff : (∃ v e', dCode e = .raise .badCode v e') ↔
      e.maxCode.toNat < beVal (e.bitSource.take (minBits e.maxCode)) := by
    have hkey := hkeys (BitVec.ofNat 16 (beVal (e.bitSource.take (minBits e.maxCode))))
    rw [toNat_beVal_take hlong] at hkey
    simp only [dCode_take e hlong, dCodeValue_badCode_iff, DE.codeWidth]
    rw [← Nat.not_le, ← hkey]
    simp [Option.eq_none_iff_forall_ne_some]
  refine ⟨hiff, fun ⟨k, hk⟩ v e' h => ?_⟩
  have habove := hiff.mp ⟨v, e', h⟩
  have hwidth : minBits e.maxCode ≤ k := (minBits_le_iff _ _).mpr (by omega)
  have hfits := (beVal_take_lt hlong).trans_le (Nat.pow_le_pow_right (by decide) hwidth)
  omega

/-! ### The pad (R64, R163) -/

/-- A PAD row is zero bits, fewer than a byte. -/
theorem encode_pad {i : Instr} {bits : Bits} (h : encode i = .field .pad bits) :
    bits = zeros bits.length ∧ bits.length < 8 := by
  cases i <;> cases h <;> decide

theorem zeros_add (m n : Nat) : zeros (m + n) = zeros m ++ zeros n := List.replicate_add m n false

/-- Zero bits spell 0. -/
theorem beBits_zero_value (w : Nat) : beBits 0 w = zeros w := by
  have hbits := beBits_beVal (zeros w)
  rwa [beVal_zeros, length_zeros] at hbits

/-- Zero bits that begin with a whole code field, the decoder at the end of its queue: the field is a 0, which writes
nothing, and behind it the drive stalls. -/
theorem dReceive_zeros {e : DE} {n : Nat} (hq : e.bitSource = []) (h0 : ddLookup e.decDict 0 = some [])
    (hd : e.dstate = .expectingCode) (hw : minBits e.maxCode ≤ n) (hn : n < 8) :
    dReceive (zeros n) e = .ok () (e.afterCode 0 [] ((zeros n).drop (minBits e.maxCode))) := by
  obtain ⟨k, rfl⟩ := Nat.exists_eq_add_of_le hw
  have hdrop : (zeros (minBits e.maxCode + k)).drop (minBits e.maxCode) = zeros k := by
    rw [zeros_add]
    exact List.drop_left' (length_zeros _)
  have hqueue : (bsrPushBits (zeros (minBits e.maxCode + k)) e).bitSource =
      beBits (0 : Code).toNat (minBits e.maxCode) ++ zeros k := by
    rw [bsrPushBits_bitSource, hq, List.nil_append, zeros_add, ← beBits_zero_value]
    rfl
  rw [hdrop]
  exact (dDrive_code (e := bsrPushBits _ e) hd (by simp) hqueue h0 rfl).trans
    (DE.afterCode_stalls (by rw [length_zeros]; omega))

/-- Settles O47: a pad is too short for a literal; for a code field it may be long enough, and is then a code 0. -/
theorem padWritesNothing : Obligations.PadWritesNothing := by
  intro i bits s henc hopen hq h0
  obtain ⟨hzeros, hlen⟩ := encode_pad henc
  rw [exec_field i s _ _ henc]
  constructor
  · intro hshort
    have hwait : bits.length < s.de.awaitedWidth := by
      cases hd : s.de.dstate with
      | expectingCode => simpa [DE.awaitedWidth_code hd, hd] using hshort
      | expectingByte => rwa [DE.awaitedWidth_byte hd]
    have hbody := dReceive_of_short (bits := bits) (e := s.de) (by rwa [hq, List.length_nil, Nat.zero_add])
    rw [onDE_beat_of_ok hopen hbody, bsrPushBits, hq, List.nil_append]
  · rintro ⟨hd, hw⟩
    have hbody := dReceive_zeros hq h0 hd hw hlen
    rw [← hzeros] at hbody
    rw [onDE_beat_of_ok hopen hbody, DE.afterCode, Session.acceptAll_nil]

/-! ### D.DATA that completes fields (R154) -/

/-- The literal at the head of the queue and a whole code field of the new width behind it, in a drive. -/
theorem dDrive_literal_code {e : DE} {l : Byte} {c : Code} {last seq : ByteSeq} {r : Bits} (hd : e.dstate = .expectingByte)
    (hm : e.maxCode.toNat < 65535) (hc : c.toNat < 2 ^ minBits (e.maxCode + 1))
    (hq : e.bitSource = beBits l.toNat 8 ++ beBits c.toNat (minBits (e.maxCode + 1)) ++ r)
    (hlast : ddLookup e.decDict e.lastCode = some last)
    (hseq : (if c = e.maxCode + 1 then some (last ++ [l]) else ddLookup e.decDict c) = some seq)
    (hk : e.session.sink.acceptsNext (1 + seq.length) = true) :
    dDrive e = dDrive ((e.afterLiteral l (beBits c.toNat (minBits (e.maxCode + 1)) ++ r)).afterCode c seq r) := by
  rw [Sink.acceptsNext_add, Bool.and_eq_true] at hk
  obtain ⟨hk1, hk2⟩ := hk
  rw [dDrive_literal hd (hq.trans (List.append_assoc _ _ _)) hm hk1]
  exact dDrive_code rfl hc rfl ((DE.afterLiteral_lookup l hlast c).trans hseq) hk2

/-- Settles O49: the drive reads a literal, a code field, or the one and then the other, and stalls behind it. -/
theorem dataCompletesALiteralOrACode : Obligations.DataCompletesALiteralOrACode := by
  refine ⟨?_, ?_, ?_⟩
  · intro b l q r s last hopen hd hq hbits hm hr hlast hk
    have hbody : dReceive (beBits b.toNat 8) s.de = .ok () (s.de.afterLiteral l r) :=
      (dDrive_literal (e := bsrPushBits _ s.de) hd (by rw [bsrPushBits_bitSource, hq, hbits]) hm hk).trans
        (DE.afterLiteral_stalls hr)
    exact ⟨_, (exec_dData b s).trans (onDE_beat_of_ok hopen hbody), rfl, DE.afterLiteral_lookup l hlast,
      rfl, rfl, rfl, rfl, rfl, rfl⟩
  · intro b v r s seq hopen hd hv hbits hr hseq hk
    have hbody : dReceive (beBits b.toNat 8) s.de = .ok () (s.de.afterCode v seq r) :=
      (dDrive_code (e := bsrPushBits _ s.de) hd hv hbits hseq hk).trans (DE.afterCode_stalls hr)
    exact (exec_dData b s).trans (onDE_beat_of_ok hopen hbody)
  · intro b l v r s last seq hopen hd hm hv hbits hr hlast hseq hk
    have hbody := (dDrive_literal_code (e := bsrPushBits (beBits b.toNat 8) s.de) hd hm hv hbits hlast hseq hk).trans
      (DE.afterCode_stalls hr)
    have hsession : (s.de.session.acceptAll [l]).acceptAll seq = s.de.session.acceptAll (l :: seq) := by
      rw [Session.acceptAll_cons _ l seq, Session.acceptAll_cons, Session.acceptAll_nil]
    exact ⟨_, (exec_dData b s).trans (onDE_beat_of_ok hopen hbody), rfl, DE.afterLiteral_lookup (r := r) l hlast,
      hsession, rfl, rfl, rfl, rfl, rfl⟩

/-- Settles O50: the code field of no bits is read first, then the byte is the whole literal. -/
theorem firstDataByteIsTheFirstLiteral : Obligations.FirstDataByteIsTheFirstLiteral := by
  intro b k n s hde hk
  have hopen : s.de.session.isOpen := hde ▸ ⟨⟨rfl, rfl⟩, rfl⟩
  have hwidth : (0 : Code).toNat < 2 ^ minBits 0 := by decide
  have htop : (0 : Code).toNat < 65535 := by decide
  have hone : ([] : Bits).length < minBits 1 := by decide
  have hcode : dReceive (beBits b.toNat 8) s.de = dDrive ((DE.fresh k n).afterCode 0 [] (beBits b.toNat 8)) := by
    rw [hde]
    exact dDrive_code (e := bsrPushBits _ _) (r := beBits b.toNat 8) rfl hwidth rfl rfl rfl
  have hliteral : dDrive ((DE.fresh k n).afterCode 0 [] (beBits b.toNat 8)) =
      dDrive (((DE.fresh k n).afterCode 0 [] (beBits b.toNat 8)).afterLiteral b []) :=
    dDrive_literal rfl (List.append_nil _).symm htop hk
  have hbody := (hcode.trans hliteral).trans (DE.afterLiteral_stalls hone)
  rw [exec_dData, onDE_beat_of_ok hopen hbody, DE.afterLiteral, DE.afterCode, Session.acceptAll_nil]
  rfl

/-! ### Where D.DRIVE stops (R153, R154) -/

/-- What every SinkWrite keeps of the session, a drive keeps: stated of an engine beside itself. -/
theorem DE.session_driveSim {P : Session → Prop} (hP : ∀ t bs, P t → P (t.sinkWrite bs).2) :
    DE.DriveSim fun a e => e = a ∧ P a.session where
  reads := by
    rintro a _ ⟨rfl, _⟩
    exact ⟨rfl, rfl, rfl, rfl⟩
  record _ := fun ⟨he, h⟩ => ⟨he ▸ rfl, h⟩
  await _ := fun ⟨he, h⟩ => ⟨he ▸ rfl, h⟩
  mint _ _ := fun ⟨he, h⟩ => ⟨he ▸ rfl, h⟩
  write := by
    rintro _ e bs ⟨rfl, h⟩
    exact ⟨rfl, rfl, hP _ bs h⟩
  queue_eq := by
    rintro a _ ⟨rfl, _⟩
    rfl
  queue _ := fun ⟨he, h⟩ => ⟨he ▸ rfl, h⟩

theorem Session.sinkWrite_responses (t : Session) (bs : ByteSeq) : (t.sinkWrite bs).2.responses = t.responses := by
  obtain ⟨_, _, _, _, _, _, _, _, hresponses, _⟩ := t.sinkWrite_spec bs
  exact hresponses

theorem Session.isOpen_sinkWrite {t : Session} (bs : ByteSeq) (h : t.isOpen) : (t.sinkWrite bs).2.isOpen := by
  obtain ⟨_, _, _, _, _, hclosed, hfault, _, _, hhung, _⟩ := t.sinkWrite_spec bs
  exact ⟨⟨hfault.trans h.1.1, hhung.trans h.1.2⟩, hclosed.trans h.2⟩

/-- A drive that runs to its end leaves an open engine open. -/
theorem dReceive_isOpen {bits : Bits} {e e' : DE} (hopen : e.session.isOpen) (h : dReceive bits e = .ok () e') :
    e'.session.isOpen := by
  have halike := (DE.session_driveSim fun _ => Session.isOpen_sinkWrite).dReceive bits ⟨rfl, hopen⟩
  rw [h] at halike
  cases halike with
  | ok _ h => exact h.2

/-- How the arrival of bits at DE ends: at a stall, at a fault, or in a SinkWrite, the responses as they were. -/
theorem dReceive_ends (bits : Bits) (e : DE) :
    (∃ e', dReceive bits e = .ok () e' ∧ e'.session.responses = e.session.responses ∧
      e'.bitSource.length < e'.awaitedWidth) ∨
    (∃ c v e', dReceive bits e = .raise c v e' ∧ e'.session.responses = e.session.responses) ∨
    ∃ e', dReceive bits e = .hang e' ∧ e'.session.responses = e.session.responses := by
  have halike := (DE.session_driveSim (P := fun t => t.responses = e.session.responses)
    fun t bs h => (t.sinkWrite_responses bs).trans h).dReceive bits ⟨rfl, rfl⟩
  have hends := dDrive_ends (bsrPushBits bits e)
  rw [← dReceive] at hends
  generalize dReceive bits e = r at halike hends
  rcases hends with ⟨e', rfl, hs⟩ | ⟨c, v, e', rfl⟩ | ⟨e', rfl⟩
  · cases halike with
    | ok _ h => exact .inl ⟨e', rfl, h.2, dStep_stall_short hs⟩
  · cases halike with
    | raise _ _ h => exact .inr (.inl ⟨c, v, e', rfl, h.2⟩)
  · cases halike with
    | hang h => exact .inr (.inr ⟨e', rfl, h.2⟩)

/-- Settles O51: the gate answers at once, and an admitted beat ends as its drive does. -/
theorem driveAlwaysEnds : Obligations.DriveAlwaysEnds := by
  intro i s hport hans hhung
  suffices h : ∀ bits, ∃ e, s.de.beat false (dReceive bits) = .next e ∧
      e.session.responses = s.de.session.responses ∧
      (s.de.session.isOpen → e.session.sound → e.bitSource.length < e.awaitedWidth) by
    rcases exec_shape i s with ⟨hp, _⟩ | ⟨_, body, hb, hexec⟩
    · cases hp.symm.trans hport
    · rw [hans] at hb hexec
      cases hb with
      | receive bits =>
        obtain ⟨e, he, hresponses, hrest⟩ := h bits
        exact ⟨_, hexec.trans (onDE_next.mpr ⟨e, he, rfl⟩), rfl, rfl, hresponses, hrest⟩
  intro bits
  rcases s.de.session.gate_inv with ⟨_, hh⟩ | ⟨_, _, hf⟩ | ⟨_, _, hf, hc⟩ | ⟨_, _, hf, hc⟩
  · cases hhung.symm.trans hh
  · exact ⟨_, DE.beat_faulted hhung hf, rfl, fun hopen => absurd hopen.1.1 hf⟩
  · exact ⟨_, DE.beat_closed hhung hf hc, rfl, fun hopen => absurd (hc.symm.trans hopen.2) (by decide)⟩
  · rw [DE.beat_admitted hhung hf hc]
    rcases dReceive_ends bits s.de with ⟨e, he, hr, hshort⟩ | ⟨c, v, e, he, hr⟩ | ⟨e, he, hr⟩ <;> rw [he]
    · exact ⟨e, rfl, hr, fun _ _ => hshort⟩
    · refine ⟨_, rfl, by simpa using hr, fun _ hs => ?_⟩
      exact absurd (by simpa using hs.1) ((DEBody.receive bits).raise_ne_noFault he)
    · exact ⟨_, rfl, hr, fun _ hs => absurd hs.2 (by simp)⟩

/-- What a progress step takes from the queue: a code field before a literal, or a literal, behind which a code field
is wider than 0. -/
theorem dStep_progress {e e' : DE} (h : dStep e = .ok .progress e') :
    (e.dstate = .expectingCode ∧ e'.dstate = .expectingByte ∧
      e'.bitSource.length + minBits e.maxCode = e.bitSource.length) ∨
    (e.dstate = .expectingByte ∧ e'.dstate = .expectingCode ∧ e'.bitSource.length + 8 = e.bitSource.length ∧
      1 ≤ minBits e'.maxCode) := by
  have hlong : e.awaitedWidth ≤ e.bitSource.length := by
    by_contra hshort
    rw [dStep_stall_of_short (Nat.not_le.mp hshort)] at h
    cases h
  unfold dStep at h
  cases hd : e.dstate with
  | expectingCode =>
    rw [DE.awaitedWidth_code hd] at hlong
    rw [hd] at h
    replace h : dCode e = .ok .progress e' := h
    rw [dCode_take e hlong] at h
    obtain ⟨_, hq, hd', _⟩ := dCodeValue_ok h
    refine .inl ⟨rfl, hd', ?_⟩
    rw [hq, List.length_drop]
    exact Nat.sub_add_cancel hlong
  | expectingByte =>
    rw [DE.awaitedWidth_byte hd] at hlong
    rw [hd] at h
    replace h : dByte e = .ok .progress e' := h
    rw [dByte_take e hlong] at h
    obtain ⟨_, hq, hd', _, hm, _⟩ := dByteValue_ok h
    refine .inr ⟨rfl, hd', ?_, minBits_pos ((codeInc_eq_some hm).1 ▸ Nat.le_add_left 1 _)⟩
    rw [hq, List.length_drop]
    exact Nat.sub_add_cancel hlong

/-- One step more than the state after it makes. -/
theorem driveSteps_le_succ {e : DE} {k : Nat} (h : ∀ e', dStep e = .ok .progress e' → ∀ n, driveSteps n e' ≤ k) (n : Nat) :
    driveSteps n e ≤ k + 1 := by
  cases n with
  | zero => exact Nat.zero_le _
  | succ n =>
    rw [driveSteps]
    split
    · next e' he => exact Nat.succ_le_succ (h e' he n)
    · exact Nat.zero_le _

/-- Short of its field, an engine makes no step. -/
theorem driveSteps_of_short {e : DE} (h : e.bitSource.length < e.awaitedWidth) (n : Nat) : driveSteps n e ≤ 0 := by
  cases n with
  | zero => exact le_rfl
  | succ n => rw [driveSteps, dStep_stall_of_short h]

/-- Where a code is awaited and no literal is whole behind it, there is at most one step. -/
theorem driveSteps_code {e : DE} (hd : e.dstate = .expectingCode) (hq : e.bitSource.length < minBits e.maxCode + 8)
    (n : Nat) : driveSteps n e ≤ 1 := by
  refine driveSteps_le_succ (fun e' h => driveSteps_of_short ?_) n
  rcases dStep_progress h with ⟨_, hd', hlen⟩ | ⟨hd', _⟩
  · rw [DE.awaitedWidth_byte hd']
    omega
  · cases hd.symm.trans hd'

/-- Where a literal is awaited, at most one step more than it, if there are fewer than two bytes. -/
theorem driveSteps_byte {e : DE} (hd : e.dstate = .expectingByte) (hq : e.bitSource.length < 16) (n : Nat) :
    driveSteps n e ≤ 2 := by
  refine driveSteps_le_succ (fun e' h => ?_) n
  rcases dStep_progress h with ⟨hd', _⟩ | ⟨_, hd', hlen, _⟩
  · cases hd.symm.trans hd'
  · exact driveSteps_code hd' (by omega)

/-- A literal with nothing behind it is one step. -/
theorem driveSteps_literal {e : DE} (hd : e.dstate = .expectingByte) (hq : e.bitSource.length = 8) (n : Nat) :
    driveSteps n e ≤ 1 := by
  refine driveSteps_le_succ (fun e' h => driveSteps_of_short ?_) n
  rcases dStep_progress h with ⟨hd', _⟩ | ⟨_, hd', hlen, hwidth⟩
  · cases hd.symm.trans hd'
  · rw [DE.awaitedWidth_code hd']
    omega

/-- Settles O52: a code and no whole literal behind it, a literal and a code, or, after reset, the code of no bits and a
literal. -/
theorem oneByteAtMostTwoSteps : Obligations.OneByteAtMostTwoSteps := by
  intro b e n _ hr
  obtain ⟨_, _, _, hrest, _⟩ := hr
  rw [bsrPush_singleton]
  have hlen : (bsrPushBits (beBits b.toNat 8) e).bitSource.length = e.bitSource.length + 8 := by simp
  rcases hrest with hshort | ⟨hmax, hd, hq⟩
  · cases hd : e.dstate with
    | expectingCode =>
      rw [DE.awaitedWidth_code hd] at hshort
      exact (driveSteps_code (e := bsrPushBits _ e) hd (by rw [hlen, bsrPushBits_maxCode]; omega) n).trans (by decide)
    | expectingByte =>
      rw [DE.awaitedWidth_byte hd] at hshort
      exact driveSteps_byte (e := bsrPushBits _ e) hd (by omega) n
  · refine driveSteps_le_succ (fun e' h => ?_) n
    rcases dStep_progress h with ⟨_, hd', hlen'⟩ | ⟨hd', _⟩
    · refine driveSteps_literal hd' ?_
      rw [bsrPushBits_maxCode, hmax, minBits_zero, hlen, hq] at hlen'
      exact hlen'
    · cases hd.symm.trans hd'

end Sys2Proof.Machine
end

section
/-! The round trip (46_decompressor.md R161, R164): each transaction of the stream of an input (45_compressor.md R140) gives
DE the next phrase of the parse, and the tail code and the pad behind them complete its OUT to the input. -/

namespace Sys2Proof.Machine

open Sys2Proof

/-! ### The phrases of the parse (R140) -/

/-- The code of a phrase is its place, the empty sequence standing at place 0. -/
theorem phraseCode_eq_idxOf (ps : List ByteSeq) (p : ByteSeq) : phraseCode ps p = ([] :: ps).idxOf p := by
  unfold phraseCode
  split
  · next hp => rw [hp, List.idxOf_cons_self]
  · next hp => rw [List.idxOf_cons_ne _ (Ne.symm hp)]

theorem parsePhrases_concat (x : ByteSeq) (b : Byte) : parsePhrases (x ++ [b]) = parseStep (parsePhrases x) b :=
  List.foldl_append ..

/-- The phrases and the rest are the input, cut. -/
theorem parsePhrases_flatten (x : ByteSeq) : (parsePhrases x).1.flatten ++ (parsePhrases x).2 = x := by
  induction x using List.reverseRecOn with
  | nil => rfl
  | append_singleton x b ih =>
    rw [parsePhrases_concat]
    generalize parsePhrases x = a at ih ⊢
    obtain ⟨ps, p⟩ := a
    subst ih
    by_cases hmem : p ++ [b] ∈ ps
    · rw [parseStep_known hmem]
      simp
    · rw [parseStep_new hmem]
      simp

/-- No phrase stands twice. -/
theorem parsePhrases_nodup (x : ByteSeq) : (parsePhrases x).1.Nodup := by
  induction x using List.reverseRecOn with
  | nil => exact List.nodup_nil
  | append_singleton x b ih =>
    rw [parsePhrases_concat]
    generalize parsePhrases x = a at ih ⊢
    obtain ⟨ps, p⟩ := a
    by_cases hmem : p ++ [b] ∈ ps
    · rwa [parseStep_known hmem]
    · rw [parseStep_new hmem]
      show (ps ++ [p ++ [b]]).Nodup
      rw [← List.concat_eq_append]
      exact ih.concat hmem

/-- There is an engine that has parsed the input. -/
theorem exists_parsedAs {x : ByteSeq} (hlen : (parsePhrases x).1.length ≤ 65535) : ∃ e : CE, e.ParsedAs (parsePhrases x) := by
  obtain ⟨t, _, h, _⟩ := execAll_cData_parsedAs (s := State.reset) (CE.fresh_parsedAs 0) hlen
  exact ⟨t.ce, h⟩

/-! ### DE holds the phrases it has decoded -/

/-- DE has decoded the transactions of the phrases `ps` and nothing behind them, and its byte sink accepts. -/
structure DE.Decoded (ps : List ByteSeq) (e : DE) : Prop where
  isOpen : e.session.isOpen
  sink : e.session.sink = Sink.accepting
  awaits : e.dstate = .expectingCode
  queue : e.bitSource = []
  maxCode : e.maxCode.toNat = ps.length
  entries : ∀ c : Code, ddLookup e.decDict c = ([] :: ps)[c.toNat]?
  out : e.session.out = ps.flatten

theorem DE.fresh_decoded (n : Nat) : (DE.fresh Sink.accepting n).Decoded [] where
  isOpen := ⟨⟨rfl, rfl⟩, rfl⟩
  sink := rfl
  awaits := rfl
  queue := rfl
  maxCode := rfl
  entries c := by
    rw [DE.fresh_lookup]
    split
    · next hc => rw [hc]; rfl
    · next hc =>
      have hpos : c.toNat ≠ 0 := fun h0 => hc (BitVec.eq_of_toNat_eq h0)
      exact (List.getElem?_eq_none (Nat.one_le_iff_ne_zero.mpr hpos)).symm
  out := rfl

/-- One entry more changes no other place. -/
theorem getElem?_concat_of_ne {α : Type} {l : List α} {a : α} {i : Nat} (h : i ≠ l.length) : (l ++ [a])[i]? = l[i]? := by
  rcases Nat.lt_or_gt_of_ne h with hlt | hgt
  · exact List.getElem?_append_left hlt
  · rw [List.getElem?_eq_none hgt.le, List.getElem?_eq_none (by simpa using hgt)]

section Decoded

variable {ps : List ByteSeq} {p : ByteSeq} {e : DE} (h : e.Decoded ps)
include h

theorem DE.Decoded.maxCode_eq : e.maxCode = BitVec.ofNat 16 ps.length := by
  rw [← h.maxCode, BitVec.ofNat_toNat, BitVec.setWidth_eq]

/-- The code of a phrase, or of the empty sequence, is a Code that fits the awaited field and has it as its entry. -/
theorem DE.Decoded.phraseCode_known (hp : p = [] ∨ p ∈ ps) :
    ∃ c : Code, c.toNat = phraseCode ps p ∧ c.toNat < 2 ^ minBits e.maxCode ∧ ddLookup e.decDict c = some p := by
  have hmem : p ∈ [] :: ps := List.mem_cons.mpr hp
  have hidx := List.idxOf_lt_length_of_mem hmem
  have hmax := h.maxCode
  have htop : e.maxCode.toNat < 65536 := e.maxCode.isLt
  rw [List.length_cons] at hidx
  have hcode : (BitVec.ofNat 16 (phraseCode ps p)).toNat = phraseCode ps p := by
    rw [phraseCode_eq_idxOf, BitVec.toNat_ofNat, Nat.mod_eq_of_lt (by omega)]
  refine ⟨_, hcode, lt_two_pow_minBits_of_le ?_, ?_⟩
  · rw [hcode, phraseCode_eq_idxOf]
    omega
  · rw [h.entries, hcode, phraseCode_eq_idxOf, List.getElem?_idxOf hmem]

/-- The entry of the next code is the next phrase. -/
theorem DE.Decoded.concat_entries (hlen : ps.length < 65535) (q : ByteSeq) (c : Code) :
    (if c = e.maxCode + 1 then some q else ddLookup e.decDict c) = ([] :: (ps ++ [q]))[c.toNat]? := by
  have hplace : (e.maxCode + 1).toNat = ([] :: ps).length := by
    rw [toNat_add_one_of_lt (h.maxCode ▸ hlen), h.maxCode, List.length_cons]
  rw [← List.cons_append]
  split
  · next hc => rw [hc, hplace, List.getElem?_concat_length]
  · next hc =>
    have hne : c.toNat ≠ ([] :: ps).length := fun h0 => hc (BitVec.eq_of_toNat_eq (h0.trans hplace.symm))
    rw [h.entries, getElem?_concat_of_ne hne]

/-- One transaction decodes to the next phrase. -/
theorem DE.Decoded.transaction {b : Byte} (hp : p = [] ∨ p ∈ ps) (hlen : ps.length < 65535) :
    ∃ e' : DE, e'.Decoded (ps ++ [p ++ [b]]) ∧ ∀ rest,
      dReceive ((beBits (phraseCode ps p) (minBits (BitVec.ofNat 16 ps.length)) ++ beBits b.toNat Config.litW) ++ rest) e =
        dReceive rest e' := by
  obtain ⟨c, hc, hfits, hentry⟩ := h.phraseCode_known hp
  have hmax : e.maxCode.toNat < 65535 := h.maxCode ▸ hlen
  refine ⟨(e.afterCode c p []).afterLiteral b [], ⟨h.isOpen, ?_, rfl, rfl, ?_, fun d => ?_, ?_⟩, fun rest => ?_⟩
  · simp [DE.afterLiteral, DE.afterCode, h.sink]
  · rw [List.length_append, ← h.maxCode]
    exact toNat_add_one_of_lt hmax
  · exact (DE.afterLiteral_lookup (e := e.afterCode c p []) b hentry d).trans (h.concat_entries hlen _ d)
  · simp [DE.afterLiteral, DE.afterCode, h.out]
  · have hcode := dDrive_code (e := bsrPushBits (beBits c.toNat (minBits e.maxCode) ++ (beBits b.toNat 8 ++ rest)) e)
      h.awaits hfits (by rw [bsrPushBits_bitSource, h.queue, List.nil_append, bsrPushBits_maxCode]) hentry
      (by simp [h.sink])
    have hliteral := dDrive_literal (e := e.afterCode c p (beBits b.toNat 8 ++ rest)) rfl rfl hmax
      (by simp [DE.afterCode, h.sink])
    rw [← hc, ← h.maxCode_eq, List.append_assoc]
    exact hcode.trans hliteral

/-- The tail code, if the input ends inside a match, and the pad: OUT is completed, no phrase is added. -/
theorem DE.Decoded.tail {n : Nat} (hp : p = [] ∨ p ∈ ps) (hn : n < 8) :
    ∃ e', dReceive ((if p = [] then [] else beBits (phraseCode ps p) (minBits (BitVec.ofNat 16 ps.length))) ++ zeros n) e =
        .ok () e' ∧
      e'.session.out = ps.flatten ++ p ∧ e'.maxCode = e.maxCode ∧ e'.decDict = e.decDict := by
  split
  · next hnil =>
    have h0 : ddLookup e.decDict 0 = some [] := h.entries 0
    rw [List.nil_append]
    by_cases hw : minBits e.maxCode ≤ n
    · exact ⟨_, dReceive_zeros h.queue h0 h.awaits hw hn, by simp [DE.afterCode, h.out, hnil], rfl, rfl⟩
    · have hshort : e.bitSource.length + (zeros n).length < e.awaitedWidth := by
        rw [h.queue, length_zeros, DE.awaitedWidth_code h.awaits, List.length_nil]
        omega
      exact ⟨_, dReceive_of_short hshort, by simp [h.out, hnil], rfl, rfl⟩
  · obtain ⟨c, hc, hfits, hentry⟩ := h.phraseCode_known hp
    have hcode := dDrive_code (e := bsrPushBits (beBits c.toNat (minBits e.maxCode) ++ zeros n) e)
      h.awaits hfits (by rw [bsrPushBits_bitSource, h.queue, List.nil_append, bsrPushBits_maxCode]) hentry
      (by simp [h.sink])
    rw [← hc, ← h.maxCode_eq]
    exact ⟨_, hcode.trans (DE.afterCode_stalls (by rwa [length_zeros])), by simp [DE.afterCode, h.out], rfl, rfl⟩

end Decoded

/-- The transactions of an input decode to the phrases of its parse. -/
theorem dReceive_transactions {x : ByteSeq} (n : Nat) (hlen : (parsePhrases x).1.length ≤ 65535) :
    ∃ e : DE, e.Decoded (parsePhrases x).1 ∧ ∀ rest,
      dReceive (transactionFields (parsePhrases x).1 0 (parsePhrases x).1 ++ rest) (DE.fresh Sink.accepting n) =
        dReceive rest e := by
  induction x using List.reverseRecOn with
  | nil => exact ⟨_, DE.fresh_decoded n, fun _ => rfl⟩
  | append_singleton x b ih =>
    have hle := length_le_parse [b] (parsePhrases x)
    rw [parsePhrases_concat] at hlen ⊢
    obtain ⟨ce, hparsed⟩ := exists_parsedAs (hle.trans hlen)
    obtain ⟨e, hdecoded, hrun⟩ := ih (hle.trans hlen)
    have hrest := hparsed.rest_known
    have hclosed := hparsed.dropLast_known
    generalize parsePhrases x = a at *
    obtain ⟨ps, p⟩ := a
    by_cases hmem : p ++ [b] ∈ ps
    · rw [parseStep_known hmem]
      exact ⟨e, hdecoded, hrun⟩
    · rw [parseStep_new hmem] at hlen ⊢
      have hroom : ps.length < 65535 := by simpa using hlen
      obtain ⟨e', hdecoded', hstep⟩ := hdecoded.transaction (b := b) hrest hroom
      refine ⟨e', hdecoded', fun rest => ?_⟩
      rw [transactionFields_concat hclosed hrest, List.append_assoc, hrun, hstep]

/-! ### A run of `decode` (R73, R157, R159) -/

section Decode

variable {s : State}

/-- The DATA beats do what their sub-chunks of one byte do, while no fault is raised. -/
theorem execAll_dData_of_readChunks {bs : ByteSeq} {e : DE} (hopen : s.de.session.isOpen)
    (h : readChunks 1 bs [] s.de = .ok () e) :
    execAll (bs.map .dData) s = .next { s with de := e } ∧ e.session.isOpen := by
  induction bs generalizing s with
  | nil =>
    obtain rfl : s.de = e := by simpa [readChunks] using h
    exact ⟨rfl, hopen⟩
  | cons b bs ih =>
    rw [readChunks_one_cons, Res.andThen_eq_ok] at h
    obtain ⟨_, e1, hbyte, hrest⟩ := h
    have hexec : exec (.dData b) s = .next { s with de := e1 } := onDE_beat_of_ok hopen hbyte
    obtain ⟨hrun, hopen'⟩ := ih (s := { s with de := e1 }) (dReceive_isOpen hopen hbyte) hrest
    exact ⟨execAll_cons_next.mpr ⟨_, hexec, hrun⟩, hopen'⟩

/-- The bytes of a stream, one beat each, do what their bits do in one drive. -/
theorem execAll_dData_of_receive {bs : ByteSeq} {e : DE} (hbs : bs ≠ []) (hopen : s.de.session.isOpen)
    (h : dReceive (unpack8 bs) s.de = .ok () e) :
    execAll (bs.map .dData) s = .next { s with de := e } ∧ e.session.isOpen := by
  have hagree := pushDrive_agree hbs s.de
  have hpush : pushDrive bs s.de = .ok () e := h
  rw [hpush] at hagree
  refine execAll_dData_of_readChunks hopen ?_
  rcases Res.agree_cases hagree with ⟨_, he, hr⟩ | ⟨_, _, _, _, he, _⟩ | ⟨_, _, he, _⟩ <;> cases he
  exact hr

/-- Behind the DATA beats, ENDCALL and FINALIZE answer and close, and change nothing else. -/
theorem decodeRun_of_data {y : ByteSeq} {e : DE} (hdata : execAll (y.map .dData) (resetEngine .de s) = .next { s with de := e })
    (hopen : e.session.isOpen) :
    ∃ u, decodeRun y s = .next u ∧ u.de.session.final ∧ u.de.session.out = e.session.out ∧ u.de.maxCode = e.maxCode ∧
      u.de.decDict = e.decDict := by
  have hendcall := (decoderCallsEndWithTheCount { s with de := e } hopen).1
  have hfinal := (decoderCallsEndWithTheCount { s with de := { e with session := e.session.respondCount } } hopen).2
  have hrun := execAll_append_next.mpr ⟨_, execAll_append_next.mpr ⟨_, hdata, execAll_singleton.trans hendcall⟩,
    execAll_singleton.trans hfinal⟩
  exact ⟨_, hrun, ⟨rfl, hopen.1.1⟩, rfl, rfl, rfl⟩

/-- The stream of an input is its fields and the pad, as bits. -/
theorem unpack8_streamOf (x : ByteSeq) :
    unpack8 (streamOf x) = streamFields x ++ zeros (padLength (streamFields x).length) := by
  have hfills := (padLength_fills (streamFields x).length).1
  refine unpack8_pack8 (((streamFields x).length + padLength (streamFields x).length) / 8) ?_
  rw [List.length_append, length_zeros]
  omega

/-- An input with a byte in it has a phrase, and so its stream has a byte. -/
theorem streamOf_ne_nil {x : ByteSeq} (hps : (parsePhrases x).1 ≠ []) : streamOf x ≠ [] := by
  intro hnil
  have hbits := unpack8_streamOf x
  obtain ⟨q, qs, hq⟩ := List.exists_cons_of_ne_nil hps
  rw [hnil, streamFields_eq, hq, transactionFields] at hbits
  have hlen := congrArg List.length hbits
  simp only [List.length_append, length_beBits, unpack8, List.length_nil, Config.litW] at hlen
  omega

/-- `decode` of the stream of an input: its OUT is the input, and its dictionary the phrases of the parse. -/
theorem decodeRun_streamOf {x : ByteSeq} (hsink : s.de.session.sink = Sink.accepting)
    (hlen : (parsePhrases x).1.length ≤ 65535) :
    ∃ u, decodeRun (streamOf x) s = .next u ∧ u.de.session.final ∧ u.de.session.out = x ∧
      u.de.maxCode.toNat = (parsePhrases x).1.length ∧
      ∀ c : Code, ddLookup u.de.decDict c = ([] :: (parsePhrases x).1)[c.toNat]? := by
  have hreset : resetEngine .de s = { s with de := DE.fresh Sink.accepting s.de.session.freeIdx } := by
    rw [← hsink]
    rfl
  obtain ⟨ce, hparsed⟩ := exists_parsedAs hlen
  have hrest := hparsed.rest_known
  obtain ⟨e, hdata, hopen, hout, hmax, hentries⟩ : ∃ e : DE,
      execAll ((streamOf x).map .dData) (resetEngine .de s) = .next { s with de := e } ∧ e.session.isOpen ∧
      e.session.out = x ∧ e.maxCode.toNat = (parsePhrases x).1.length ∧
      ∀ c : Code, ddLookup e.decDict c = ([] :: (parsePhrases x).1)[c.toNat]? := by
    by_cases hps : (parsePhrases x).1 = []
    · have hnil : (parsePhrases x).2 = [] := by simpa [hps] using hrest
      obtain rfl : x = [] := by
        rw [← parsePhrases_flatten x, hps, hnil]
        rfl
      have hfresh := DE.fresh_decoded s.de.session.freeIdx
      exact ⟨_, congrArg _ hreset, hfresh.isOpen, hfresh.out, hfresh.maxCode, hfresh.entries⟩
    · obtain ⟨e, hdecoded, hrun⟩ := dReceive_transactions s.de.session.freeIdx hlen
      obtain ⟨e', htail, hout, hmax, hdict⟩ := hdecoded.tail hrest (padLength_fills (streamFields x).length).2
      have hbody : dReceive (unpack8 (streamOf x)) (resetEngine .de s).de = .ok () e' := by
        rw [hreset, unpack8_streamOf, ← htail, ← hrun, ← List.append_assoc, ← streamFields_eq]
      obtain ⟨hdata, hopen⟩ := execAll_dData_of_receive (streamOf_ne_nil hps) (hreset ▸ ⟨⟨rfl, rfl⟩, rfl⟩) hbody
      exact ⟨e', hdata, hopen, hout.trans (parsePhrases_flatten x), hmax ▸ hdecoded.maxCode,
        fun c => hdict ▸ hdecoded.entries c⟩
  obtain ⟨u, hu, hfinal, huout, humax, hudict⟩ := decodeRun_of_data hdata hopen
  exact ⟨u, hu, hfinal, huout.trans hout, humax ▸ hmax, hudict ▸ hentries⟩

end Decode

/-- Settles O57: encoding writes the stream of the input, and decoding that stream gives the input. -/
theorem decodeUndoesEncodeOfEveryInput : Obligations.DecodeUndoesEncodeOfEveryInput := by
  intro x s hce hde hlen
  obtain ⟨t, ht, hfinal, hout, _, _, _, hsame⟩ := encoderWritesThePhraseParse x s hce hlen
  obtain ⟨u, hu, hfinal', hx, _⟩ := decodeRun_streamOf (s := t) (x := x) (hsame ▸ hde) hlen
  exact ⟨t, u, ht, hfinal, hout ▸ hu, hfinal', hx⟩

/-- Settles O58: both dictionaries hold the phrases of the parse, each under its place. -/
theorem dictionariesGrowInLockstep : Obligations.DictionariesGrowInLockstep := by
  intro x s t u hce hde hlen ht hu
  obtain ⟨t', ht', _, hout, hmax, _, hcodes, hsame⟩ := encoderWritesThePhraseParse x s hce hlen
  cases ht'.symm.trans ht
  obtain ⟨u', hu', _, _, hmax', hentries⟩ := decodeRun_streamOf (s := t) (x := x) (hsame ▸ hde) hlen
  rw [← hout] at hu'
  cases hu'.symm.trans hu
  refine ⟨BitVec.eq_of_toNat_eq (hmax'.trans hmax.symm), fun c hpos hle => ?_⟩
  obtain ⟨i, hi⟩ : ∃ i, c.toNat = i + 1 := ⟨c.toNat - 1, by omega⟩
  have hlt : i < (parsePhrases x).1.length := by omega
  refine ⟨(parsePhrases x).1[i], ?_, ?_⟩
  · rw [hentries, hi, List.getElem?_cons_succ, List.getElem?_eq_getElem hlt]
  · rw [hcodes _ (List.getElem_mem hlt), (parsePhrases_nodup x).idxOf_getElem i hlt, ← hi, BitVec.ofNat_toNat,
      BitVec.setWidth_eq]

end Sys2Proof.Machine
end

section
/-! The gate (60_exceptions.md R175, R178, R180) for every instruction of both engines, the machine to which nothing is
presented (R188), and the numbers a host reads (R70, R170, R172; 10_state.md R30). -/

namespace Sys2Proof.Machine

open Sys2Proof

/-! ### Every instruction is one beat of its engine, the same beat in every state (R31, R67, R70) -/

theorem exec_eq_ce_beat {i : Instr} (h : i.port = .ce) :
    ∃ body, CEBody i.answered body ∧ ∀ s, exec i s = onCE (CE.beat i.answered body) s := by
  suffices hbeat : ∃ a body, i.answered = a ∧ CEBody a body ∧ ∀ s, exec i s = onCE (CE.beat a body) s by
    obtain ⟨a, body, rfl, hbody⟩ := hbeat
    exact ⟨body, hbody⟩
  cases i with
  | cData b => exact ⟨_, _, by simp [Instr.answered, encode], .data b, fun _ => rfl⟩
  | cEndcall => exact ⟨_, _, rfl, .endcall, fun _ => rfl⟩
  | cFinalize => exact ⟨_, _, rfl, .finalize, fun _ => rfl⟩
  | cRsvdEndcallNz | cRsvdFinalizeNz | cRsvdOp3 =>
    exact ⟨_, _, by simp [Instr.answered, encode], .reserved, fun _ => rfl⟩
  | _ => cases h

theorem exec_eq_de_beat {i : Instr} (h : i.port = .de) :
    ∃ body, DEBody i.answered body ∧ ∀ s, exec i s = onDE (DE.beat i.answered body) s := by
  suffices hbeat : ∃ a body, i.answered = a ∧ DEBody a body ∧ ∀ s, exec i s = onDE (DE.beat a body) s by
    obtain ⟨a, body, rfl, hbody⟩ := hbeat
    exact ⟨body, hbody⟩
  cases i with
  | cData | cEndcall | cFinalize | cRsvdEndcallNz | cRsvdFinalizeNz | cRsvdOp3 => cases h
  | dData b => exact ⟨_, _, by simp [Instr.answered, encode], .receive _, exec_dData b⟩
  | dEndcall => exact ⟨_, _, rfl, .endcall, fun _ => rfl⟩
  | dFinalize => exact ⟨_, _, rfl, .finalize, fun _ => rfl⟩
  | dRsvdEndcallNz | dRsvdFinalizeNz | dRsvdOp3 =>
    exact ⟨_, _, by simp [Instr.answered, encode], .reserved, fun _ => rfl⟩
  | _ => exact ⟨_, _, rfl, .receive _, fun _ => rfl⟩

/-! ### What the gate answers for a beat that it does not let through (R175, R180) -/

theorem Session.repeatFault_eq (t : Session) (answered : Bool) :
    t.repeatFault answered
      = { t with responses := if answered then t.responses ++ [.err t.fault t.faultValue] else t.responses } := by
  cases answered <;> rfl

theorem Session.latch_eq (t : Session) (answered : Bool) (c : Cause) (v : BitVec 16) :
    t.latch answered c v
      = { t with
          fault := c, faultValue := v,
          responses := if answered then t.responses ++ [.err c v] else t.responses } := by
  cases answered <;> rfl

/-- Settles O26: the gate sees the fault first, and repeats it. -/
theorem faultedEngineOnlyRepeatsItsFault : Obligations.FaultedEngineOnlyRepeatsItsFault := by
  refine fun i s => ⟨fun hport hhung hfault => ?_, fun hport hhung hfault => ?_⟩
  · obtain ⟨body, _, hexec⟩ := exec_eq_ce_beat hport
    rw [hexec, ← Session.repeatFault_eq]
    exact onCE_next.mpr ⟨_, CE.beat_faulted hhung hfault, rfl⟩
  · obtain ⟨body, _, hexec⟩ := exec_eq_de_beat hport
    rw [hexec, ← Session.repeatFault_eq]
    exact onDE_next.mpr ⟨_, DE.beat_faulted hhung hfault, rfl⟩

/-- Settles O27: without a fault the gate sees `closed`, and SessionClosed is latched with nothing else changed. -/
theorem closedEngineRaisesSessionClosed : Obligations.ClosedEngineRaisesSessionClosed := by
  refine fun i s => ⟨fun hport hhung hfault hclosed => ?_, fun hport hhung hfault hclosed => ?_⟩
  · obtain ⟨body, _, hexec⟩ := exec_eq_ce_beat hport
    rw [hexec, ← Session.latch_eq]
    exact onCE_next.mpr ⟨_, CE.beat_closed hhung hfault hclosed, rfl⟩
  · obtain ⟨body, _, hexec⟩ := exec_eq_de_beat hport
    rw [hexec, ← Session.latch_eq]
    exact onDE_next.mpr ⟨_, DE.beat_closed hhung hfault hclosed, rfl⟩

/-! ### Nothing presented (R188) -/

theorem fetch_of_host_nil {s : State} (h : s.host = []) : fetch s = .idle := by
  rw [fetch, h, pickEvent]

/-- Settles O7: the fetch finds nothing to do. -/
theorem nothingPresentedNothingDone : Obligations.NothingPresentedNothingDone := by
  intro s h
  rw [step, fetch_of_host_nil h]

/-! ### The numbers a host reads (R30, R70, R170, R172) -/

/-- `Incomplete` and the reserved number are no causes (R172). -/
theorem Cause.number_lt_six (c : Cause) : c.number < 6 := by
  cases c <;> decide

/-- The `closed` bit of a status view is the register (R30). -/
theorem ofBool_eq_one_and_zero_iff (b : Bool) :
    (BitVec.ofBool b = 1 ↔ b = true) ∧ (BitVec.ofBool b = 0 ↔ b = false) :=
  ⟨BitVec.ofBool_eq_iff_eq (b' := true), BitVec.ofBool_eq_iff_eq (b' := false)⟩

/-- Settles O29: the numbers and the views are read off their definitions, case by case. -/
theorem numbersResponsesAndStatusRead : Obligations.NumbersResponsesAndStatusRead := by
  refine ⟨⟨rfl, rfl, rfl, rfl, rfl, rfl, fun c => ?_⟩, ⟨rfl, rfl⟩, fun _ => ⟨rfl, rfl⟩, fun _ _ => ⟨rfl, rfl, rfl⟩,
    fun e => ?_, fun e => ?_⟩
  · have hlt := c.number_lt_six
    constructor <;> bv_omega
  · obtain ⟨hone, hzero⟩ := ofBool_eq_one_and_zero_iff e.session.closed
    exact ⟨hone, hzero, rfl, rfl, rfl⟩
  · obtain ⟨hone, hzero⟩ := ofBool_eq_one_and_zero_iff e.session.closed
    exact ⟨hone, hzero, rfl, rfl, rfl, rfl⟩

end Sys2Proof.Machine
end

section
/-! A byte sink that stops accepting (20_memory.md R44; 60_exceptions.md R171, R179): each rule beside the same rule with a
sink that accepts every byte. The two go side by side, or the first is cut where its sink's bytes end. -/

namespace Sys2Proof.Machine

open Sys2Proof

/-! ### A rule that its sink cuts short, beside one whose sink accepts -/

/-- The session `u` is `t` with the bytes `y` written, whatever its sink is by then. -/
def Session.Wrote (t : Session) (y : ByteSeq) (u : Session) : Prop := ∃ sink, u = { t.acceptAll y with sink := sink }

/-- A rule that began in the session `t` ended in a SinkWrite behind the bytes `y`: at a failed byte (R171), or at one
never answered (R208). -/
def Res.CutBehind {σ α : Type} (session : σ → Session) (t : Session) (y : ByteSeq) : Res σ α → Prop
  | .raise c v e => c = .ioFailure ∧ v = 0 ∧ (t.sink.after y.length).answer = .fail ∧ t.Wrote y (session e)
  | .hang e => (t.sink.after y.length).answer = .silent ∧ t.Wrote y (session e)
  | _ => False

/-- `r'` ends as `r` does, in states related by `R`; or it was cut behind its first `k` bytes, which `r` wrote too. -/
def Res.AlikeOrCut {σ α : Type} (session : σ → Session) (t : Session) (k : Nat) (R : σ → σ → Prop) (r r' : Res σ α) : Prop :=
  r.Alike R r' ∨ ∃ y, y.length = k ∧ r.Leaves (fun e => t.out ++ y <+: (session e).out) ∧ r'.CutBehind session t y

/-- The first of two engines has written at most `k` bytes since the session `t`. -/
def WroteAtMost {σ : Type} (session : σ → Session) (t : Session) (k : Nat) (a _e : σ) : Prop :=
  (session a).out.length ≤ t.out.length + k

section AlikeOrCut

variable {σ α β : Type} {session : σ → Session} {t : Session} {k : Nat} {R Q : σ → σ → Prop}

theorem Res.CutBehind.andThen {y : ByteSeq} {r : Res σ α} {f : α → σ → Res σ β} (h : r.CutBehind session t y) :
    (r.andThen f).CutBehind session t y := by
  cases r with
  | raise | hang => exact h
  | ok | refuse | fault => cases h

theorem Res.AlikeOrCut.mono {r r' : Res σ α} (h : r.AlikeOrCut session t k R r') (hRQ : ∀ a e, R a e → Q a e) :
    r.AlikeOrCut session t k Q r' := by
  refine Or.imp_left (fun halike => ?_) h
  cases halike with
  | ok x hR => exact .ok x (hRQ _ _ hR)
  | raise c v hR => exact .raise c v (hRQ _ _ hR)
  | hang hR => exact .hang (hRQ _ _ hR)
  | refuse q => exact .refuse q
  | fault q => exact .fault q

/-- In sequence, the second rule never taking bytes back from OUT. -/
theorem Res.AlikeOrCut.andThen {r r' : Res σ α} {f : α → σ → Res σ β} (h : r.AlikeOrCut session t k R r')
    (hRQ : ∀ a e, R a e → Q a e)
    (hf : ∀ x a e, r' = .ok x e → R a e → (f x a).AlikeOrCut session t k Q (f x e))
    (hout : ∀ o x a, o <+: (session a).out → (f x a).Leaves fun e => o <+: (session e).out) :
    (r.andThen f).AlikeOrCut session t k Q (r'.andThen f) := by
  rcases h with halike | ⟨y, hy, hleaves, hcut⟩
  · cases halike with
    | ok x h => exact hf x _ _ rfl h
    | raise c v h => exact .inl (.raise c v (hRQ _ _ h))
    | hang h => exact .inl (.hang (hRQ _ _ h))
    | refuse q => exact .inl (.refuse q)
    | fault q => exact .inl (.fault q)
  · exact .inr ⟨y, hy, hleaves.andThen fun x a => hout _ x a, hcut.andThen⟩

end AlikeOrCut

/-! ### SinkWrite with a sink of `k` bytes (R44) -/

theorem Sink.after_add (m n : Nat) (sink : Sink) : sink.after (m + n) = (sink.after m).after n := by
  induction m generalizing sink with
  | zero => rw [Nat.zero_add, Sink.after_zero]
  | succ m ih => rw [Nat.succ_add, Sink.after_succ, Sink.after_succ, ih]

theorem Session.acceptAll_append (t : Session) (as bs : ByteSeq) :
    (t.acceptAll as).acceptAll bs = t.acceptAll (as ++ bs) := by
  induction as generalizing t with
  | nil => rw [Session.acceptAll_nil, List.nil_append]
  | cons a as ih => rw [Session.acceptAll_cons, ih, List.cons_append, Session.acceptAll_cons]

section Limited

variable {t : Session} {k : Nat} (hk : t.sink.acceptsNext k = true) (hans : (t.sink.after k).answer ≠ .accept)
include hk hans

/-- Behind the bytes `y` of the beat a SinkWrite is done, or it is cut where the sink's `k` bytes end. -/
theorem Session.sinkWrite_limited {y : ByteSeq} (hy : y.length ≤ k) (bs : ByteSeq) :
    (y.length + bs.length ≤ k ∧ (t.acceptAll y).sinkWrite bs = (.done, t.acceptAll (y ++ bs))) ∨
    ∃ z u, (y ++ z).length = k ∧ z <+: bs ∧ t.Wrote (y ++ z) u ∧
      (((t.sink.after k).answer = .fail ∧ (t.acceptAll y).sinkWrite bs = (.failed, u)) ∨
       ((t.sink.after k).answer = .silent ∧ (t.acceptAll y).sinkWrite bs = (.silent, u))) := by
  have hsink : (t.acceptAll y).sink = t.sink.after y.length := rfl
  by_cases hle : y.length + bs.length ≤ k
  · have haccepts := Sink.acceptsNext_of_le hle hk
    rw [Sink.acceptsNext_add, Bool.and_eq_true] at haccepts
    rw [← Session.acceptAll_append]
    exact .inl ⟨hle, Session.sinkWrite_accepted bs _ haccepts.2⟩
  · obtain ⟨n, rfl⟩ := Nat.exists_eq_add_of_le hy
    have hn : n < bs.length := by omega
    rw [Sink.acceptsNext_add, Bool.and_eq_true] at hk
    have hlen : (y ++ bs.take n).length = y.length + n := by rw [List.length_append, List.length_take_of_le hn.le]
    rw [Sink.after_add, ← hsink] at hans ⊢
    cases hend : ((t.acceptAll y).sink.after n).answer with
    | accept => exact absurd hend hans
    | fail =>
      have hwrite := Session.sinkWrite_failed hn hk.2 hend
      rw [Session.acceptAll_append] at hwrite
      exact .inr ⟨_, _, hlen, List.take_prefix n bs, ⟨_, rfl⟩, .inl ⟨rfl, hwrite⟩⟩
    | silent =>
      have hwrite := Session.sinkWrite_silent hn hk.2 hend
      rw [Session.acceptAll_append] at hwrite
      exact .inr ⟨_, _, hlen, List.take_prefix n bs, ⟨_, rfl⟩, .inr ⟨rfl, hwrite⟩⟩

end Limited

end Sys2Proof.Machine
end

section
/-! A byte sink that stops accepting, in the rules of CE (45_compressor.md R130 to R134). -/

namespace Sys2Proof.Machine

open Sys2Proof

/-- CE with another byte sink (R202). -/
def CE.attach (sink : Sink) (e : CE) : CE := { e with session := { e.session with sink := sink } }

theorem attachSink_ce (sink : Sink) (s : State) : attachSink .ce sink s = { s with ce := s.ce.attach sink } := rfl

/-- Inside a beat that began in the session `t`, with at most `k` bytes written: `e` to the sink of `t`, and `a` to a sink
that accepts. -/
def CE.Writing (t : Session) (k : Nat) (a e : CE) : Prop :=
  a = e.attach Sink.accepting ∧ ∃ y, y.length ≤ k ∧ e.session = t.acceptAll y

theorem CE.Writing.wroteAtMost {t : Session} {k : Nat} {a e : CE} (h : CE.Writing t k a e) : WroteAtMost CE.session t k a e := by
  obtain ⟨rfl, y, hy, he⟩ := h
  simp only [WroteAtMost, CE.attach, he, Session.acceptAll_out, List.length_append]
  omega

section Cut

variable {t : Session} {k : Nat} (hk : t.sink.acceptsNext k = true) (hans : (t.sink.after k).answer ≠ .accept)
variable {a e : CE}
include hk hans

/-- The two writes end alike, or the sink of `t` ends its own behind `k` bytes in all (R44). -/
theorem CE.Writing.sinkWrite (bs : ByteSeq) (h : CE.Writing t k a e) :
    (a.sinkWrite bs).AlikeOrCut CE.session t k (CE.Writing t k) (e.sinkWrite bs) := by
  obtain ⟨rfl, y, hy, he⟩ := h
  have haccepted := CE.sinkWrite_accepted bs (e.attach Sink.accepting) (Sink.acceptsNext_accepting _)
  rw [haccepted, CE.sinkWrite, he]
  rcases Session.sinkWrite_limited hk hans hy bs with ⟨hle, hw⟩ | ⟨z, u, hlen, hz, hu, ⟨hend, hw⟩ | ⟨hend, hw⟩⟩ <;>
    rw [hw]
  · refine .inl (.ok () ⟨?_, y ++ bs, by rwa [List.length_append], rfl⟩)
    simp [CE.attach, he, Session.acceptAll, Nat.add_assoc]
  · exact .inr ⟨y ++ z, hlen, by simpa [Res.Leaves, CE.attach, he] using hz, rfl, rfl, hlen ▸ hend, hu⟩
  · exact .inr ⟨y ++ z, hlen, by simpa [Res.Leaves, CE.attach, he] using hz, hlen ▸ hend, hu⟩

theorem CE.Writing.bskAppend (v w : Nat) (h : CE.Writing t k a e) :
    (bskAppend v w a).AlikeOrCut CE.session t k (CE.Writing t k) (bskAppend v w e) := by
  obtain ⟨rfl, hwrote⟩ := h
  by_cases hv : v < 2 ^ w
  · rw [bskAppend_eq v w _ hv, bskAppend_eq v w _ hv]
    by_cases hl : (e.bitSink ++ beBits v w).length ≤ 64
    · rw [if_pos hl, if_pos (by exact hl)]
      exact .inl (.ok () ⟨rfl, hwrote⟩)
    · rw [if_neg hl, if_neg (by exact hl)]
      exact CE.Writing.sinkWrite hk hans _ ⟨rfl, hwrote⟩
  · rw [Machine.bskAppend, Machine.bskAppend, if_pos (Nat.not_lt.mp hv), if_pos (Nat.not_lt.mp hv)]
    exact .inl (.refuse _)

theorem CE.Writing.bskDrain (h : CE.Writing t k a e) :
    (bskDrain a).AlikeOrCut CE.session t k (CE.Writing t k) (bskDrain e) := by
  obtain ⟨rfl, hwrote⟩ := h
  exact CE.Writing.sinkWrite hk hans _ ⟨rfl, hwrote⟩

theorem CE.Writing.appendTransaction (v w : Nat) (b : Byte) (h : CE.Writing t k a e) :
    (appendTransaction v w b a).AlikeOrCut CE.session t k (CE.Writing t k) (appendTransaction v w b e) :=
  (h.bskAppend hk hans v w).andThen (fun _ _ h => h) (fun _ _ _ _ h1 => h1.bskAppend hk hans _ _)
    fun o _ _ ho => (CE.stable_out_prefix o).bskAppend _ _ ho

theorem CE.Writing.cStep (b : Byte) (h : CE.Writing t k a e) :
    (cStep b a).AlikeOrCut CE.session t k (WroteAtMost CE.session t k) (cStep b e) := by
  obtain ⟨rfl, hwrote⟩ := h
  have hextend : CE.Writing t k ((e.attach Sink.accepting).extend b) (e.extend b) := ⟨rfl, hwrote⟩
  cases hl : edLookup e.encDict (e.pending ++ [b]) with
  | some c =>
    rw [cStep_match hl, cStep_match (e := e.attach Sink.accepting) hl]
    exact .inl (.ok () hextend.wroteAtMost)
  | none =>
    cases hm : codeInc e.maxCode with
    | none =>
      have htop := codeInc_eq_none hm
      rw [cStep_exhausted hl htop, cStep_exhausted (e := e.attach Sink.accepting) hl htop]
      exact .inl (.raise _ _ hextend.wroteAtMost)
    | some m =>
      rw [cStep_mint hl hm, cStep_mint (e := e.attach Sink.accepting) hl hm, cEmit_eq, cEmit_eq]
      have hminted : CE.Writing t k (((e.attach Sink.accepting).extend b).mint m) ((e.extend b).mint m) := ⟨rfl, hwrote⟩
      exact (hminted.appendTransaction hk hans _ _ b).andThen (fun _ _ => CE.Writing.wroteAtMost)
        (fun _ _ _ _ h1 => .inl (.ok () h1.wroteAtMost)) fun _ _ _ ho => ho

theorem CE.Writing.cTail (h : CE.Writing t k a e) :
    (cTail a).AlikeOrCut CE.session t k (CE.Writing t k) (cTail e) := by
  have happend := h.bskAppend hk hans (edCodeOf a.encDict a.pending).toNat a.tailWidth
  obtain ⟨rfl, hwrote⟩ := h
  by_cases hp : e.pending = []
  · rw [Machine.cTail, Machine.cTail, if_pos hp, if_pos (by exact hp)]
    exact .inl (.ok () ⟨rfl, hwrote⟩)
  · rw [Machine.cTail, Machine.cTail, if_neg hp, if_neg (by exact hp)]
    exact happend

theorem CE.Writing.cFinalizeBody (h : CE.Writing t k a e) :
    (cFinalizeBody a).AlikeOrCut CE.session t k (WroteAtMost CE.session t k) (cFinalizeBody e) := by
  refine (h.cTail hk hans).andThen (fun _ _ => CE.Writing.wroteAtMost) (fun _ _ _ _ h1 => ?_) fun o _ a1 ho => ?_
  · exact (h1.bskDrain hk hans).andThen (fun _ _ => CE.Writing.wroteAtMost)
      (fun _ _ _ _ h2 => .inl (.ok () h2.wroteAtMost)) fun _ _ _ ho => ho
  · have hdrain : (Machine.bskDrain a1).Leaves fun e => o <+: e.session.out := (CE.stable_out_prefix o).sinkWrite _ ho
    exact hdrain.andThen fun _ _ ho => ho

end Cut

/-- Every body of a beat of CE, beside the same body with a sink that accepts: alike within the sink's `k` bytes, or cut
behind them. -/
theorem CEBody.alikeOrCut {answered : Bool} {body : CE → Res CE Unit} (hbody : CEBody answered body) {e : CE} {k : Nat}
    (hk : e.session.sink.acceptsNext k = true) (hans : (e.session.sink.after k).answer ≠ .accept) :
    (body (e.attach Sink.accepting)).AlikeOrCut CE.session e.session k (WroteAtMost CE.session e.session k) (body e) := by
  have hstart : CE.Writing e.session k (e.attach Sink.accepting) e :=
    ⟨rfl, [], Nat.zero_le k, (Session.acceptAll_nil _).symm⟩
  cases hbody with
  | data b => exact hstart.cStep hk hans b
  | endcall => exact .inl (.ok () hstart.wroteAtMost)
  | finalize => exact hstart.cFinalizeBody hk hans
  | reserved => exact .inl (.raise _ _ hstart.wroteAtMost)

end Sys2Proof.Machine
end

section
/-! A byte sink that stops accepting, in the rules of DE (46_decompressor.md R151 to R156). -/

namespace Sys2Proof.Machine

open Sys2Proof

/-- DE with another byte sink (R202). -/
def DE.attach (sink : Sink) (e : DE) : DE := { e with session := { e.session with sink := sink } }

theorem attachSink_de (sink : Sink) (s : State) : attachSink .de sink s = { s with de := s.de.attach sink } := rfl

/-- Inside a beat that began in the session `t`, with at most `k` bytes written: `e` to the sink of `t`, and `a` to a sink
that accepts. -/
def DE.Writing (t : Session) (k : Nat) (a e : DE) : Prop :=
  a = e.attach Sink.accepting ∧ ∃ y, y.length ≤ k ∧ e.session = t.acceptAll y

theorem DE.Writing.wroteAtMost {t : Session} {k : Nat} {a e : DE} (h : DE.Writing t k a e) :
    WroteAtMost DE.session t k a e := by
  obtain ⟨rfl, y, hy, he⟩ := h
  simp only [WroteAtMost, DE.attach, he, Session.acceptAll_out, List.length_append]
  omega

/-- What D.DRIVE does behind a step of the state machine (R153). -/
def driveOn : Progress → DE → Res DE Unit
  | .progress, e => dDrive e
  | .stall, e => .ok () e

theorem dDrive_eq_andThen (e : DE) : dDrive e = (dStep e).andThen driveOn := by
  rw [dDrive_eq]
  rcases dStep_ends e with ⟨e', he⟩ | he | ⟨c, v, e', he⟩ | ⟨e', he⟩ <;> rw [he] <;> rfl

theorem DE.Stable.driveOn {P : DE → Prop} (hP : DE.Stable P) (p : Progress) {e : DE} (h : P e) :
    (driveOn p e).Leaves P := by
  cases p with
  | progress => exact hP.dDrive h
  | stall => exact h

section Cut

variable {t : Session} {k : Nat} (hk : t.sink.acceptsNext k = true) (hans : (t.sink.after k).answer ≠ .accept)
variable {a e : DE}
include hk hans

/-- The two writes end alike, or the sink of `t` ends its own behind `k` bytes in all (R44). -/
theorem DE.Writing.sinkWrite (bs : ByteSeq) (h : DE.Writing t k a e) :
    (a.sinkWrite bs).AlikeOrCut DE.session t k (DE.Writing t k) (e.sinkWrite bs) := by
  obtain ⟨rfl, y, hy, he⟩ := h
  have haccepted := DE.sinkWrite_accepted bs (e.attach Sink.accepting) (Sink.acceptsNext_accepting _)
  rw [haccepted, DE.sinkWrite, he]
  rcases Session.sinkWrite_limited hk hans hy bs with ⟨hle, hw⟩ | ⟨z, u, hlen, hz, hu, ⟨hend, hw⟩ | ⟨hend, hw⟩⟩ <;>
    rw [hw]
  · refine .inl (.ok () ⟨?_, y ++ bs, by rwa [List.length_append], rfl⟩)
    simp [DE.attach, he, Session.acceptAll, Nat.add_assoc]
  · exact .inr ⟨y ++ z, hlen, by simpa [Res.Leaves, DE.attach, he] using hz, rfl, rfl, hlen ▸ hend, hu⟩
  · exact .inr ⟨y ++ z, hlen, by simpa [Res.Leaves, DE.attach, he] using hz, hlen ▸ hend, hu⟩

theorem DE.Writing.dCodeValue (v : Nat) (h : DE.Writing t k a e) :
    (dCodeValue v a).AlikeOrCut DE.session t k (DE.Writing t k) (dCodeValue v e) := by
  have hdict : a.decDict = e.decDict := by rw [h.1]; rfl
  unfold Machine.dCodeValue
  rw [hdict]
  split
  · exact .inl (.raise _ _ h)
  · exact (h.sinkWrite hk hans _).andThen (fun _ _ h => h)
      (fun _ _ _ _ ⟨h1, hwrote⟩ => .inl (.ok _ ⟨h1 ▸ rfl, hwrote⟩)) fun _ _ _ ho => ho

theorem DE.Writing.dByteValue (b : Byte) (h : DE.Writing t k a e) :
    (dByteValue b a).AlikeOrCut DE.session t k (DE.Writing t k) (dByteValue b e) := by
  have hmax : a.maxCode = e.maxCode := by rw [h.1]; rfl
  unfold Machine.dByteValue
  rw [hmax]
  split
  · exact .inl (.raise _ _ h)
  · next m _ =>
    have hminted : DE.Writing t k (a.mint m b) (e.mint m b) := ⟨h.1 ▸ rfl, h.2⟩
    exact (hminted.sinkWrite hk hans _).andThen (fun _ _ h => h)
      (fun _ _ _ _ ⟨h1, hwrote⟩ => .inl (.ok _ ⟨h1 ▸ rfl, hwrote⟩)) fun _ _ _ ho => ho

theorem DE.Writing.dStep (h : DE.Writing t k a e) :
    (dStep a).AlikeOrCut DE.session t k (DE.Writing t k) (dStep e) := by
  obtain ⟨rfl, hwrote⟩ := h
  have htaken : ∀ q, DE.Writing t k { e.attach Sink.accepting with bitSource := q } { e with bitSource := q } :=
    fun _ => ⟨rfl, hwrote⟩
  by_cases hshort : e.bitSource.length < e.awaitedWidth
  · rw [dStep_stall_of_short hshort, dStep_stall_of_short (e := e.attach Sink.accepting) hshort]
    exact .inl (.ok _ ⟨rfl, hwrote⟩)
  · have hlong := Nat.not_lt.mp hshort
    cases hd : e.dstate with
    | expectingCode =>
      rw [DE.awaitedWidth_code hd] at hlong
      have hstep : Machine.dStep e = dCode e := by rw [Machine.dStep, hd]
      have hstep' : Machine.dStep (e.attach Sink.accepting) = dCode (e.attach Sink.accepting) := by
        rw [Machine.dStep, show (e.attach Sink.accepting).dstate = _ from hd]
      rw [hstep, hstep', dCode_take e hlong, dCode_take (e.attach Sink.accepting) hlong]
      exact (htaken _).dCodeValue hk hans _
    | expectingByte =>
      rw [DE.awaitedWidth_byte hd] at hlong
      have hstep : Machine.dStep e = dByte e := by rw [Machine.dStep, hd]
      have hstep' : Machine.dStep (e.attach Sink.accepting) = dByte (e.attach Sink.accepting) := by
        rw [Machine.dStep, show (e.attach Sink.accepting).dstate = _ from hd]
      rw [hstep, hstep', dByte_take e hlong, dByte_take (e.attach Sink.accepting) hlong]
      exact (htaken _).dByteValue hk hans _

/-- A drive goes on alike from step to step until one is cut (R153). -/
theorem DE.Writing.dDrive (h : DE.Writing t k a e) :
    (dDrive a).AlikeOrCut DE.session t k (DE.Writing t k) (dDrive e) := by
  induction e using dDrive_steps_induction generalizing a with
  | step e ih =>
    rw [dDrive_eq_andThen, dDrive_eq_andThen]
    refine (h.dStep hk hans).andThen (fun _ _ h => h) (fun p a1 e1 he1 h1 => ?_) fun o p _ ho =>
      (DE.stable_out_prefix o).driveOn p ho
    cases p with
    | progress => exact ih e1 he1 h1
    | stall => exact .inl (.ok _ h1)

end Cut

/-- Every body of a beat of DE, beside the same body with a sink that accepts: alike within the sink's `k` bytes, or cut
behind them. -/
theorem DEBody.alikeOrCut {answered : Bool} {body : DE → Res DE Unit} (hbody : DEBody answered body) {e : DE} {k : Nat}
    (hk : e.session.sink.acceptsNext k = true) (hans : (e.session.sink.after k).answer ≠ .accept) :
    (body (e.attach Sink.accepting)).AlikeOrCut DE.session e.session k (WroteAtMost DE.session e.session k) (body e) := by
  have hstart : DE.Writing e.session k (e.attach Sink.accepting) e :=
    ⟨rfl, [], Nat.zero_le k, (Session.acceptAll_nil _).symm⟩
  cases hbody with
  | receive bits =>
    have hpushed : DE.Writing e.session k (bsrPushBits bits (e.attach Sink.accepting)) (bsrPushBits bits e) :=
      ⟨rfl, hstart.2⟩
    exact Res.AlikeOrCut.mono (hpushed.dDrive hk hans) fun _ _ => DE.Writing.wroteAtMost
  | endcall => exact .inl (.ok () hstart.wroteAtMost)
  | finalize => exact .inl (.ok () hstart.wroteAtMost)
  | reserved => exact .inl (.raise _ _ hstart.wroteAtMost)

end Sys2Proof.Machine
end

section
/-! A byte sink that fails in a beat of either engine (60_exceptions.md R171, R179): what the beat leaves, and the bytes that
C.DATA, C.FINALIZE, a code field and a literal have written by then. -/

namespace Sys2Proof.Machine

open Sys2Proof

/-! ### A body that writes more than its sink accepts -/

/-- The state in which a rule ended, unless it was refused. -/
def Res.endState {σ α : Type} : Res σ α → Option σ
  | .ok _ e => some e
  | .raise _ _ e => some e
  | .hang e => some e
  | _ => none

section EndState

variable {σ α : Type} {r r' : Res σ α} {a : σ} (ha : r.endState = some a)
include ha

theorem Res.Leaves.endState {P : σ → Prop} (h : r.Leaves P) : P a := by
  cases r with
  | ok | hang =>
    cases ha
    exact h
  | raise =>
    cases ha
    exact h.2
  | refuse | fault => cases ha

theorem Res.Alike.endState {R : σ → σ → Prop} (h : r.Alike R r') : ∃ e, R a e := by
  cases h with
  | ok _ h | raise _ _ h | hang h =>
    cases ha
    exact ⟨_, h⟩
  | refuse | fault => cases ha

/-- Where `r` wrote the bytes `x`, more than the sink of `r'` accepts, `r'` was cut behind the first `k` of them. -/
theorem Res.AlikeOrCut.cutBehind_take {session : σ → Session} {t : Session} {k : Nat} {x : ByteSeq}
    (h : r.AlikeOrCut session t k (WroteAtMost session t k) r') (hout : (session a).out = t.out ++ x)
    (hlt : k < x.length) : r'.CutBehind session t (x.take k) := by
  rcases h with halike | ⟨y, rfl, hprefix, hcut⟩
  · obtain ⟨_, hle⟩ := halike.endState ha
    rw [WroteAtMost, hout, List.length_append] at hle
    omega
  · have hy := hprefix.endState ha
    rw [hout, List.prefix_append_right_inj] at hy
    rwa [← List.prefix_iff_eq_take.mp hy]

end EndState

/-! ### A beat cut short by its sink -/

section CE

variable {answered : Bool} {body : CE → Res CE Unit} {e e' : CE} {x : ByteSeq} {k : Nat}

/-- A beat of CE that writes is let through by the gate, and OUT is what its body leaves. -/
theorem CE.beat_writes (h : e.beat answered body = .next e') (hout : e'.session.out = e.session.out ++ x) (hx : x ≠ []) :
    e.session.isOpen ∧ ∃ a, (body e).endState = some a ∧ a.session.out = e'.session.out := by
  obtain ⟨hhung, ⟨_, rfl⟩ | ⟨_, _, rfl⟩ | ⟨hfault, hclosed, hend⟩⟩ := CE.beat_next h
  · simp [hx] at hout
  · simp [hx] at hout
  · refine ⟨⟨⟨hfault, hhung⟩, hclosed⟩, ?_⟩
    obtain hok | ⟨c, v, e1, hraise, rfl⟩ | ⟨e1, hhang, rfl⟩ := hend
    · exact ⟨e', congrArg _ hok, rfl⟩
    · exact ⟨e1, congrArg _ hraise, (CE.takeFault_out ..).symm⟩
    · exact ⟨e1, congrArg _ hhang, rfl⟩

/-- Where the beat with a sink that accepts writes `x`, the beat with a sink of `k` bytes is cut behind `x.take k`. -/
theorem CE.beat_cutBehind (hbody : CEBody answered body) (h : (e.attach Sink.accepting).beat answered body = .next e')
    (hout : e'.session.out = e.session.out ++ x) (hlt : k < x.length) (hk : e.session.sink.acceptsNext k = true)
    (hans : (e.session.sink.after k).answer ≠ .accept) :
    e.session.isOpen ∧ (body e).CutBehind CE.session e.session (x.take k) := by
  obtain ⟨hopen, a, ha, haout⟩ := CE.beat_writes h hout (List.ne_nil_of_length_pos (Nat.zero_lt_of_lt hlt))
  exact ⟨hopen, (hbody.alikeOrCut hk hans).cutBehind_take ha (haout.trans hout) hlt⟩

end CE

section DE

variable {answered : Bool} {body : DE → Res DE Unit} {e e' : DE} {x : ByteSeq} {k : Nat}

/-- A beat of DE that writes is let through by the gate, and OUT is what its body leaves. -/
theorem DE.beat_writes (h : e.beat answered body = .next e') (hout : e'.session.out = e.session.out ++ x) (hx : x ≠ []) :
    e.session.isOpen ∧ ∃ a, (body e).endState = some a ∧ a.session.out = e'.session.out := by
  obtain ⟨hhung, ⟨_, rfl⟩ | ⟨_, _, rfl⟩ | ⟨hfault, hclosed, hend⟩⟩ := DE.beat_next h
  · simp [hx] at hout
  · simp [hx] at hout
  · refine ⟨⟨⟨hfault, hhung⟩, hclosed⟩, ?_⟩
    obtain hok | ⟨c, v, e1, hraise, rfl⟩ | ⟨e1, hhang, rfl⟩ := hend
    · exact ⟨e', congrArg _ hok, rfl⟩
    · exact ⟨e1, congrArg _ hraise, (DE.takeFault_out ..).symm⟩
    · exact ⟨e1, congrArg _ hhang, rfl⟩

/-- Where the beat with a sink that accepts writes `x`, the beat with a sink of `k` bytes is cut behind `x.take k`. -/
theorem DE.beat_cutBehind (hbody : DEBody answered body) (h : (e.attach Sink.accepting).beat answered body = .next e')
    (hout : e'.session.out = e.session.out ++ x) (hlt : k < x.length) (hk : e.session.sink.acceptsNext k = true)
    (hans : (e.session.sink.after k).answer ≠ .accept) :
    e.session.isOpen ∧ (body e).CutBehind DE.session e.session (x.take k) := by
  obtain ⟨hopen, a, ha, haout⟩ := DE.beat_writes h hout (List.ne_nil_of_length_pos (Nat.zero_lt_of_lt hlt))
  exact ⟨hopen, (hbody.alikeOrCut hk hans).cutBehind_take ha (haout.trans hout) hlt⟩

end DE

/-- A rule cut by a sink that fails raises IoFailure (R171). -/
theorem Res.CutBehind.raise_of_fail {σ : Type} {session : σ → Session} {t : Session} {x : ByteSeq} {k : Nat} {r : Res σ Unit}
    (h : r.CutBehind session t (x.take k)) (hlt : k < x.length) (hans : (t.sink.after k).answer = .fail) :
    ∃ e, r = .raise .ioFailure 0 e ∧ t.Wrote (x.take k) (session e) := by
  rw [← List.length_take_of_le hlt.le] at hans
  cases r with
  | raise c v e =>
    obtain ⟨rfl, rfl, _, hwrote⟩ := h
    exact ⟨e, rfl, hwrote⟩
  | hang => cases hans.symm.trans h.1
  | ok | refuse | fault => cases h

/-! ### An instruction whose sink fails -/

section Exec

variable {i : Instr} {s t : State} {x : ByteSeq} {k : Nat}

theorem onCE_beat_of_raise {a : Bool} {body : CE → Res CE Unit} {c : Cause} {v : BitVec 16} {e : CE}
    (hopen : s.ce.session.isOpen) (hraise : body s.ce = .raise c v e) :
    onCE (CE.beat a body) s = .next { s with ce := e.takeFault a c v } := by
  obtain ⟨⟨hfault, hhung⟩, hclosed⟩ := hopen
  refine onCE_next.mpr ⟨_, ?_, rfl⟩
  rw [CE.beat_admitted hhung hfault hclosed, hraise, CE.finish]

theorem exec_ce_failed (hport : i.port = .ce) (h : exec i (attachSink .ce Sink.accepting s) = .next t)
    (hout : t.ce.session.out = s.ce.session.out ++ x) (hlt : k < x.length)
    (hk : s.ce.session.sink.acceptsNext k = true) (hans : (s.ce.session.sink.after k).answer = .fail) :
    ∃ u, exec i s = .next u ∧ s.ce.session.failedFrom i.answered u.ce.session ∧
      u.ce.session.out = s.ce.session.out ++ x.take k ∧ sameElsewhere .ce s u := by
  obtain ⟨body, hbody, hexec⟩ := exec_eq_ce_beat hport
  rw [hexec, attachSink_ce, onCE_next] at h
  obtain ⟨e', hbeat, rfl⟩ := h
  obtain ⟨hopen, hcut⟩ := CE.beat_cutBehind hbody hbeat hout hlt hk (by simp [hans])
  obtain ⟨e, hraise, sink, hwrote⟩ := hcut.raise_of_fail hlt hans
  refine ⟨_, (hexec s).trans (onCE_beat_of_raise hopen hraise), ⟨?_, ?_, ?_⟩, ?_, rfl, fun _ => rfl, nofun⟩
  all_goals simp [hwrote]

theorem exec_de_failed (hport : i.port = .de) (h : exec i (attachSink .de Sink.accepting s) = .next t)
    (hout : t.de.session.out = s.de.session.out ++ x) (hlt : k < x.length)
    (hk : s.de.session.sink.acceptsNext k = true) (hans : (s.de.session.sink.after k).answer = .fail) :
    ∃ u, exec i s = .next u ∧ s.de.session.failedFrom i.answered u.de.session ∧
      u.de.session.out = s.de.session.out ++ x.take k ∧ sameElsewhere .de s u := by
  obtain ⟨body, hbody, hexec⟩ := exec_eq_de_beat hport
  rw [hexec, attachSink_de, onDE_next] at h
  obtain ⟨e', hbeat, rfl⟩ := h
  obtain ⟨hopen, hcut⟩ := DE.beat_cutBehind hbody hbeat hout hlt hk (by simp [hans])
  obtain ⟨e, hraise, sink, hwrote⟩ := hcut.raise_of_fail hlt hans
  refine ⟨_, (hexec s).trans (onDE_beat_of_raise hopen hraise), ⟨?_, ?_, ?_⟩, ?_, rfl, nofun, fun _ => rfl⟩
  all_goals simp [hwrote]

end Exec

/-! ### Byte by byte (R130, R134, R151, R152) -/

/-- The bits of the first bytes of a stream. -/
theorem unpack8_take_of_le {x : ByteSeq} {k : Nat} (h : k ≤ x.length) (q : Bits) :
    unpack8 (x.take k) = (unpack8 x ++ q).take (8 * k) := by
  have hlen : (unpack8 (x.take k)).length = 8 * k := by rw [length_unpack8, List.length_take_of_le h]
  conv_rhs => rw [← List.take_append_drop k x, unpack8_append, List.append_assoc]
  exact (List.take_left' hlen).symm

/-- C.DATA in its flush: the transaction's 64 oldest bits, as far as the sink takes them (R91, R130). -/
theorem cData_failed {s : State} {b : Byte} {k : Nat} (hopen : s.ce.session.isOpen) (hr : s.ce.regular)
    (hmax : s.ce.maxCode.toNat < 65535) (hnew : edLookup s.ce.encDict (s.ce.pending ++ [b]) = none)
    (hflush : 64 < s.ce.bitSink.length + minBits s.ce.maxCode + 8) (hlt : k < 8)
    (hk : s.ce.session.sink.acceptsNext k = true) (hans : (s.ce.session.sink.after k).answer = .fail) :
    ∃ t, exec (.cData b) s = .next t ∧ s.ce.session.failedFrom false t.ce.session ∧
      (∃ c : Code, ((s.ce.pending = [] ∧ c = 0) ∨ (s.ce.pending ≠ [] ∧ edLookup s.ce.encDict s.ce.pending = some c)) ∧
        unpack8 t.ce.session.out = unpack8 s.ce.session.out ++
          (s.ce.bitSink ++ beBits c.toNat (minBits s.ce.maxCode) ++ beBits b.toNat 8).take (8 * k)) ∧
      sameElsewhere .ce s t := by
  obtain ⟨t, ht, _, _, _, ⟨c, hc, hstream⟩, _, hbytes, _⟩ :=
    newSequenceEmitsATransaction b (attachSink .ce Sink.accepting s) hopen hr hmax hnew (Sink.acceptsNext_accepting 8)
  obtain ⟨x, _, hx, _⟩ := outIsAppendOnly _ _ _ ht
  have hlen : x.length = 8 := by
    have hgrown := hbytes hflush
    rw [hx, List.length_append] at hgrown
    omega
  obtain ⟨u, hu, hfailed, hout, hsame⟩ := exec_ce_failed rfl ht hx (hlen ▸ hlt) hk hans
  have hanswered : Instr.answered (.cData b) = false := by simp [Instr.answered, encode]
  refine ⟨u, hu, hanswered ▸ hfailed, ⟨c, hc, ?_⟩, hsame⟩
  rw [hx, unpack8_append] at hstream
  simp only [List.append_assoc] at hstream ⊢
  rw [hout, unpack8_append, unpack8_take_of_le (hlen ▸ hlt.le) t.ce.bitSink, List.append_cancel_left hstream]
  rfl

/-- C.FINALIZE: the queue, the tail code and the pad, as far as the sink takes them (R92, R134). -/
theorem cFinalize_failed {s : State} {k : Nat} (hopen : s.ce.session.isOpen) (hr : s.ce.regular)
    (hlt : 8 * k < s.ce.bitSink.length + (if s.ce.pending = [] then 0 else minBits s.ce.maxCode))
    (hk : s.ce.session.sink.acceptsNext k = true) (hans : (s.ce.session.sink.after k).answer = .fail) :
    ∃ t, exec .cFinalize s = .next t ∧ s.ce.session.failedFrom true t.ce.session ∧
      (∃ tail : Bits,
        ((s.ce.pending = [] ∧ tail = []) ∨
         (s.ce.pending ≠ [] ∧ ∃ c, edLookup s.ce.encDict s.ce.pending = some c ∧
            tail = beBits c.toNat (minBits s.ce.maxCode))) ∧
        unpack8 t.ce.session.out = unpack8 s.ce.session.out ++
          (s.ce.bitSink ++ tail ++ zeros ((8 - (s.ce.bitSink ++ tail).length % 8) % 8)).take (8 * k)) ∧
      sameElsewhere .ce s t := by
  obtain ⟨t, ht, ⟨tail, htail, hstream⟩, _⟩ :=
    finalizeWritesTailAndPad (attachSink .ce Sink.accepting s) hopen hr (Sink.acceptsNext_accepting 16)
  obtain ⟨x, _, hx, _⟩ := outIsAppendOnly _ _ _ ht
  rw [hx, unpack8_append] at hstream
  simp only [List.append_assoc] at hstream
  have hbits : unpack8 x = s.ce.bitSink ++ (tail ++ zeros ((8 - (s.ce.bitSink ++ tail).length % 8) % 8)) :=
    List.append_cancel_left hstream
  have htailLen : tail.length = if s.ce.pending = [] then 0 else minBits s.ce.maxCode := by
    rcases htail with ⟨hp, rfl⟩ | ⟨hp, c, _, _, rfl⟩
    · rw [if_pos (by exact hp), List.length_nil]
    · rw [if_neg (by exact hp), length_beBits]
      rfl
  have hxk : k < x.length := by
    have hlen := congrArg List.length hbits
    simp only [length_unpack8, List.length_append, htailLen] at hlen
    omega
  obtain ⟨u, hu, hfailed, hout, hsame⟩ := exec_ce_failed rfl ht hx hxk hk hans
  refine ⟨u, hu, hfailed, ⟨tail, ?_, ?_⟩, hsame⟩
  · exact htail.imp_right fun ⟨hp, c, hc, _, hcode⟩ => ⟨hp, c, hc, hcode⟩
  · rw [hout, unpack8_append, unpack8_take_of_le hxk.le [], List.append_nil, hbits,
      List.append_assoc s.ce.bitSink tail]

/-- A CODE or TAIL field: its expansion, as far as the sink takes it (R151). -/
theorem codeField_failed {i : Instr} {w v : Nat} {s : State} {seq : ByteSeq} {k : Nat} (hi : i.codeField = some (w, v))
    (hopen : s.de.session.isOpen) (hd : s.de.dstate = .expectingCode) (hq : s.de.bitSource = [])
    (hw : minBits s.de.maxCode = w) (hseq : ddLookup s.de.decDict (BitVec.ofNat 16 v) = some seq) (hlt : k < seq.length)
    (hk : s.de.session.sink.acceptsNext k = true) (hans : (s.de.session.sink.after k).answer = .fail) :
    ∃ t, exec i s = .next t ∧ s.de.session.failedFrom false t.de.session ∧
      t.de.session.out = s.de.session.out ++ seq.take k ∧ sameElsewhere .de s t := by
  obtain ⟨_, kind, henc⟩ := encode_of_codeField hi
  have hport : i.port = .de := by rw [Instr.port, henc]; rfl
  have hanswered : i.answered = false := by rw [Instr.answered, henc]
  have hexec := codeFieldWritesItsExpansion i w v (attachSink .de Sink.accepting s) seq hi hopen hd hq hw hseq
    (Sink.acceptsNext_accepting _)
  exact hanswered ▸ exec_de_failed hport hexec rfl hlt hk hans

/-- A LITERAL: its one byte is not written (R152). -/
theorem literal_failed {s : State} {b : Byte} (hopen : s.de.session.isOpen) (hd : s.de.dstate = .expectingByte)
    (hq : s.de.bitSource = []) (hm : s.de.maxCode.toNat < 65535) (hans : s.de.session.sink.answer = .fail) :
    ∃ t, exec (.literal b) s = .next t ∧ s.de.session.failedFrom false t.de.session ∧
      t.de.session.out = s.de.session.out ∧ sameElsewhere .de s t := by
  have hbody : dReceive (beBits b.toNat 8) (s.de.attach Sink.accepting)
      = .ok () ((s.de.attach Sink.accepting).afterLiteral b []) :=
    (dDrive_literal (e := bsrPushBits _ (s.de.attach Sink.accepting)) (r := []) hd (by simp [DE.attach, hq]) hm rfl).trans
      (DE.afterLiteral_stalls (minBits_pos (toNat_add_one_of_lt hm ▸ Nat.le_add_left 1 _)))
  have hexec := onDE_beat_of_ok (a := false) (s := attachSink .de Sink.accepting s) hopen hbody
  have hfailed := exec_de_failed (i := .literal b) (s := s) (x := [b]) (k := 0) rfl hexec rfl Nat.zero_lt_one rfl hans
  rwa [List.take_zero, List.append_nil] at hfailed

/-- Settles O24: every body goes as it does with a sink that accepts until its sink fails; the bytes are those that the
instruction writes where it succeeds. -/
theorem sinkFailureLatchesIoFailure : Obligations.SinkFailureLatchesIoFailure := by
  refine ⟨fun i s t x k h hout hlt hk hans => ?_, fun _ _ _ => cData_failed, fun _ _ => cFinalize_failed,
    fun _ _ _ _ _ _ => codeField_failed, fun _ _ => literal_failed⟩
  cases hport : i.port with
  | ce =>
    rw [hport] at h hout hk hans
    exact exec_ce_failed hport h hout hlt hk hans
  | de =>
    rw [hport] at h hout hk hans
    exact exec_de_failed hport h hout hlt hk hans

end Sys2Proof.Machine
end

section
/-! Reset (70_reset_and_hazards.md R200, R201): the values it gives, and the step that applies it to one engine between beats. -/

namespace Sys2Proof.Machine

open Sys2Proof

@[simp] theorem State.reset_ce : State.reset.ce = CE.fresh Sink.accepting 0 := rfl
@[simp] theorem State.reset_de : State.reset.de = DE.fresh Sink.accepting 0 := rfl

/-- Settles O8: both engines are fresh, and each register of a fresh engine is read off. -/
theorem resetValues : Obligations.ResetValues := by
  simp [Obligations.ResetValues]

/-- A step that picks a reset applies it. -/
theorem step_of_pickEvent_reset {s : State} {p : Port} {rest : List HostEvent}
    (hpick : pickEvent s s.host = some (.reset p, rest)) : step s = .next (resetEngine p { s with host := rest }) := by
  simp [step, fetch, hpick]

/-- A reset at the head of the pending events is applied where its engine is between beats. -/
theorem step_of_reset {s : State} {p : Port} {rest : List HostEvent} (hhost : s.host = .reset p :: rest)
    (hhung : (s.sessionAt p).hung = false) : step s = .next (resetEngine p { s with host := rest }) := by
  have hpick : pickEvent s (.reset p :: rest) = some (.reset p, rest) := pickEvent_cons_of_not_hung rest hhung
  exact step_of_pickEvent_reset (hhost ▸ hpick)

/-- Settles O9: the reset is picked, and makes its engine fresh. -/
theorem resetStartsANewSession : Obligations.ResetStartsANewSession :=
  fun _ _ => ⟨fun hhost hhung => ⟨_, step_of_reset hhost hhung⟩, fun hhost hhung => ⟨_, step_of_reset hhost hhung⟩⟩

end Sys2Proof.Machine
end

section
/-! A byte sink that never answers (70_reset_and_hazards.md R208): the beat it holds, and that the host has no move on a held
engine (R67, R207). -/

namespace Sys2Proof.Machine

open Sys2Proof

/-! ### A beat whose sink never answers -/

/-- A rule cut by a sink that never answers is held in its SinkWrite. -/
theorem Res.CutBehind.hang_of_silent {σ : Type} {session : σ → Session} {t : Session} {x : ByteSeq} {k : Nat} {r : Res σ Unit}
    (h : r.CutBehind session t (x.take k)) (hlt : k < x.length) (hans : (t.sink.after k).answer = .silent) :
    ∃ e, r = .hang e ∧ t.Wrote (x.take k) (session e) := by
  rw [← List.length_take_of_le hlt.le] at hans
  cases r with
  | hang e => exact ⟨e, rfl, h.2⟩
  | raise =>
    obtain ⟨_, _, hfail, _⟩ := h
    cases hans.symm.trans hfail
  | ok | refuse | fault => cases h

/-- What a held engine shows of its session: `u` is `t` with the first `k` bytes of `x` written, and the mark (R208). -/
theorem Session.Wrote.heldFrom {t u : Session} {x : ByteSeq} {k : Nat} (h : t.Wrote (x.take k) u) (hlt : k < x.length) :
    t.heldFrom { u with hung := true } ∧ u.out = t.out ++ x.take k ∧ u.callCount = t.callCount + k := by
  obtain ⟨sink, rfl⟩ := h
  exact ⟨⟨rfl, rfl, rfl, rfl, rfl⟩, rfl, by simp [List.length_take_of_le hlt.le]⟩

section Exec

variable {i : Instr} {s t : State} {x : ByteSeq} {k : Nat}

theorem exec_ce_held (hport : i.port = .ce) (h : exec i (attachSink .ce Sink.accepting s) = .next t)
    (hout : t.ce.session.out = s.ce.session.out ++ x) (hlt : k < x.length)
    (hk : s.ce.session.sink.acceptsNext k = true) (hans : (s.ce.session.sink.after k).answer = .silent) :
    ∃ u, exec i s = .next u ∧ s.ce.session.heldFrom u.ce.session ∧ u.ce.session.out = s.ce.session.out ++ x.take k ∧
      u.ce.session.callCount = s.ce.session.callCount + k ∧ sameElsewhere .ce s u := by
  obtain ⟨body, hbody, hexec⟩ := exec_eq_ce_beat hport
  rw [hexec, attachSink_ce, onCE_next] at h
  obtain ⟨e', hbeat, rfl⟩ := h
  obtain ⟨⟨⟨hfault, hhung⟩, hclosed⟩, hcut⟩ := CE.beat_cutBehind hbody hbeat hout hlt hk (by simp [hans])
  obtain ⟨e, hhang, hwrote⟩ := hcut.hang_of_silent hlt hans
  obtain ⟨hheld, hheldOut, hcount⟩ := hwrote.heldFrom hlt
  have hnext : s.ce.beat i.answered body = .next { e with session := { e.session with hung := true } } := by
    rw [CE.beat_admitted hhung hfault hclosed, hhang, CE.finish]
  exact ⟨_, (hexec s).trans (onCE_next.mpr ⟨_, hnext, rfl⟩), hheld, hheldOut, hcount, rfl, fun _ => rfl, nofun⟩

theorem exec_de_held (hport : i.port = .de) (h : exec i (attachSink .de Sink.accepting s) = .next t)
    (hout : t.de.session.out = s.de.session.out ++ x) (hlt : k < x.length)
    (hk : s.de.session.sink.acceptsNext k = true) (hans : (s.de.session.sink.after k).answer = .silent) :
    ∃ u, exec i s = .next u ∧ s.de.session.heldFrom u.de.session ∧ u.de.session.out = s.de.session.out ++ x.take k ∧
      u.de.session.callCount = s.de.session.callCount + k ∧ sameElsewhere .de s u := by
  obtain ⟨body, hbody, hexec⟩ := exec_eq_de_beat hport
  rw [hexec, attachSink_de, onDE_next] at h
  obtain ⟨e', hbeat, rfl⟩ := h
  obtain ⟨⟨⟨hfault, hhung⟩, hclosed⟩, hcut⟩ := DE.beat_cutBehind hbody hbeat hout hlt hk (by simp [hans])
  obtain ⟨e, hhang, hwrote⟩ := hcut.hang_of_silent hlt hans
  obtain ⟨hheld, hheldOut, hcount⟩ := hwrote.heldFrom hlt
  have hnext : s.de.beat i.answered body = .next { e with session := { e.session with hung := true } } := by
    rw [DE.beat_admitted hhung hfault hclosed, hhang, DE.finish]
  exact ⟨_, (hexec s).trans (onDE_next.mpr ⟨_, hnext, rfl⟩), hheld, hheldOut, hcount, rfl, nofun, fun _ => rfl⟩

end Exec

/-! ### C.FINALIZE with something to write (R134) -/

/-- With a sink that accepts, C.FINALIZE of an open CE that holds a pending match or queued bits writes at least one byte. -/
theorem cFinalize_writes {s : State} (hopen : s.ce.session.isOpen) (hr : s.ce.regular)
    (hwork : s.ce.pending ≠ [] ∨ s.ce.bitSink ≠ []) :
    ∃ t x, exec .cFinalize (attachSink .ce Sink.accepting s) = .next t ∧
      t.ce.session.out = s.ce.session.out ++ x ∧ 0 < x.length := by
  obtain ⟨t, ht, ⟨tail, htail, hstream⟩, _⟩ :=
    finalizeWritesTailAndPad (attachSink .ce Sink.accepting s) hopen hr (Sink.acceptsNext_accepting 16)
  obtain ⟨x, _, hx, _⟩ := outIsAppendOnly _ _ _ ht
  refine ⟨t, x, ht, hx, ?_⟩
  have hbits : 0 < s.ce.bitSink.length + tail.length := by
    rcases htail with ⟨hp, _⟩ | ⟨_, c, hc, hpos, rfl⟩
    · exact Nat.add_pos_left (List.length_pos_of_ne_nil (hwork.resolve_left (not_not_intro hp))) _
    · obtain ⟨_, ⟨hcodes, _⟩, _⟩ := hr
      obtain ⟨_, _, hle⟩ := hcodes _ _ hc
      rw [length_beBits]
      exact Nat.add_pos_right _ (minBits_pos (hpos.trans hle))
  have hlen : (unpack8 t.ce.session.out).length
      = (unpack8 s.ce.session.out ++ s.ce.bitSink ++ tail ++ zeros _).length := congrArg _ hstream
  rw [hx] at hlen
  simp only [length_unpack8, List.length_append, attachSink_ce, CE.attach] at hlen
  omega

theorem cFinalize_held {s : State} (hopen : s.ce.session.isOpen) (hr : s.ce.regular)
    (hwork : s.ce.pending ≠ [] ∨ s.ce.bitSink ≠ []) (hans : s.ce.session.sink.answer = .silent) :
    ∃ t, exec .cFinalize s = .next t ∧ s.ce.session.heldFrom t.ce.session ∧
      t.ce.session.out = s.ce.session.out ∧ sameElsewhere .ce s t := by
  obtain ⟨t, x, ht, hx, hpos⟩ := cFinalize_writes hopen hr hwork
  obtain ⟨u, hu, hheld, hout, _, hsame⟩ := exec_ce_held (k := 0) rfl ht hx hpos rfl hans
  rw [List.take_zero, List.append_nil] at hout
  exact ⟨u, hu, hheld, hout, hsame⟩

/-! ### An engine held inside a beat (R207) -/

theorem exec_of_hung {i : Instr} {s : State} (h : (s.sessionAt i.port).hung = true) :
    exec i s = .refused (.engineBusy i.port) := by
  cases hport : i.port with
  | ce =>
    obtain ⟨body, _, hexec⟩ := exec_eq_ce_beat hport
    rw [hport, State.sessionAt_ce] at h
    rw [hexec, onCE, CE.beat, Session.gate_busy h]
  | de =>
    obtain ⟨body, _, hexec⟩ := exec_eq_de_beat hport
    rw [hport, State.sessionAt_de] at h
    rw [hexec, onDE, DE.beat, Session.gate_busy h]

/-- Settles O25: every body goes as it does with a sink that accepts until its sink never answers, and is held there; the gate
refuses the beats that come after. -/
theorem silentSinkHoldsTheEngine : Obligations.SilentSinkHoldsTheEngine := by
  refine ⟨fun i s t x k h hout hlt hk hans => ?_, fun _ => cFinalize_held, fun _ _ => exec_of_hung⟩
  cases hport : i.port with
  | ce =>
    rw [hport] at h hout hk hans
    exact exec_ce_held hport h hout hlt hk hans
  | de =>
    rw [hport] at h hout hk hans
    exact exec_de_held hport h hout hlt hk hans

end Sys2Proof.Machine
end

section
/-! The end of a run (70_reset_and_hazards.md R203): what a beat makes of the registers and responses that tell it, and why
`closed` and the end stick (10_state.md R15, R26, R34). -/

namespace Sys2Proof.Machine

open Sys2Proof

/-! ### What a rule draws from its engine -/

/-- Between the sessions `t` and `u` no fault is latched, `closed` is not touched, and no response is given. -/
def Session.Quiet (t u : Session) : Prop := u.fault = t.fault ∧ u.closed = t.closed ∧ u.responses = t.responses

/-- Between the sessions `t` and `u` an `OK` is given, that to FINALIZE with `closed` set (R133, R134, R155, R156). -/
def Session.Answers (finalizes : Bool) (t u : Session) : Prop :=
  u.fault = t.fault ∧ u.closed = (t.closed || finalizes) ∧ ∃ n, u.responses = t.responses ++ [.ok n]

/-- The rule, however it ends, is quiet since the session `t`; what it raises is a fault, and not SessionClosed, which only
the gate raises (R175). -/
def Res.Quiet {σ α : Type} (session : σ → Session) (t : Session) : Res σ α → Prop
  | .ok _ e => t.Quiet (session e)
  | .raise c _ e => c ≠ .noFault ∧ c ≠ .sessionClosed ∧ t.Quiet (session e)
  | .hang e => t.Quiet (session e)
  | .refuse _ => True
  | .fault _ => True

/-- The body of a beat is quiet, or it ends with its `OK`. -/
def Res.Draws {σ : Type} (session : σ → Session) (finalizes : Bool) (t : Session) (r : Res σ Unit) : Prop :=
  r.Quiet session t ∨ ∃ e, r = .ok () e ∧ t.Answers finalizes (session e)

theorem Session.Quiet.refl (t : Session) : t.Quiet t := ⟨rfl, rfl, rfl⟩

theorem Session.Quiet.sinkWrite {t u : Session} (bs : ByteSeq) (h : t.Quiet u) : t.Quiet (u.sinkWrite bs).2 := by
  obtain ⟨_, _, _, _, _, hclosed, hfault, _, hresponses, _⟩ := u.sinkWrite_spec bs
  obtain ⟨hf, hc, hr⟩ := h
  exact ⟨hfault.trans hf, hclosed.trans hc, hresponses.trans hr⟩

theorem Res.Quiet.andThen {σ α β : Type} {session : σ → Session} {t : Session} {r : Res σ α} {f : α → σ → Res σ β}
    (hr : r.Quiet session t) (hf : ∀ a e, t.Quiet (session e) → (f a e).Quiet session t) :
    (r.andThen f).Quiet session t := by
  cases r with
  | ok a e => exact hf a e hr
  | _ => exact hr

/-- A reserved beat's body is quiet (R176). -/
theorem Res.Quiet.reserved {σ : Type} (session : σ → Session) (e : σ) :
    (Res.raise .reservedCommand 0 e : Res σ Unit).Quiet session (session e) := ⟨by decide, by decide, .refl _⟩

/-! ### The rules of CE -/

section CERules

variable {t : Session} {e : CE} (h : t.Quiet e.session)
include h

theorem CE.sinkWrite_quiet (bs : ByteSeq) : (e.sinkWrite bs).Quiet CE.session t := by
  have hwrite := h.sinkWrite bs
  rcases e.sinkWrite_cases bs with ⟨he, _⟩ | ⟨he, _⟩ | ⟨he, _⟩ <;> rw [he]
  · exact hwrite
  · exact ⟨by decide, by decide, hwrite⟩
  · exact hwrite

theorem bskAppend_quiet (v w : Nat) : (bskAppend v w e).Quiet CE.session t := by
  by_cases hv : v < 2 ^ w
  · rw [bskAppend_eq v w e hv]
    split
    · exact h
    · exact CE.sinkWrite_quiet (by exact h) _
  · rw [bskAppend, if_pos (Nat.not_lt.mp hv)]
    trivial

theorem cEmit_quiet (w : Nat) (b : Byte) : (cEmit w b e).Quiet CE.session t := by
  refine (bskAppend_quiet h _ _).andThen fun _ _ h1 => ?_
  exact (bskAppend_quiet h1 _ _).andThen fun _ _ h2 => h2

theorem cMiss_quiet (b : Byte) : (cMiss b e).Quiet CE.session t := by
  unfold cMiss
  split
  · exact ⟨by decide, by decide, h⟩
  · split
    · trivial
    · exact cEmit_quiet (by exact h) _ b

theorem cStep_quiet (b : Byte) : (cStep b e).Quiet CE.session t := by
  unfold cStep
  split
  · exact h
  · exact cMiss_quiet (e := e.extend b) h b

theorem cTail_quiet : (cTail e).Quiet CE.session t := by
  unfold cTail
  split
  · exact h
  · exact bskAppend_quiet h _ _

end CERules

theorem cEndcallBody_draws (e : CE) : (cEndcallBody e).Draws CE.session false e.session :=
  .inr ⟨_, rfl, rfl, (Bool.or_false _).symm, _, rfl⟩

/-- C.FINALIZE is quiet until its two writes are done; then it closes and answers (R134). -/
theorem cFinalizeBody_draws (e : CE) : (cFinalizeBody e).Draws CE.session true e.session := by
  have hwrites : ((cTail e).andThen fun _ => bskDrain).Quiet CE.session e.session :=
    (cTail_quiet (.refl _)).andThen fun _ _ h1 => CE.sinkWrite_quiet (by exact h1) _
  rw [cFinalizeBody, ← Res.andThen_assoc (cTail e) fun _ => bskDrain]
  cases hr : (cTail e).andThen fun _ => bskDrain with
  | ok _ e2 =>
    rw [hr] at hwrites
    obtain ⟨hf, hc, hresponses⟩ := hwrites
    exact .inr ⟨_, rfl, hf, (Bool.or_true _).symm, _, congrArg (· ++ _) hresponses⟩
  | _ =>
    rw [hr] at hwrites
    exact .inl hwrites

/-- Every instruction of CE is one beat of it, whose body is quiet or ends with its `OK`. -/
theorem exec_eq_ce_beat_draws {i : Instr} (h : i.port = .ce) :
    ∃ body, (∀ e, (body e).Draws CE.session i.finalizes e.session) ∧ ∀ s, exec i s = onCE (CE.beat i.answered body) s := by
  suffices hbeat : ∃ a body, i.answered = a ∧ (∀ e, (body e).Draws CE.session i.finalizes e.session) ∧
      ∀ s, exec i s = onCE (CE.beat a body) s by
    obtain ⟨a, body, rfl, hbody⟩ := hbeat
    exact ⟨body, hbody⟩
  cases i with
  | cData b => exact ⟨_, _, by simp [Instr.answered, encode], fun _ => .inl (cStep_quiet (.refl _) b), fun _ => rfl⟩
  | cEndcall => exact ⟨_, _, rfl, cEndcallBody_draws, fun _ => rfl⟩
  | cFinalize => exact ⟨_, _, rfl, cFinalizeBody_draws, fun _ => rfl⟩
  | cRsvdEndcallNz | cRsvdFinalizeNz | cRsvdOp3 =>
    exact ⟨_, _, by simp [Instr.answered, encode], fun _ => .inl (Res.Quiet.reserved _ _), fun _ => rfl⟩
  | _ => cases h

/-! ### The rules of DE -/

section DERules

variable {t : Session} {e : DE} (h : t.Quiet e.session)
include h

theorem DE.sinkWrite_quiet (bs : ByteSeq) : (e.sinkWrite bs).Quiet DE.session t := by
  have hwrite := h.sinkWrite bs
  rcases e.sinkWrite_cases bs with ⟨he, _⟩ | ⟨he, _⟩ | ⟨he, _⟩ <;> rw [he]
  · exact hwrite
  · exact ⟨by decide, by decide, hwrite⟩
  · exact hwrite

theorem dCodeValue_quiet (v : Nat) : (dCodeValue v e).Quiet DE.session t := by
  unfold dCodeValue
  split
  · exact ⟨by decide, by decide, h⟩
  · exact (DE.sinkWrite_quiet h _).andThen fun _ _ h1 => h1

theorem dByteValue_quiet (b : Byte) : (dByteValue b e).Quiet DE.session t := by
  unfold dByteValue
  split
  · exact ⟨by decide, by decide, h⟩
  · exact (DE.sinkWrite_quiet (e := e.mint _ b) h _).andThen fun _ _ h1 => h1

theorem dCode_quiet : (dCode e).Quiet DE.session t := by
  by_cases hq : e.bitSource.length < e.codeWidth
  · rw [dCode_stall e hq]
    exact h
  · rw [dCode_take e (Nat.not_lt.mp hq)]
    exact dCodeValue_quiet (by exact h) _

theorem dByte_quiet : (dByte e).Quiet DE.session t := by
  by_cases hq : e.bitSource.length < 8
  · rw [dByte_stall e hq]
    exact h
  · rw [dByte_take e (Nat.not_lt.mp hq)]
    exact dByteValue_quiet (by exact h) _

theorem dStep_quiet : (dStep e).Quiet DE.session t := by
  unfold dStep
  split
  · exact dCode_quiet h
  · exact dByte_quiet h

theorem dDrive_quiet : (dDrive e).Quiet DE.session t := by
  induction e using dDrive_steps_induction with
  | step e ih =>
    have hstep := dStep_quiet h
    rw [dDrive_eq_andThen]
    cases hs : dStep e with
    | ok p e1 =>
      rw [hs] at hstep
      cases p with
      | progress => exact ih e1 hs hstep
      | stall => exact hstep
    | _ =>
      rw [hs] at hstep
      exact hstep

theorem dReceive_quiet (bits : Bits) : (dReceive bits e).Quiet DE.session t := dDrive_quiet (by exact h)

end DERules

theorem dEndcallBody_draws (e : DE) : (dEndcallBody e).Draws DE.session false e.session :=
  .inr ⟨_, rfl, rfl, (Bool.or_false _).symm, _, rfl⟩

/-- D.FINALIZE closes and answers (R156). -/
theorem dFinalizeBody_draws (e : DE) : (dFinalizeBody e).Draws DE.session true e.session :=
  .inr ⟨_, rfl, rfl, (Bool.or_true _).symm, _, rfl⟩

/-- Every instruction of DE is one beat of it, whose body is quiet or ends with its `OK`. -/
theorem exec_eq_de_beat_draws {i : Instr} (h : i.port = .de) :
    ∃ body, (∀ e, (body e).Draws DE.session i.finalizes e.session) ∧ ∀ s, exec i s = onDE (DE.beat i.answered body) s := by
  suffices hbeat : ∃ a body, i.answered = a ∧ (∀ e, (body e).Draws DE.session i.finalizes e.session) ∧
      ∀ s, exec i s = onDE (DE.beat a body) s by
    obtain ⟨a, body, rfl, hbody⟩ := hbeat
    exact ⟨body, hbody⟩
  cases i with
  | cData | cEndcall | cFinalize | cRsvdEndcallNz | cRsvdFinalizeNz | cRsvdOp3 => cases h
  | dData b =>
    exact ⟨_, _, by simp [Instr.answered, encode], fun e => .inl (dReceive_quiet (.refl _) _), exec_dData b⟩
  | dEndcall => exact ⟨_, _, rfl, dEndcallBody_draws, fun _ => rfl⟩
  | dFinalize => exact ⟨_, _, rfl, dFinalizeBody_draws, fun _ => rfl⟩
  | dRsvdEndcallNz | dRsvdFinalizeNz | dRsvdOp3 =>
    exact ⟨_, _, by simp [Instr.answered, encode], fun _ => .inl (Res.Quiet.reserved _ _), fun _ => rfl⟩
  | _ => exact ⟨_, _, rfl, fun _ => .inl (dReceive_quiet (.refl _) _), fun _ => rfl⟩

/-! ### What an instruction draws from an engine -/

/-- What an instruction draws from the engine whose session it finds as `t` and leaves as `u`: nothing; its `OK`; the repeated
`ERR` of a latched fault (R180); SessionClosed, from the gate (R175); or a fault of its body (R179). -/
inductive Session.Draws (i : Instr) (t u : Session) : Prop
  | quiet (h : t.Quiet u)
  | answers (hfault : t.fault = .noFault) (hclosed : t.closed = false) (h : t.Answers i.finalizes u)
  | repeats (hfault : t.fault ≠ .noFault) (h : u = t.repeatFault i.answered)
  | sessionClosed (hfault : t.fault = .noFault) (hclosed : t.closed = true) (h : u = t.latch i.answered .sessionClosed 0)
  | faults (c : Cause) (v : BitVec 16) (hfault : t.fault = .noFault) (hclosed : t.closed = false)
      (hc : c ≠ .noFault) (hs : c ≠ .sessionClosed) (hlatched : u.fault = c)
      (hresponses : u.responses = if i.answered then t.responses ++ [.err c v] else t.responses)

theorem CE.beat_draws {i : Instr} {body : CE → Res CE Unit} {e e' : CE}
    (hbody : (body e).Draws CE.session i.finalizes e.session) (h : e.beat i.answered body = .next e') :
    e.session.Draws i e'.session := by
  obtain ⟨_, ⟨hf, rfl⟩ | ⟨hf, hc, rfl⟩ | ⟨hf, hc, hend⟩⟩ := CE.beat_next h
  · exact .repeats hf rfl
  · exact .sessionClosed hf hc rfl
  · rcases hend with hok | ⟨c, v, e1, hraise, rfl⟩ | ⟨e1, hhang, rfl⟩
    · rw [hok] at hbody
      rcases hbody with hquiet | ⟨_, ⟨⟩, hanswers⟩
      · exact .quiet hquiet
      · exact .answers hf hc hanswers
    · rw [hraise] at hbody
      obtain ⟨hne, hns, _, _, hresponses⟩ | ⟨_, ⟨⟩, _⟩ := hbody
      exact .faults c v hf hc hne hns (CE.takeFault_fault ..) (by rw [CE.takeFault_responses, hresponses])
    · rw [hhang] at hbody
      obtain hquiet | ⟨_, ⟨⟩, _⟩ := hbody
      exact .quiet hquiet

theorem DE.beat_draws {i : Instr} {body : DE → Res DE Unit} {e e' : DE}
    (hbody : (body e).Draws DE.session i.finalizes e.session) (h : e.beat i.answered body = .next e') :
    e.session.Draws i e'.session := by
  obtain ⟨_, ⟨hf, rfl⟩ | ⟨hf, hc, rfl⟩ | ⟨hf, hc, hend⟩⟩ := DE.beat_next h
  · exact .repeats hf rfl
  · exact .sessionClosed hf hc rfl
  · rcases hend with hok | ⟨c, v, e1, hraise, rfl⟩ | ⟨e1, hhang, rfl⟩
    · rw [hok] at hbody
      rcases hbody with hquiet | ⟨_, ⟨⟩, hanswers⟩
      · exact .quiet hquiet
      · exact .answers hf hc hanswers
    · rw [hraise] at hbody
      obtain ⟨hne, hns, _, _, hresponses⟩ | ⟨_, ⟨⟩, _⟩ := hbody
      exact .faults c v hf hc hne hns (DE.takeFault_fault ..) (by rw [DE.takeFault_responses, hresponses])
    · rw [hhang] at hbody
      obtain hquiet | ⟨_, ⟨⟩, _⟩ := hbody
      exact .quiet hquiet

theorem exec_draws {i : Instr} {s t : State} (h : exec i s = .next t) (p : Port) :
    (s.sessionAt p).Draws i (t.sessionAt p) := by
  cases hport : i.port with
  | ce =>
    obtain ⟨body, hbody, hexec⟩ := exec_eq_ce_beat_draws hport
    obtain ⟨e, hbeat, rfl⟩ := onCE_next.mp (hexec s ▸ h)
    cases p with
    | ce => exact CE.beat_draws (hbody _) hbeat
    | de => exact .quiet (.refl _)
  | de =>
    obtain ⟨body, hbody, hexec⟩ := exec_eq_de_beat_draws hport
    obtain ⟨e, hbeat, rfl⟩ := onDE_next.mp (hexec s ▸ h)
    cases p with
    | ce => exact .quiet (.refl _)
    | de => exact DE.beat_draws (hbody _) hbeat

/-! ### What sticks (R34, R203) -/

section Sticky

variable {i : Instr} {t u : Session}

/-- With no `ERR` given before, the run ends exactly if the latched fault is answered. -/
theorem Session.runEnd_of_answered_fault {c : Cause} {v : BitVec 16} (hf : u.fault ≠ .noFault) (hs : u.fault ≠ .sessionClosed)
    (hnoErr : t.responses.any Response.isErr = false)
    (hr : u.responses = if i.answered then t.responses ++ [.err c v] else t.responses) : u.runEnd = responseEnd i t u := by
  rw [Session.runEnd_latched hf hs]
  split at hr
  · rw [responseEnd_err hr, hr]
    simp [Response.isErr]
  · rw [responseEnd_none hr, hr, hnoErr]
    rfl

theorem Session.any_isErr_repeatFault (t : Session) (answered : Bool) :
    (t.repeatFault answered).responses.any Response.isErr = (t.responses.any Response.isErr || answered) := by
  cases answered <;> simp [Response.isErr]

theorem Session.Quiet.runEnd (h : t.Quiet u) : u.runEnd = t.runEnd := by
  obtain ⟨hf, hc, hr⟩ := h
  rw [Session.runEnd, Session.runEnd, hf, hc, hr]

theorem Session.Draws.closed (h : t.Draws i u) (hclosed : t.closed = true) : u.closed = true := by
  cases h with
  | quiet h =>
    obtain ⟨_, hc, _⟩ := h
    exact hc.trans hclosed
  | answers _ hopen | faults _ _ _ hopen => cases hopen.symm.trans hclosed
  | repeats _ h | sessionClosed _ _ h => rw [h]; simpa using hclosed

theorem Session.Draws.errsFaulted (h : t.Draws i u) (herrs : t.errsFaulted) : u.errsFaulted := by
  intro hu
  cases h with
  | quiet h =>
    obtain ⟨hf, _, hr⟩ := h
    rw [hr]
    exact herrs (hf ▸ hu)
  | answers hf _ h =>
    obtain ⟨_, _, n, hr⟩ := h
    rw [hr, List.any_append, herrs hf]
    rfl
  | repeats hf h => exact absurd (by simpa [h] using hu) hf
  | sessionClosed _ _ h => simp [h] at hu
  | faults c v _ _ hc _ hlatched => exact absurd (hlatched.symm.trans hu) hc

/-- A run that has not ended ends by the response drawn. -/
theorem Session.Draws.runEnd_of_none (h : t.Draws i u) (herrs : t.errsFaulted) (hnone : t.runEnd = none) :
    u.runEnd = responseEnd i t u := by
  cases h with
  | quiet h =>
    have ⟨_, _, hr⟩ := h
    rw [h.runEnd, hnone, responseEnd_none hr]
  | answers hf hc h =>
    obtain ⟨huf, huc, n, hr⟩ := h
    rw [responseEnd_ok hr, Session.runEnd, if_pos (huf.trans hf), huc, hc, Bool.false_or]
  | repeats hf h =>
    have hs : t.fault ≠ .sessionClosed := fun hs => by simp [Session.runEnd_sessionClosed hs] at hnone
    have hnoErr : t.responses.any Response.isErr = false := by simpa [Session.runEnd_latched hf hs] using hnone
    subst h
    exact Session.runEnd_of_answered_fault (by simpa) (by simpa) hnoErr (t.repeatFault_responses _)
  | sessionClosed hf hc => simp [Session.runEnd_closed hf hc] at hnone
  | faults c v hf _ hc hs hlatched hr =>
    subst hlatched
    exact Session.runEnd_of_answered_fault hc hs (herrs hf) hr

/-- A run that has ended keeps its end. -/
theorem Session.Draws.runEnd_of_some (h : t.Draws i u) {r : RunEnd} (hsome : t.runEnd = some r) : u.runEnd = some r := by
  cases h with
  | quiet h => rw [h.runEnd, hsome]
  | answers hf hc | faults _ _ hf hc => simp [Session.runEnd_open hf hc] at hsome
  | repeats hf h =>
    rw [← hsome, h]
    by_cases hs : t.fault = .sessionClosed
    · rw [Session.runEnd_sessionClosed hs, Session.runEnd_sessionClosed (by simpa)]
    · rw [Session.runEnd_latched hf hs] at hsome ⊢
      have herr : t.responses.any Response.isErr = true := by
        split at hsome
        · assumption
        · cases hsome
      rw [Session.runEnd_latched (by simpa) (by simpa), Session.any_isErr_repeatFault, herr, Bool.true_or]
  | sessionClosed hf hc h =>
    rw [← hsome, Session.runEnd_closed hf hc, h]
    exact Session.runEnd_sessionClosed (Session.latch_fault ..)

end Sticky

/-- Instructions run to the end reach the end that the session then shows, from any session whose run has not ended. -/
theorem runToEnd_runEnd {p : Port} {l : List Instr} {s t : State} {r : Option RunEnd} (herrs : (s.sessionAt p).errsFaulted)
    (hnone : (s.sessionAt p).runEnd = none) (h : runToEnd p l s = .next (r, t)) : (t.sessionAt p).runEnd = r := by
  induction l generalizing s with
  | nil =>
    cases h
    exact hnone
  | cons i l ih =>
    obtain ⟨s', hexec⟩ := runToEnd_cons_inv h
    have hend := (exec_draws hexec p).runEnd_of_none herrs hnone
    rw [runToEnd_cons hexec, ← hend] at h
    cases hr : (s'.sessionAt p).runEnd with
    | some r' =>
      rw [hr] at h
      cases h
      exact hr
    | none =>
      rw [hr] at h
      exact ih ((exec_draws hexec p).errsFaulted herrs) hr h

/-- Settles O30: an instruction draws nothing, an `OK`, or an `ERR` from an engine, and each of the three leaves the end of its
run, and `closed`, where they stand or where the response puts them. -/
theorem closedAndTheEndOfARunAreSticky : Obligations.ClosedAndTheEndOfARunAreSticky := by
  refine ⟨fun i s t h => ⟨(exec_draws h .ce).closed, (exec_draws h .de).closed⟩, fun p i s t h herrs => ?_,
    fun p l s t r h => ?_⟩
  · have hdraws := exec_draws h p
    exact ⟨hdraws.errsFaulted herrs, hdraws.runEnd_of_none herrs, fun _ => hdraws.runEnd_of_some⟩
  · exact runToEnd_runEnd (by simp) (by simp) h

end Sys2Proof.Machine
end
